-- ==== Sys2Proof/Word.lean ====
section
/-! DEFINITION. The word types of the block: 32-bit words, bytes, and binary32 values held as their encodings. -/

namespace Sys2Proof

/-- A 32-bit word: every host register, command word and sample is one (00_scope.md R12). -/
abbrev Word := BitVec 32

/-- A byte of the sample memory (20_memory.md R70). -/
abbrev Byte := BitVec 8

/-- A binary32 value, held as its IEEE 754 encoding, so that the `f32` and `w32` of R16 are the identity. -/
abbrev F32 := BitVec 32

end Sys2Proof
end

