-- ==== Sys2Proof/Config.lean ====
section
/-! DEFINITION. The parameters of 00_scope.md R11 and the free values: what the spec leaves open.
An `opaque` constant has no body that a proof could see, so a theorem about it holds for every value of it. -/

namespace Sys2Proof

/-- The sizes of R11: slot counts and the number of bytes of sample memory. -/
structure Params where
  nOsc : Nat
  nLfo : Nat
  nEnv : Nat
  nClk : Nat
  nSeq : Nat
  memBytes : Nat
deriving DecidableEq, Repr

/-- The default values of R11. -/
def Params.default : Params :=
  { nOsc := 8, nLfo := 8, nEnv := 8, nClk := 8, nSeq := 8, memBytes := 65536 }

/-- A slot count R11 allows. -/
abbrev Params.legalCount (n : Nat) : Prop := 1 ≤ n ∧ n ≤ 256

/-- The legal values of R11: slot counts 1 to 256, MEM_BYTES a multiple of 4 from 8 to 2^32. -/
abbrev Params.legal (p : Params) : Prop :=
  Params.legalCount p.nOsc ∧ Params.legalCount p.nLfo ∧ Params.legalCount p.nEnv ∧
  Params.legalCount p.nClk ∧ Params.legalCount p.nSeq ∧
  p.memBytes % 4 = 0 ∧ 8 ≤ p.memBytes ∧ p.memBytes ≤ 2 ^ 32

/-- REG_BASE of R11: the host address of the register window. OPEN, so free (log 9). -/
opaque Config.regBase : Nat

/-- MEM_BASE of R11: the host address of byte 0 of the sample memory. OPEN, so free (log 9). -/
opaque Config.memBase : Nat

/-- What SIN_F32 gives before the properties of R22 and 40_leaf_utilities.md R136 are imposed on it (log 6). -/
opaque Config.sinRaw : F32 → F32

/-- What EXP2_F32 gives before the properties of R23 are imposed on it (log 7). -/
opaque Config.exp2Raw : F32 → F32

/-- The n-th NaN draw of R21: bit 23 is the sign, bits 22:0 the fraction (log 4). -/
opaque Config.nanBits : Nat → BitVec 24

/-- The draw of R72 for the byte at an address, after the n-th power-on reset (log 5). -/
opaque Config.powerOnByte : Nat → Nat → Byte

end Sys2Proof
end

