-- ==== Sys2Proof/Machine/Binary32.lean ====
section
/-! DEFINITION. IEEE 754 binary32 arithmetic, rounded to nearest, ties to even (00_scope.md R19 to R25).
Every finite value is a whole number of units of 2^-149, so exact results are natural numbers or quotients
of two, and one function rounds them all. -/

namespace Sys2Proof.Machine

/-- The encoding of +infinity without its sign: exponent all ones, fraction 0. -/
def infMag : Nat := 255 * 2 ^ 23

/-- The sign bit. -/
def neg32 (x : F32) : Bool := decide (2 ^ 31 ≤ x.toNat)

/-- The encoding without its sign bit. It orders the non-NaN values of one sign. -/
def mag32 (x : F32) : Nat := x.toNat % 2 ^ 31

/-- A NaN encoding: exponent all ones, fraction not 0 (R21). -/
def isNaN (x : F32) : Bool := decide (infMag < mag32 x)

/-- An infinity. -/
def isInf (x : F32) : Bool := decide (mag32 x = infMag)

/-- A finite value: neither NaN nor infinite. -/
def isFinite (x : F32) : Bool := decide (mag32 x < infMag)

/-- +0 or -0. -/
def isZero (x : F32) : Bool := decide (mag32 x = 0)

/-- The magnitude of a finite value as a number of units of 2^-149, exactly. -/
def units32 (x : F32) : Nat :=
  if mag32 x < 2 ^ 23 then mag32 x
  else (2 ^ 23 + mag32 x % 2 ^ 23) * 2 ^ (mag32 x / 2 ^ 23 - 1)

/-- A finite value as a whole number of units of 2^-149, exactly. -/
def value32 (x : F32) : Int :=
  if neg32 x then -(units32 x : Int) else (units32 x : Int)

/-- The encoding with a given sign and a given rest. -/
def pack32 (negative : Bool) (mag : Nat) : F32 :=
  BitVec.ofNat 32 (if negative then 2 ^ 31 + mag else mag)

/-- How many low bits of a quotient of units lie below the 24 bits of a significand. -/
def excessBits (q : Nat) : Nat := q.log2 - 23

/-- num/den rounded to a whole number, ties to even. -/
def roundQuotient (num den : Nat) : Nat :=
  let q := num / den
  let r := num % den
  if den < 2 * r then q + 1
  else if 2 * r = den then q + q % 2
  else q

/-- num/den units of 2^-149 rounded to binary32, nearest, ties to even, as an encoding without sign;
what is too large becomes infinity (R19). Subnormal results are kept. -/
def roundMag (num den : Nat) : Nat :=
  let k := excessBits (num / den)
  min infMag (k * 2 ^ 23 + roundQuotient num (den * 2 ^ k))

/-- The NaN with a given sign and the low 23 bits of a number as its fraction, 0 made 1. -/
def nanOf (negative : Bool) (fraction : Nat) : F32 := pack32 negative (infMag + max 1 (fraction % 2 ^ 23))

/-- The n-th NaN draw: any sign, any fraction but 0 (R21, log 4). -/
def nan32 (n : Nat) : F32 := nanOf (Config.nanBits n).msb (Config.nanBits n).toNat

/-- An encoding made a NaN: its sign and its fraction, 0 made 1. -/
def nanLike (x : F32) : F32 := nanOf (neg32 x) (mag32 x)

/-- The same value with the other sign. -/
def negate32 (x : F32) : F32 := pack32 (!neg32 x) (mag32 x)

/-- An exact sum of units rounded to binary32; a zero sum is negative when `zeroNeg`. -/
def roundSum (z : Int) (zeroNeg : Bool) : F32 :=
  if z = 0 then pack32 zeroNeg 0
  else pack32 (decide (z < 0)) (roundMag z.natAbs 1)

/-- `a +f b` (R19). The result, if a NaN, is draw `d`. -/
def add32 (d : Nat) (a b : F32) : F32 :=
  if isNaN a || isNaN b then nan32 d
  else if isInf a then (if isInf b && (neg32 a != neg32 b) then nan32 d else a)
  else if isInf b then b
  else roundSum (value32 a + value32 b) (neg32 a && neg32 b)

/-- `a -f b` (R19). The result, if a NaN, is draw `d`. -/
def sub32 (d : Nat) (a b : F32) : F32 := add32 d a (negate32 b)

/-- `a *f b` (R19). The result, if a NaN, is draw `d`. -/
def mul32 (d : Nat) (a b : F32) : F32 :=
  let sign := neg32 a != neg32 b
  if isNaN a || isNaN b then nan32 d
  else if isInf a then (if isZero b then nan32 d else pack32 sign infMag)
  else if isInf b then (if isZero a then nan32 d else pack32 sign infMag)
  else pack32 sign (roundMag (units32 a * units32 b) (2 ^ 149))

/-- `a /f b` (R19). The result, if a NaN, is draw `d`. -/
def div32 (d : Nat) (a b : F32) : F32 :=
  let sign := neg32 a != neg32 b
  if isNaN a || isNaN b then nan32 d
  else if isInf a then (if isInf b then nan32 d else pack32 sign infMag)
  else if isInf b then pack32 sign 0
  else if isZero b then (if isZero a then nan32 d else pack32 sign infMag)
  else pack32 sign (roundMag (units32 a * 2 ^ 149) (units32 b))

/-- Where a non-NaN value stands in the order of R20; the two zeros stand together. -/
def order32 (x : F32) : Int := if neg32 x then -(mag32 x : Int) else (mag32 x : Int)

/-- `a < b`, false with a NaN (R20). -/
def lt32 (a b : F32) : Bool := !isNaN a && !isNaN b && decide (order32 a < order32 b)

/-- `a <= b`, false with a NaN (R20). -/
def le32 (a b : F32) : Bool := !isNaN a && !isNaN b && decide (order32 a ≤ order32 b)

/-- `a > b` (R20). -/
def gt32 (a b : F32) : Bool := lt32 b a

/-- `a >= b` (R20). -/
def ge32 (a b : F32) : Bool := le32 b a

/-- The sign bit cleared (R20). -/
def abs32 (x : F32) : F32 := pack32 false (mag32 x)

/-- 1.0 in units of 2^-149. -/
def oneUnits : Nat := 2 ^ 149

/-- The largest integral binary32 value not greater than x (R20). -/
def floor32 (x : F32) : F32 :=
  if !isFinite x then x
  else if neg32 x then pack32 true (roundMag ((units32 x + (oneUnits - 1)) / oneUnits * oneUnits) 1)
  else pack32 false (roundMag (units32 x / oneUnits * oneUnits) 1)

/-- `cvt_u32_f32(n)` (R24). -/
def cvtU32F32 (n : Nat) : F32 := pack32 false (roundMag (n * oneUnits) 1)

/-! The constants of R25. -/

/-- +0.0 -/
def zeroF : F32 := 0x00000000#32
/-- 0.5 -/
def halfF : F32 := 0x3F000000#32
/-- 1 -/
def oneF : F32 := 0x3F800000#32
/-- -1 -/
def minusOneF : F32 := 0xBF800000#32
/-- 2 -/
def twoF : F32 := 0x40000000#32
/-- 4 -/
def fourF : F32 := 0x40800000#32
/-- 12 -/
def twelveF : F32 := 0x41400000#32
/-- 24 -/
def twentyFourF : F32 := 0x41C00000#32
/-- 60 -/
def sixtyF : F32 := 0x42700000#32
/-- 100 -/
def hundredF : F32 := 0x42C80000#32
/-- 500 -/
def fiveHundredF : F32 := 0x43FA0000#32
/-- 1000 -/
def thousandF : F32 := 0x447A0000#32
/-- 0.01 -/
def centiF : F32 := 0x3C23D70A#32
/-- 2π -/
def twoPiF : F32 := 0x40C90FDB#32
/-- +infinity -/
def infF : F32 := 0x7F800000#32

/-- `trunc_sat_u32(x)` (R24). -/
def truncSatU32 (x : F32) : Nat :=
  if isNaN x || lt32 x oneF then 0
  else if isInf x then 2 ^ 32 - 1
  else min (2 ^ 32 - 1) (units32 x / oneUnits)

/-- SIN_F32 (R22): the uninterpreted function, kept within [-1, 1] on finite values and +0 at +0, and a NaN at a NaN,
which 40_leaf_utilities.md R136 says goes through Sine (log 6). -/
def sinF32 (x : F32) : F32 :=
  if x = zeroF then zeroF
  else if isNaN x then nanLike (Config.sinRaw x)
  else if isFinite x && !(le32 minusOneF (Config.sinRaw x) && le32 (Config.sinRaw x) oneF) then zeroF
  else Config.sinRaw x

/-- 2^k for an integer -149 <= k <= 127, given as k + 149; it is exact. -/
def pow2F32 (kPlus149 : Nat) : F32 := pack32 false (roundMag (2 ^ kPlus149) 1)

/-- EXP2_F32 (R23): exact at the integers from -149 to 127, +inf from 128 on, +0 at -inf, NaN at NaN;
elsewhere the uninterpreted function, kept at or above +0 (log 7). -/
def exp2F32 (x : F32) : F32 :=
  if isNaN x then nanLike (Config.exp2Raw x)
  else if isInf x then (if neg32 x then zeroF else infF)
  else if !neg32 x && decide (128 * oneUnits ≤ units32 x) then infF
  else if units32 x % oneUnits = 0 ∧ (neg32 x = false ∨ units32 x ≤ 149 * oneUnits) then
    (if neg32 x then pow2F32 (149 - units32 x / oneUnits) else pow2F32 (149 + units32 x / oneUnits))
  else if le32 zeroF (Config.exp2Raw x) then Config.exp2Raw x
  else zeroF

end Sys2Proof.Machine
end

