-- ==== Sys2Proof/Machine/Leaf.lean ====
section
/-! DEFINITION. The leaf utilities of 40_leaf_utilities.md: phase wrap, clamps, edge detector, waveform shaper. -/

namespace Sys2Proof.Machine

/-- `Wrap(x)`: x minus its floor, 1.0 folded to +0.0 (R121). Uses draw `d`. -/
def wrap32 (d : Nat) (x : F32) : F32 :=
  let y := sub32 d x (floor32 x)
  if ge32 y oneF then zeroF else y

/-- `clampnn(x)` (R123). -/
def clampnn (x : F32) : F32 := if lt32 zeroF x then x else zeroF

/-- `clamp01(x)` (R124). -/
def clamp01 (x : F32) : F32 :=
  if gt32 x oneF then oneF else if ge32 x zeroF then x else zeroF

/-- `Level(x)` (R127). -/
def level (x : F32) : Bool := ge32 x halfF

/-- `rising` of `EdgeCheck(m, x)`; its second result is `level x` (R128). -/
def risingEdge (m : Bool) (x : F32) : Bool := !m && level x

/-- The waveforms of R130. -/
inductive Waveform where
  | saw | square | sine | triangle | silence
deriving DecidableEq, Repr

/-- The waveform a type code selects (R130). -/
def waveformOf (t : Word) : Waveform :=
  if t = 0#32 then .saw
  else if t = 1#32 then .square
  else if t = 2#32 then .sine
  else if t = 3#32 then .triangle
  else .silence

/-- `Wave(t, p, pwm)` (R129 to R135). Uses draws `d` to `d + 2`. -/
def wave (d : Nat) (t : Word) (p pwm : F32) : F32 :=
  match waveformOf t with
  | .saw => mul32 (d + 1) twoF (sub32 d p halfF)
  | .square => if lt32 p pwm then oneF else minusOneF
  | .sine => sinF32 (mul32 d twoPiF p)
  | .triangle => sub32 (d + 2) (mul32 (d + 1) fourF (abs32 (sub32 d p halfF))) oneF
  | .silence => zeroF

end Sys2Proof.Machine
end

