-- ==== Sys2Proof/Syntax.lean ====
section
/-! DEFINITION. The commands of the block as syntax: one constructor per row of the opcode map (30_encoding.md R96). -/

namespace Sys2Proof

/-- The five unit kinds (00_scope.md R2, 30_encoding.md R92). -/
inductive UnitKind where
  | osc | lfo | env | clk | seq
deriving DecidableEq, Repr

/-- A command. `slot` is the SLOT field (R93); NOP carries the UNIT and SLOT fields it ignores (R99). -/
inductive Instr where
  | nop (unit : Nat) (slot : Nat)
  | createOsc (slot : Nat)
  | createLfo (slot : Nat)
  | createEnv (slot : Nat)
  | createClk (slot : Nat)
  | createSeq (slot : Nat)
  | destroyOsc (slot : Nat)
  | destroyLfo (slot : Nat)
  | destroyEnv (slot : Nat)
  | destroyClk (slot : Nat)
  | destroySeq (slot : Nat)
  | setTypeOsc (slot : Nat)
  | setTypeLfo (slot : Nat)
  | processOsc (slot : Nat)
  | processLfo (slot : Nat)
  | processEnv (slot : Nat)
  | processClk (slot : Nat)
  | processSeq (slot : Nat)
deriving DecidableEq, Repr

end Sys2Proof
end

