-- ==== Sys2Proof/WellFormed.lean ====
section
/-! DEFINITION. When a command is well formed: its fields fit the bits the command word gives them (30_encoding.md R90). -/

namespace Sys2Proof

/-- SLOT is an 8-bit field (R90, R93). -/
abbrev fitsSlot (n : Nat) : Bool := decide (n < 256)

/-- UNIT is a 4-bit field (R90). -/
abbrev fitsUnit (n : Nat) : Bool := decide (n < 16)

/-- The fields of the command fit their bits. -/
def Instr.wellFormed : Instr → Bool
  | .nop u s => fitsUnit u && fitsSlot s
  | .createOsc s => fitsSlot s
  | .createLfo s => fitsSlot s
  | .createEnv s => fitsSlot s
  | .createClk s => fitsSlot s
  | .createSeq s => fitsSlot s
  | .destroyOsc s => fitsSlot s
  | .destroyLfo s => fitsSlot s
  | .destroyEnv s => fitsSlot s
  | .destroyClk s => fitsSlot s
  | .destroySeq s => fitsSlot s
  | .setTypeOsc s => fitsSlot s
  | .setTypeLfo s => fitsSlot s
  | .processOsc s => fitsSlot s
  | .processLfo s => fitsSlot s
  | .processEnv s => fitsSlot s
  | .processClk s => fitsSlot s
  | .processSeq s => fitsSlot s

end Sys2Proof
end

