-- ==== Sys2Proof/Decode.lean ====
section
/-! DEFINITION. The decoder and the encoder of command words (30_encoding.md R90 to R99, R110). -/

namespace Sys2Proof

/-- Why a word is no command (R97, R98). The block answers each with a refusal recorded in STATUS. -/
inductive DecodeError where
  /-- RSV is not 0, or OP is in 0x5..0xF: cause 1 (R94, R91). -/
  | illegalOp
  /-- UNIT is in 0x5..0xF for an OP other than NOP: cause 2 (R92). -/
  | illegalUnit
  /-- SET_TYPE of ENV, CLK or SEQ: cause 3 (R98). -/
  | unsupported
deriving DecidableEq, Repr

/-- OP, bits 3:0 (R90). -/
def opField (w : Word) : Nat := w.toNat % 16

/-- UNIT, bits 7:4 (R90). -/
def unitField (w : Word) : Nat := w.toNat / 16 % 16

/-- SLOT, bits 15:8 (R90). -/
def slotField (w : Word) : Nat := w.toNat / 256 % 256

/-- RSV, bits 31:16 (R90). -/
def rsvField (w : Word) : Nat := w.toNat / 65536

/-- UNIT values (R92). -/
def decodeUnit : Nat → Option UnitKind
  | 0 => some .osc
  | 1 => some .lfo
  | 2 => some .env
  | 3 => some .clk
  | 4 => some .seq
  | _ => none

/-- The code of a unit (R92). -/
def UnitKind.code : UnitKind → Nat
  | .osc => 0
  | .lfo => 1
  | .env => 2
  | .clk => 3
  | .seq => 4

/-- CREATE of a unit. -/
def createOf (u : UnitKind) (slot : Nat) : Instr :=
  match u with
  | .osc => .createOsc slot
  | .lfo => .createLfo slot
  | .env => .createEnv slot
  | .clk => .createClk slot
  | .seq => .createSeq slot

/-- DESTROY of a unit. -/
def destroyOf (u : UnitKind) (slot : Nat) : Instr :=
  match u with
  | .osc => .destroyOsc slot
  | .lfo => .destroyLfo slot
  | .env => .destroyEnv slot
  | .clk => .destroyClk slot
  | .seq => .destroySeq slot

/-- SET_TYPE of a unit; only OSC and LFO have one (R98). -/
def setTypeOf (u : UnitKind) (slot : Nat) : Except DecodeError Instr :=
  match u with
  | .osc => .ok (.setTypeOsc slot)
  | .lfo => .ok (.setTypeLfo slot)
  | .env => .error .unsupported
  | .clk => .error .unsupported
  | .seq => .error .unsupported

/-- PROCESS of a unit. -/
def processOf (u : UnitKind) (slot : Nat) : Instr :=
  match u with
  | .osc => .processOsc slot
  | .lfo => .processLfo slot
  | .env => .processEnv slot
  | .clk => .processClk slot
  | .seq => .processSeq slot

/-- The unit of a command other than NOP, or cause 2 (R92). -/
def withUnit (unit : Nat) (k : UnitKind → Except DecodeError Instr) : Except DecodeError Instr :=
  match decodeUnit unit with
  | none => .error .illegalUnit
  | some u => k u

/-- Decode a command word whose RSV field is 0 by its OP field (R91). -/
def decodeOp (op unit slot : Nat) : Except DecodeError Instr :=
  match op with
  | 0 => .ok (.nop unit slot)
  | 1 => withUnit unit fun u => .ok (createOf u slot)
  | 2 => withUnit unit fun u => .ok (destroyOf u slot)
  | 3 => withUnit unit fun u => setTypeOf u slot
  | 4 => withUnit unit fun u => .ok (processOf u slot)
  | _ => .error .illegalOp

/-- Decode a command word. The order of the checks is that of 60_exceptions.md R271, checks 1 to 3. -/
def decodeWord (w : Word) : Except DecodeError Instr :=
  if rsvField w ≠ 0 then .error .illegalOp
  else decodeOp (opField w) (unitField w) (slotField w)

/-- The OP code of a command (R91). -/
def Instr.op : Instr → Nat
  | .nop _ _ => 0
  | .createOsc _ => 1
  | .createLfo _ => 1
  | .createEnv _ => 1
  | .createClk _ => 1
  | .createSeq _ => 1
  | .destroyOsc _ => 2
  | .destroyLfo _ => 2
  | .destroyEnv _ => 2
  | .destroyClk _ => 2
  | .destroySeq _ => 2
  | .setTypeOsc _ => 3
  | .setTypeLfo _ => 3
  | .processOsc _ => 4
  | .processLfo _ => 4
  | .processEnv _ => 4
  | .processClk _ => 4
  | .processSeq _ => 4

/-- The UNIT field of a command (R92, R99). -/
def Instr.unit : Instr → Nat
  | .nop u _ => u
  | .createOsc _ => 0
  | .createLfo _ => 1
  | .createEnv _ => 2
  | .createClk _ => 3
  | .createSeq _ => 4
  | .destroyOsc _ => 0
  | .destroyLfo _ => 1
  | .destroyEnv _ => 2
  | .destroyClk _ => 3
  | .destroySeq _ => 4
  | .setTypeOsc _ => 0
  | .setTypeLfo _ => 1
  | .processOsc _ => 0
  | .processLfo _ => 1
  | .processEnv _ => 2
  | .processClk _ => 3
  | .processSeq _ => 4

/-- The SLOT field of a command (R93, R99). -/
def Instr.slot : Instr → Nat
  | .nop _ s => s
  | .createOsc s => s
  | .createLfo s => s
  | .createEnv s => s
  | .createClk s => s
  | .createSeq s => s
  | .destroyOsc s => s
  | .destroyLfo s => s
  | .destroyEnv s => s
  | .destroyClk s => s
  | .destroySeq s => s
  | .setTypeOsc s => s
  | .setTypeLfo s => s
  | .processOsc s => s
  | .processLfo s => s
  | .processEnv s => s
  | .processClk s => s
  | .processSeq s => s

/-- The encoding formula of R110, with RSV = 0. -/
def encode (i : Instr) : Word :=
  BitVec.ofNat 32 (i.slot * 256 + i.unit * 16 + i.op)

/-- A row of the opcode map: a word is the row's command when `(w & mask) == match` (R96). -/
structure OpcodeRow where
  pattern : Word
  mask : Word
  /-- The command, from the UNIT and SLOT fields of the word. -/
  instr : Nat → Nat → Instr

/-- The word matches the row (R96). -/
def OpcodeRow.matches (r : OpcodeRow) (w : Word) : Bool := decide (w &&& r.mask = r.pattern)

/-- The opcode map, row by row as R96 lists it. The decoder above does not read it; that the two agree is a claim. -/
def opcodeMap : List OpcodeRow :=
  [ ⟨0x00000000#32, 0xFFFF000F#32, fun u s => .nop u s⟩,
    ⟨0x00000001#32, 0xFFFF00FF#32, fun _ s => .createOsc s⟩,
    ⟨0x00000011#32, 0xFFFF00FF#32, fun _ s => .createLfo s⟩,
    ⟨0x00000021#32, 0xFFFF00FF#32, fun _ s => .createEnv s⟩,
    ⟨0x00000031#32, 0xFFFF00FF#32, fun _ s => .createClk s⟩,
    ⟨0x00000041#32, 0xFFFF00FF#32, fun _ s => .createSeq s⟩,
    ⟨0x00000002#32, 0xFFFF00FF#32, fun _ s => .destroyOsc s⟩,
    ⟨0x00000012#32, 0xFFFF00FF#32, fun _ s => .destroyLfo s⟩,
    ⟨0x00000022#32, 0xFFFF00FF#32, fun _ s => .destroyEnv s⟩,
    ⟨0x00000032#32, 0xFFFF00FF#32, fun _ s => .destroyClk s⟩,
    ⟨0x00000042#32, 0xFFFF00FF#32, fun _ s => .destroySeq s⟩,
    ⟨0x00000003#32, 0xFFFF00FF#32, fun _ s => .setTypeOsc s⟩,
    ⟨0x00000013#32, 0xFFFF00FF#32, fun _ s => .setTypeLfo s⟩,
    ⟨0x00000004#32, 0xFFFF00FF#32, fun _ s => .processOsc s⟩,
    ⟨0x00000014#32, 0xFFFF00FF#32, fun _ s => .processLfo s⟩,
    ⟨0x00000024#32, 0xFFFF00FF#32, fun _ s => .processEnv s⟩,
    ⟨0x00000034#32, 0xFFFF00FF#32, fun _ s => .processClk s⟩,
    ⟨0x00000044#32, 0xFFFF00FF#32, fun _ s => .processSeq s⟩ ]

/-- What the decoder reads from an instruction whose `nbits` low bits are `w` and whose other bits are 0.
A command has 32 bits (R95). -/
def decodeTableWord (nbits w : Nat) : Option Instr :=
  if 32 < nbits then none
  else
    match decodeWord (BitVec.ofNat 32 (w % 2 ^ nbits)) with
    | .ok i => some i
    | .error _ => none

end Sys2Proof
end

