-- ==== Sys2Proof/Machine/State.lean ====
section
/-! DEFINITION. The state of the block (10_state.md), the host operations it waits for, and the state after reset. -/

namespace Sys2Proof.Machine

/-- STATUS (10_state.md R32 to R35). Its reserved bits are hardwired to 0, so only its four fields are held. -/
structure Status where
  /-- Bit 0, the sticky error flag (R32). -/
  err : Bool
  /-- Bit 1 (R33). -/
  lastOk : Bool
  /-- Bits 15:8 (R34). -/
  cause : BitVec 8
  /-- Bits 23:16 (R34). -/
  faultArg : BitVec 8
deriving DecidableEq, Repr

/-- The oscillator's record (R46, R47). -/
structure OscState where
  masterPhase : F32
  slavePhase : F32
  type : Word
deriving DecidableEq, Repr

/-- The LFO's record (R48 to R50). -/
structure LfoState where
  phase : F32
  lastReset : Bool
  type : Word
deriving DecidableEq, Repr

/-- The lifecycle stage of an envelope; its codes are 0, 1 and 2, and code 3 is never written (R51, log 16). -/
inductive EnvStage where
  | idle | attack | decay
deriving DecidableEq, Repr

/-- The envelope's record (R51 to R54). -/
structure EnvState where
  stage : EnvStage
  elapsed : F32
  lastTrig : Bool
  currentValue : F32
deriving DecidableEq, Repr

/-- The clock's record (R55 to R57). -/
structure ClkState where
  counter : BitVec 32
  sub : BitVec 3
  high : Bool
deriving DecidableEq, Repr

/-- The sequencer's record (R58, R59). -/
structure SeqState where
  index : BitVec 3
  lastTrig : Bool
  lastReset : Bool
deriving DecidableEq, Repr

/-- One slot: its ALLOC bit (R45) and its state record (R44). -/
structure Slot (α : Type) where
  alloc : Bool
  data : α
deriving DecidableEq, Repr

/-- The initial records of R60. -/
def OscState.init : OscState := { masterPhase := 0, slavePhase := 0, type := 0 }

@[inherit_doc OscState.init]
def LfoState.init : LfoState := { phase := 0, lastReset := false, type := 2 }

@[inherit_doc OscState.init]
def EnvState.init : EnvState :=
  { stage := .idle, elapsed := 0, lastTrig := false, currentValue := 0 }

@[inherit_doc OscState.init]
def ClkState.init : ClkState := { counter := 0, sub := 0, high := false }

@[inherit_doc OscState.init]
def SeqState.init : SeqState := { index := 0, lastTrig := false, lastReset := false }

/-- The written bytes of the sample memory by address, in rising order of address (log 5).
An address that is not listed has not been written since power-on reset. -/
abbrev Memory := List Host.Cell

/-- The width of a host access. DESIGN CHOICE (logs 10, 12): the host has accesses of 8, 16 and 32 bits and no wider one,
so the refusal 10_state.md R40 asks for is given to the first two widths, and to unaligned offsets. -/
inductive Width where
  | byte | half | word
deriving DecidableEq, Repr

/-- What the host does to the block, one operation at a time (00_scope.md R13, 20_memory.md R83, log 1). -/
inductive HostOp where
  /-- Read the register at a byte offset of the window (10_state.md R30). -/
  | regRead (offset : BitVec 8) (width : Width)
  /-- Write a value to the register at a byte offset of the window; at offset 0 this issues a command (R31). -/
  | regWrite (offset : BitVec 8) (width : Width) (value : Word)
  /-- Read the sample memory at a byte address (20_memory.md R70). -/
  | memRead (addr : Nat) (width : Width)
  /-- Write the sample memory at a byte address (R70). -/
  | memWrite (addr : Nat) (width : Width) (value : Word)
  /-- Read at a host address, in whichever window it falls (R70, R73). -/
  | busRead (addr : Nat) (width : Width)
  /-- Write at a host address, in whichever window it falls (R70, R73). -/
  | busWrite (addr : Nat) (width : Width) (value : Word)
  /-- Power-on reset (70_reset_and_hazards.md R300, R301). -/
  | powerOnReset
deriving DecidableEq, Repr

/-- The whole state. The last four fields are the model's own (logs 1, 3, 4, 5). -/
structure State where
  /-- STATUS. -/
  status : Status
  /-- ARG[0] to ARG[15] (10_state.md R38). -/
  args : Vector Word 16
  /-- The slot arrays of R44; N_OSC to N_SEQ are their lengths (log 8). -/
  osc : List (Slot OscState)
  lfo : List (Slot LfoState)
  env : List (Slot EnvState)
  clk : List (Slot ClkState)
  seq : List (Slot SeqState)
  /-- MEM_BYTES (00_scope.md R11). -/
  memBytes : Nat
  /-- The sample memory (20_memory.md R70). -/
  mem : Memory
  /-- How many power-on resets there have been since `State.reset`: names the draws of R72 (log 5). -/
  powerOns : Nat
  /-- The next unused NaN draw of 00_scope.md R21 (log 4). -/
  draws : Nat
  /-- The data the newest host read returned (log 3). -/
  readData : Word
  /-- The host operations still to come, oldest first (log 1). -/
  host : List HostOp
deriving DecidableEq, Repr

/-- Where a step stops: no command does, only a host access the spec gives no meaning. -/
inductive Fault where
  /-- A host access to the sample memory reaches past MEM_BYTES (log 11). Raised by `hostMemRead` and
  `hostMemWrite`. Safe: the block has no byte there (20_memory.md R70). -/
  | sampleMemoryAbsent
deriving DecidableEq, Repr

/-- What the model gives no meaning to. -/
inductive Refusal where
  /-- An instruction that has no meaning yet. Raised by `exec` alone. Safe. -/
  | notModelled (mnemonic : String)
  /-- "register access not 32-bit aligned" (10_state.md R40): the spec asks a model to refuse it by name.
  Raised by `hostRegRead` and `hostRegWrite`. Safe. -/
  | registerAccessNot32BitAligned
  /-- A host address in neither window of the block: no access to this block (log 9).
  Raised by `hostBusTarget`. Safe. -/
  | hostAddressOutsideBlock
  /-- A host address in both windows: the platform has laid them over each other (log 9).
  Raised by `hostBusTarget`. Safe. -/
  | hostWindowsOverlap
deriving DecidableEq, Repr

/-- STATUS after power-on reset (R61). -/
def Status.init : Status := { err := false, lastOk := false, cause := 0, faultArg := 0 }

/-- A free slot holding its unit's initial record (R45, R60, R300). -/
def Slot.free {α : Type} (init : α) : Slot α := { alloc := false, data := init }

/-- The state power-on reset leaves, for given parameters (R300). -/
def State.powerOn (p : Params) : State :=
  { status := Status.init
    args := Vector.replicate 16 0
    osc := List.replicate p.nOsc (Slot.free OscState.init)
    lfo := List.replicate p.nLfo (Slot.free LfoState.init)
    env := List.replicate p.nEnv (Slot.free EnvState.init)
    clk := List.replicate p.nClk (Slot.free ClkState.init)
    seq := List.replicate p.nSeq (Slot.free SeqState.init)
    memBytes := p.memBytes
    mem := []
    powerOns := 0
    draws := 0
    readData := 0
    host := [] }

/-- The machine right after reset, with the default parameters of R11. -/
def State.reset : State := State.powerOn Params.default

/-- The parameters the state carries. -/
def State.params (s : State) : Params :=
  { nOsc := s.osc.length, nLfo := s.lfo.length, nEnv := s.env.length
    nClk := s.clk.length, nSeq := s.seq.length, memBytes := s.memBytes }

end Sys2Proof.Machine
end

