-- ==== Sys2Proof/Machine/Flags.lean ====
section
/-! DEFINITION. STATUS: the cause codes and every way its fields change (10_state.md R32 to R35, 60_exceptions.md R270, R276). -/

namespace Sys2Proof.Machine

/-- The causes a command is refused with (R270). -/
inductive Cause where
  | illegalOp | illegalUnit | unsupported | badSlot | slotFree | slotBusy
  | nullBuffer | misaligned | outOfRange
deriving DecidableEq, Repr

/-- The code of a cause, as STATUS.CAUSE records it (R270). -/
def Cause.code : Cause → BitVec 8
  | .illegalOp => 1
  | .illegalUnit => 2
  | .unsupported => 3
  | .badSlot => 4
  | .slotFree => 5
  | .slotBusy => 6
  | .nullBuffer => 7
  | .misaligned => 8
  | .outOfRange => 9

/-- The causes that record FAULT_ARG (R270, R276). -/
def Cause.namesArg : Cause → Bool
  | .illegalOp => false
  | .illegalUnit => false
  | .unsupported => false
  | .badSlot => false
  | .slotFree => false
  | .slotBusy => false
  | .nullBuffer => true
  | .misaligned => true
  | .outOfRange => true

/-- The cause a word that is no command is refused with (30_encoding.md R97, R98). -/
def causeOf : DecodeError → Cause
  | .illegalOp => .illegalOp
  | .illegalUnit => .illegalUnit
  | .unsupported => .unsupported

/-- STATUS as the host reads it: its four fields in their bits, 0 in the reserved ones (R32 to R35). -/
def Status.word (t : Status) : Word :=
  (0 : BitVec 8) ++ t.faultArg ++ t.cause ++ (0 : BitVec 6) ++ BitVec.ofBool t.lastOk ++ BitVec.ofBool t.err

/-- STATUS after a completed command (41_lifecycle_commands.md R141). -/
def Status.completed (t : Status) : Status :=
  { t with lastOk := true, cause := 0, faultArg := 0 }

/-- STATUS after a command refused with cause `c` and ARG index `k` (R276); it reads nothing of STATUS (R278). -/
def Status.refused (_ : Status) (c : Cause) (k : Nat) : Status :=
  { err := true, lastOk := false, cause := c.code
    faultArg := if c.namesArg then BitVec.ofNat 8 k else 0 }

/-- STATUS after a host write: bit 0 set clears ERR, every other bit is ignored (R32, R35). -/
def Status.hostWrite (t : Status) (v : Word) : Status :=
  { t with err := t.err && !v.getLsbD 0 }

end Sys2Proof.Machine
end

