-- ==== Sys2Proof/Machine/Ops.lean ====
section
/-! DEFINITION. The named operations over the sample memory, the argument registers, the slots and STATUS. -/

namespace Sys2Proof.Machine

/-! ## Sample memory -/

/-- The canonical form of a memory: addresses strictly rising. An unlisted address holds no written byte,
so no entry can equal what it reads as (log 5). -/
abbrev Memory.wf (m : Memory) : Prop := m.Pairwise fun x y => x.1 < y.1

/-- The byte written at an address since power-on reset, if one was. -/
def Memory.find (m : Memory) (a : Nat) : Option Byte :=
  match m with
  | [] => none
  | (b, v) :: rest => if a = b then some v else Memory.find rest a

/-- The byte at an address; a byte nothing has written is a draw (20_memory.md R72, log 5). -/
def Memory.byteAt (epoch : Nat) (m : Memory) (a : Nat) : Byte :=
  match Memory.find m a with
  | some v => v
  | none => Config.powerOnByte epoch a

/-- Write one byte, keeping the canonical form. -/
def Memory.setByte (m : Memory) (a : Nat) (v : Byte) : Memory :=
  match m with
  | [] => [(a, v)]
  | (b, w) :: rest =>
    if a < b then (a, v) :: (b, w) :: rest
    else if a = b then (a, v) :: rest
    else (b, w) :: Memory.setByte rest a v

/-- `n` bytes from an address on as one number, the lowest address lowest (R74, R76). -/
def Memory.readLE (epoch : Nat) (m : Memory) (a : Nat) (n : Nat) : Nat :=
  match n with
  | 0 => 0
  | n + 1 => (Memory.byteAt epoch m a).toNat + 256 * Memory.readLE epoch m (a + 1) n

/-- Write a number as `n` bytes from an address on, the low byte at the lowest address (R75, R76). -/
def Memory.writeLE (m : Memory) (a : Nat) (n : Nat) (v : Nat) : Memory :=
  match n with
  | 0 => m
  | n + 1 => Memory.writeLE (Memory.setByte m a (BitVec.ofNat 8 v)) (a + 1) n (v / 256)

/-- `MemRead(a, 4)` (R74). -/
def Memory.read32 (epoch : Nat) (m : Memory) (a : Nat) : Word :=
  BitVec.ofNat 32 (Memory.readLE epoch m a 4)

/-- `MemWrite(a, 4, v)` (R75). -/
def Memory.write32 (m : Memory) (a : Nat) (v : Word) : Memory :=
  Memory.writeLE m a 4 v.toNat

/-- The byte of the sample memory at an address. -/
def State.readByte (s : State) (a : Nat) : Byte := Memory.byteAt s.powerOns s.mem a

/-- `MemRead(a, 4)` in a state. -/
def State.readWord (s : State) (a : Nat) : Word := Memory.read32 s.powerOns s.mem a

/-! ## Argument registers -/

/-- ARG[k] (10_state.md R38). -/
def State.arg (s : State) (k : Fin 16) : Word := s.args[k]

/-- Write ARG[k], all 32 bits (R38). -/
def State.setArg (s : State) (k : Fin 16) (v : Word) : State := { s with args := s.args.set k v }

/-! ## How a command ends -/

/-- The command completes (41_lifecycle_commands.md R141). -/
def State.complete (s : State) : State := { s with status := s.status.completed }

/-- The command is refused: `raise Refuse(c, k)` (00_scope.md R17, 60_exceptions.md R276). This is the block's
only exception. It writes STATUS and nothing else, and there is no return from it (R277). -/
def State.refuse (s : State) (c : Cause) (k : Nat) : State := { s with status := s.status.refused c k }

/-! ## Slots -/

/-- How to reach the slot array of one unit in the state (10_state.md R44). -/
structure SlotArray (α : Type) where
  get : State → List (Slot α)
  set : State → List (Slot α) → State

/-- OSC[0 .. N_OSC-1]. -/
def oscArray : SlotArray OscState := { get := State.osc, set := fun s l => { s with osc := l } }
/-- LFO[0 .. N_LFO-1]. -/
def lfoArray : SlotArray LfoState := { get := State.lfo, set := fun s l => { s with lfo := l } }
/-- ENV[0 .. N_ENV-1]. -/
def envArray : SlotArray EnvState := { get := State.env, set := fun s l => { s with env := l } }
/-- CLK[0 .. N_CLK-1]. -/
def clkArray : SlotArray ClkState := { get := State.clk, set := fun s l => { s with clk := l } }
/-- SEQ[0 .. N_SEQ-1]. -/
def seqArray : SlotArray SeqState := { get := State.seq, set := fun s l => { s with seq := l } }

/-- Replace slot `k` of an array. -/
def SlotArray.put {α : Type} (A : SlotArray α) (s : State) (k : Nat) (sl : Slot α) : State :=
  A.set s ((A.get s).set k sl)

/-- Checks 4 and 5 of 60_exceptions.md R271 for a command that needs an allocated slot: its record. -/
def SlotArray.allocated {α : Type} (A : SlotArray α) (s : State) (k : Nat) : Except Cause α :=
  match (A.get s)[k]? with
  | none => .error .badSlot
  | some sl => if sl.alloc then .ok sl.data else .error .slotFree

/-- Checks 4 and 5 of R271 for CREATE: the cause it is refused with, if any. -/
def SlotArray.createRefusal {α : Type} (A : SlotArray α) (s : State) (k : Nat) : Option Cause :=
  match (A.get s)[k]? with
  | none => some .badSlot
  | some sl => if sl.alloc then some .slotBusy else none

/-- CREATE of slot `k` (41_lifecycle_commands.md R142). -/
def createSlot {α : Type} (A : SlotArray α) (init : α) (k : Nat) (s : State) : State :=
  match A.createRefusal s k with
  | some c => s.refuse c 0
  | none => (A.put s k { alloc := true, data := init }).complete

/-- DESTROY of slot `k`; the record is left as it is (R146, log 14). -/
def destroySlot {α : Type} (A : SlotArray α) (k : Nat) (s : State) : State :=
  match A.allocated s k with
  | .error c => s.refuse c 0
  | .ok r => (A.put s k { alloc := false, data := r }).complete

/-- A command that only rewrites the record of the allocated slot `k`. -/
def updateSlot {α : Type} (A : SlotArray α) (f : α → α) (k : Nat) (s : State) : State :=
  match A.allocated s k with
  | .error c => s.refuse c 0
  | .ok r => (A.put s k { alloc := true, data := f r }).complete

end Sys2Proof.Machine
end

