-- ==== Sys2Proof/Machine/Operands.lean ====
section
/-! DEFINITION. The operands of commands: the argument maps of 30_encoding.md R100 to R107 and the buffer
checks of 20_memory.md R78, R79 and 60_exceptions.md R271. -/

namespace Sys2Proof.Machine

/-- `s32(w)`: a word as two's complement (00_scope.md R14). -/
def s32 (w : Word) : Int := w.toInt

/-- `length`, ARG[0] as int32 (30_encoding.md R101). -/
def State.length (s : State) : Int := s32 (s.arg 0)

/-- A binary32 operand, all 32 bits of ARG[k] (R100). -/
def State.argF (s : State) (k : Fin 16) : F32 := s.arg k

/-- A buffer operand, ARG[k] as an unsigned byte address, 0 meaning absent (R100). -/
def State.argAddr (s : State) (k : Fin 16) : Nat := (s.arg k).toNat

/-- What a buffer operand is for. -/
inductive BufferRole where
  | requiredOutput | optionalOutput | optionalInput | requiredTable
deriving DecidableEq, Repr

/-- A buffer operand of a PROCESS command: which ARG register, and what for. -/
structure BufferOperand where
  arg : Fin 16
  role : BufferRole
deriving DecidableEq, Repr

/-- Whether a null address refuses the command (20_memory.md R78). -/
def BufferRole.required : BufferRole → Bool
  | .requiredOutput => true
  | .optionalOutput => false
  | .optionalInput => false
  | .requiredTable => true

/-- How many bytes the buffer occupies in a command of length `n` (R79). -/
def BufferRole.size (r : BufferRole) (n : Nat) : Nat :=
  match r with
  | .requiredOutput => 4 * n
  | .optionalOutput => 4 * n
  | .optionalInput => 4 * n
  | .requiredTable => 32

/-- Checks 6 to 8 of 60_exceptions.md R271 on one buffer at address `a`, over the mathematical integers. -/
def checkBuffer (memBytes n a : Nat) (r : BufferRole) : Option Cause :=
  if a = 0 then (if r.required then some .nullBuffer else none)
  else if a % 4 ≠ 0 then some .misaligned
  else if memBytes < a + r.size n then some .outOfRange
  else none

/-- Checks 6 to 8 on the buffers of a command in the order given: the first that fails, and its ARG index. -/
def checkBuffers (s : State) (n : Nat) (bufs : List BufferOperand) : Option (Cause × Nat) :=
  match bufs with
  | [] => none
  | b :: rest =>
    match checkBuffer s.memBytes n (s.argAddr b.arg) b.role with
    | some c => some (c, b.arg.val)
    | none => checkBuffers s n rest

/-- The buffers of PROCESS.OSC, in ascending ARG index (R102, R170). -/
def oscBuffers : List BufferOperand :=
  [⟨8, .requiredOutput⟩, ⟨12, .optionalInput⟩, ⟨13, .optionalInput⟩]

/-- The buffers of PROCESS.LFO (R103, R190). -/
def lfoBuffers : List BufferOperand :=
  [⟨8, .requiredOutput⟩, ⟨9, .optionalOutput⟩, ⟨12, .optionalInput⟩, ⟨13, .optionalInput⟩]

/-- The buffers of PROCESS.ENV (R104, R210). -/
def envBuffers : List BufferOperand :=
  [⟨8, .requiredOutput⟩, ⟨9, .optionalOutput⟩, ⟨12, .optionalInput⟩]

/-- The buffers of PROCESS.CLK (R105, R230). -/
def clkBuffers : List BufferOperand :=
  [⟨8, .requiredOutput⟩, ⟨9, .optionalOutput⟩]

/-- The buffers of PROCESS.SEQ (R106, R250). -/
def seqBuffers : List BufferOperand :=
  [⟨8, .requiredOutput⟩, ⟨12, .optionalInput⟩, ⟨13, .optionalInput⟩, ⟨14, .requiredTable⟩]

/-- The base addresses of a command's sample buffers, 0 where a buffer is absent or is no operand of the unit
(R78, R107). -/
structure Ports where
  out8 : Nat
  out9 : Nat
  in12 : Nat
  in13 : Nat
deriving DecidableEq, Repr

/-- The base address of ARG[k] when the unit has that buffer, else 0. -/
def portOf (s : State) (bufs : List BufferOperand) (k : Fin 16) : Nat :=
  if bufs.any (fun b => decide (b.arg = k)) then s.argAddr k else 0

/-- The sample buffers of a command. -/
def portsOf (s : State) (bufs : List BufferOperand) : Ports :=
  { out8 := portOf s bufs 8, out9 := portOf s bufs 9, in12 := portOf s bufs 12, in13 := portOf s bufs 13 }

end Sys2Proof.Machine
end

