-- ==== Sys2Proof/Machine/Block.lean ====
section
/-! DEFINITION. The framework every PROCESS command shares (41_lifecycle_commands.md R153 to R159). -/

namespace Sys2Proof.Machine

/-- What one Step of a unit gives: the new record and the output samples for ARG[8] and ARG[9] (R154). -/
structure StepResult (α : Type) where
  data : α
  out8 : F32
  out9 : F32
deriving DecidableEq, Repr

/-- Step of a unit, its block-rate parameters already applied: the first NaN draw of the sample, the record,
and the input samples of ARG[12] and ARG[13] (R154). -/
abbrev UnitStep (α : Type) := Nat → α → F32 → F32 → StepResult α

/-- How many NaN draws a sample is given; no Step has more operations (log 4). -/
def drawsPerSample : Nat := 16

/-- What a PROCESS command carries from sample to sample. -/
structure BlockState (α : Type) where
  data : α
  mem : Memory
  draws : Nat
deriving DecidableEq, Repr

/-- Input sample `i` of the buffer at `base`; an absent one reads +0.0 (20_memory.md R80, R78). -/
def inputSample (epoch : Nat) (m : Memory) (base i : Nat) : F32 :=
  if base = 0 then zeroF else Memory.read32 epoch m (base + 4 * i)

/-- Write output sample `i` of the buffer at `base`; an absent one is not written (R80, R78). -/
def outputSample (m : Memory) (base i : Nat) (y : F32) : Memory :=
  if base = 0 then m else Memory.write32 m (base + 4 * i) y

/-- Iteration `i`: all inputs read, Step, outputs written in ascending ARG index (R154, R155). -/
def runSample {α : Type} (epoch : Nat) (p : Ports) (step : UnitStep α) (i : Nat) (b : BlockState α) :
    BlockState α :=
  let r := step b.draws b.data (inputSample epoch b.mem p.in12 i) (inputSample epoch b.mem p.in13 i)
  { data := r.data
    mem := outputSample (outputSample b.mem p.out8 i r.out8) p.out9 i r.out9
    draws := b.draws + drawsPerSample }

/-- Iterations `i` to `i + n - 1`, in order (R154, 00_scope.md R18). -/
def runBlock {α : Type} (epoch : Nat) (p : Ports) (step : UnitStep α) (n i : Nat) (b : BlockState α) :
    BlockState α :=
  match n with
  | 0 => b
  | n + 1 => runBlock epoch p step n (i + 1) (runSample epoch p step i b)

/-- The effect of a PROCESS command that has passed every check and has `n` samples. -/
def processEffect {α : Type} (A : SlotArray α) (bufs : List BufferOperand) (step : UnitStep α)
    (k n : Nat) (r : α) (s : State) : State :=
  let b := runBlock s.powerOns (portsOf s bufs) step n 0 { data := r, mem := s.mem, draws := s.draws }
  (A.put { s with mem := b.mem, draws := b.draws } k { alloc := true, data := b.data }).complete

/-- PROCESS of slot `k` (R154): the slot checks, nothing more when length <= 0 (R156), the buffer checks, then
the samples. `step` already holds the block-rate parameters and what BlockInit computes. -/
def processSlot {α : Type} (A : SlotArray α) (bufs : List BufferOperand) (step : UnitStep α)
    (k : Nat) (s : State) : State :=
  match A.allocated s k with
  | .error c => s.refuse c 0
  | .ok r =>
    if s.length ≤ 0 then s.complete
    else
      match checkBuffers s s.length.toNat bufs with
      | some (c, a) => s.refuse c a
      | none => processEffect A bufs step k s.length.toNat r s

end Sys2Proof.Machine
end

