-- ==== Sys2Proof/Machine/Lifecycle.lean ====
section
/-! DEFINITION. NOP, CREATE, DESTROY and SET_TYPE (41_lifecycle_commands.md R140 to R150). -/

namespace Sys2Proof.Machine

/-- What a command answers: no command stops, so always a next state. -/
abbrev CommandOutcome := Host.Outcome State Fault Refusal

/-- NOP (R140); UNIT and SLOT are ignored (30_encoding.md R99). -/
def execNop (_unit _slot : Nat) (s : State) : CommandOutcome := .next s.complete

/-- CREATE.OSC (R142). -/
def execCreateOsc (slot : Nat) (s : State) : CommandOutcome :=
  .next (createSlot oscArray OscState.init slot s)

/-- CREATE.LFO (R142). -/
def execCreateLfo (slot : Nat) (s : State) : CommandOutcome :=
  .next (createSlot lfoArray LfoState.init slot s)

/-- CREATE.ENV (R142). -/
def execCreateEnv (slot : Nat) (s : State) : CommandOutcome :=
  .next (createSlot envArray EnvState.init slot s)

/-- CREATE.CLK (R142). -/
def execCreateClk (slot : Nat) (s : State) : CommandOutcome :=
  .next (createSlot clkArray ClkState.init slot s)

/-- CREATE.SEQ (R142). -/
def execCreateSeq (slot : Nat) (s : State) : CommandOutcome :=
  .next (createSlot seqArray SeqState.init slot s)

/-- DESTROY.OSC (R146). -/
def execDestroyOsc (slot : Nat) (s : State) : CommandOutcome := .next (destroySlot oscArray slot s)

/-- DESTROY.LFO (R146). -/
def execDestroyLfo (slot : Nat) (s : State) : CommandOutcome := .next (destroySlot lfoArray slot s)

/-- DESTROY.ENV (R146). -/
def execDestroyEnv (slot : Nat) (s : State) : CommandOutcome := .next (destroySlot envArray slot s)

/-- DESTROY.CLK (R146). -/
def execDestroyClk (slot : Nat) (s : State) : CommandOutcome := .next (destroySlot clkArray slot s)

/-- DESTROY.SEQ (R146). -/
def execDestroySeq (slot : Nat) (s : State) : CommandOutcome := .next (destroySlot seqArray slot s)

/-- SET_TYPE.OSC: every 32-bit value of ARG[0] is stored (R149). -/
def execSetTypeOsc (slot : Nat) (s : State) : CommandOutcome :=
  .next (updateSlot oscArray (fun r => { r with type := s.arg 0 }) slot s)

/-- SET_TYPE.LFO: every 32-bit value of ARG[0] is stored (R150). -/
def execSetTypeLfo (slot : Nat) (s : State) : CommandOutcome :=
  .next (updateSlot lfoArray (fun r => { r with type := s.arg 0 }) slot s)

end Sys2Proof.Machine
end

