-- ==== Sys2Proof/Machine/Clk.lean ====
section
/-! DEFINITION. PROCESS.CLK: the tempo clock with its sub-divider (45_clock.md). -/

namespace Sys2Proof.Machine

/-- The block constants of R231. -/
structure ClkConsts where
  /-- N, the samples from beat to beat. -/
  period : Nat
  /-- pw, the pulse width. -/
  pulse : F32
deriving DecidableEq, Repr

/-- BlockInit_CLK (R231), from sampleRate and bpm. Uses draws `d` to `d + 3`; a NaN among them ends in no
state and no output, only in a comparison that fails. -/
def clkConsts (d : Nat) (sampleRate bpm : F32) : ClkConsts :=
  let beatsPerSecond := div32 d bpm sixtyF
  { period := truncSatU32 (div32 (d + 2) (div32 (d + 1) sampleRate beatsPerSecond) fourF)
    pulse := mul32 (d + 3) centiF sampleRate }

/-- The counter and the beat (R233). The sum is a mathematical integer (00_scope.md R14, log 15). -/
def clkBeat (n : Nat) (st : ClkState) : ClkState :=
  if n ≤ st.counter.toNat + 1 then { counter := 0, high := true, sub := st.sub + 1 }
  else { st with counter := BitVec.ofNat 32 (st.counter.toNat + 1) }

/-- The gate (R234). -/
def clkGate (pulse : F32) (st : ClkState) : ClkState :=
  if gt32 (cvtU32F32 st.counter.toNat) pulse then { st with high := false } else st

/-- Step_CLK: R233 to R236 in that order; the clock has no inputs. -/
def clkStep (c : ClkConsts) : UnitStep ClkState := fun _ st _ _ =>
  let final := clkGate c.pulse (clkBeat c.period st)
  { data := final
    out8 := if final.high then oneF else zeroF
    out9 := if final.high && decide (final.sub = 0) then oneF else zeroF }

/-- PROCESS.CLK (R230): sampleRate in ARG[1], bpm in ARG[2] (30_encoding.md R105). -/
def execProcessClk (slot : Nat) (s : State) : CommandOutcome :=
  .next (processSlot clkArray clkBuffers (clkStep (clkConsts s.draws (s.argF 1) (s.argF 2))) slot s)

end Sys2Proof.Machine
end

