-- ==== Sys2Proof/Machine/Env.lean ====
section
/-! DEFINITION. PROCESS.ENV: the attack/decay envelope (44_envelope.md). -/

namespace Sys2Proof.Machine

/-- The block-rate parameters of PROCESS.ENV (30_encoding.md R104). -/
structure EnvParams where
  sampleRate : F32
  attack : F32
  decay : F32
deriving DecidableEq, Repr

/-- They are read once, from ARG[1] to ARG[3] (R104, R153). -/
def envParams (s : State) : EnvParams :=
  { sampleRate := s.argF 1, attack := s.argF 2, decay := s.argF 3 }

/-- The code of a stage (10_state.md R51). -/
def EnvStage.code : EnvStage → BitVec 2
  | .idle => 0
  | .attack => 1
  | .decay => 2

/-- The trigger edge of R211, with the edge memory written back. -/
def envTrigger (st : EnvState) (t : F32) : EnvState :=
  if risingEdge st.lastTrig t then
    { st with stage := .attack, elapsed := zeroF, lastTrig := level t }
  else { st with lastTrig := level t }

/-- The Attack stage (R213): the new record and v. Uses draws `d` and `d + 1`. -/
def envAttack (d : Nat) (p : EnvParams) (dt : F32) (st : EnvState) : EnvState × F32 :=
  let elapsed := add32 d st.elapsed dt
  if ge32 elapsed p.attack then ({ st with stage := .decay, elapsed := zeroF }, oneF)
  else ({ st with elapsed := elapsed }, div32 (d + 1) elapsed p.attack)

/-- The Decay stage (R214): the new record and v. Uses draws `d` to `d + 4`. -/
def envDecay (d : Nat) (p : EnvParams) (dt : F32) (st : EnvState) : EnvState × F32 :=
  let elapsed := add32 d st.elapsed dt
  let c := clampnn (sub32 (d + 2) oneF (div32 (d + 1) elapsed p.decay))
  if ge32 elapsed p.decay then ({ st with stage := .idle, elapsed := elapsed }, zeroF)
  else ({ st with elapsed := elapsed }, mul32 (d + 4) (mul32 (d + 3) c c) c)

/-- The dispatch of R212 on the stage as R211 leaves it; Idle changes nothing (R215). -/
def envStage (d : Nat) (p : EnvParams) (dt : F32) (st : EnvState) : EnvState × F32 :=
  match st.stage with
  | .idle => (st, st.currentValue)
  | .attack => envAttack d p dt st
  | .decay => envDecay d p dt st

/-- The combined phase of R217, from the record at the end of the sample. Uses draws `d` to `d + 2`. -/
def envPhase (d : Nat) (p : EnvParams) (st : EnvState) : F32 :=
  let total := add32 d p.attack p.decay
  clamp01 (match st.stage with
    | .idle => zeroF
    | .attack => div32 (d + 2) st.elapsed total
    | .decay => div32 (d + 2) (add32 (d + 1) p.attack st.elapsed) total)

/-- Step_ENV: R211 to R217 in the order of R218; `t` is the trigIn sample. -/
def envStep (p : EnvParams) : UnitStep EnvState := fun d st t _ =>
  let dt := div32 d oneF p.sampleRate
  let staged := envStage (d + 1) p dt (envTrigger st t)
  let final := { staged.1 with currentValue := clamp01 staged.2 }
  { data := final
    out8 := final.currentValue
    out9 := envPhase (d + 6) p final }

/-- PROCESS.ENV (R210). -/
def execProcessEnv (slot : Nat) (s : State) : CommandOutcome :=
  .next (processSlot envArray envBuffers (envStep (envParams s)) slot s)

end Sys2Proof.Machine
end

