-- ==== Sys2Proof/Machine/Lfo.lean ====
section
/-! DEFINITION. PROCESS.LFO: the low-frequency oscillator (43_lfo.md). -/

namespace Sys2Proof.Machine

/-- The block-rate parameters of PROCESS.LFO (30_encoding.md R103). -/
structure LfoParams where
  sampleRate : F32
  freqParam : F32
  gainParam : F32
deriving DecidableEq, Repr

/-- They are read once, from ARG[1] to ARG[3] (R103, R153). -/
def lfoParams (s : State) : LfoParams :=
  { sampleRate := s.argF 1, freqParam := s.argF 2, gainParam := s.argF 3 }

/-- freq of R192, from rateIn `q`. Uses draws `d` to `d + 3`. -/
def lfoFreq (d : Nat) (p : LfoParams) (q : F32) : F32 :=
  add32 (d + 3) (div32 (d + 1) (mul32 d p.freqParam p.freqParam) hundredF) (mul32 (d + 2) q hundredF)

/-- The advance and wrap of R193. Uses draws `d` to `d + 2`. -/
def lfoAdvance (d : Nat) (p : LfoParams) (freq phase : F32) : F32 :=
  let x := add32 (d + 1) phase (div32 d freq p.sampleRate)
  if ge32 x oneF || lt32 x zeroF then wrap32 (d + 2) x else x

/-- The signal output of R194. Uses draws `d` to `d + 4`. -/
def lfoSignal (d : Nat) (p : LfoParams) (t : Word) (phase : F32) : F32 :=
  if waveformOf t = .silence then zeroF
  else mul32 (d + 4) (wave d t phase halfF) (div32 (d + 3) p.gainParam thousandF)

/-- Step_LFO: R191 to R195 in that order; `q` is the rateIn sample and `r` the resetIn sample. -/
def lfoStep (p : LfoParams) : UnitStep LfoState := fun d st q r =>
  let start := if risingEdge st.lastReset r then zeroF else st.phase
  let phase := lfoAdvance (d + 4) p (lfoFreq d p q) start
  { data := { st with phase := phase, lastReset := level r }
    out8 := lfoSignal (d + 7) p st.type phase
    out9 := phase }

/-- PROCESS.LFO (R190). -/
def execProcessLfo (slot : Nat) (s : State) : CommandOutcome :=
  .next (processSlot lfoArray lfoBuffers (lfoStep (lfoParams s)) slot s)

end Sys2Proof.Machine
end

