-- ==== Sys2Proof/Machine/Osc.lean ====
section
/-! DEFINITION. PROCESS.OSC: the dual-phase oscillator with hard sync (42_oscillator.md). -/

namespace Sys2Proof.Machine

/-- The block-rate parameters of PROCESS.OSC (30_encoding.md R102). -/
structure OscParams where
  sampleRate : F32
  pitch : F32
  pwm : F32
  sync : F32
deriving DecidableEq, Repr

/-- They are read once, from ARG[1] to ARG[4] (R102, R153). -/
def oscParams (s : State) : OscParams :=
  { sampleRate := s.argF 1, pitch := s.argF 2, pwm := s.argF 3, sync := s.argF 4 }

/-- finalFreq of R171, from freqIn `f` and shiftIn `sh`. Uses draws `d` to `d + 4`. -/
def oscFinalFreq (d : Nat) (p : OscParams) (f sh : F32) : F32 :=
  let baseHz := mul32 d f fiveHundredF
  let exponent := div32 (d + 3) (add32 (d + 2) p.pitch (mul32 (d + 1) sh twentyFourF)) twelveF
  clampnn (add32 (d + 4) baseHz (exp2F32 exponent))

/-- The master advance of R172. Uses draws `d` and `d + 1`. -/
def oscMasterAdvance (d : Nat) (p : OscParams) (finalFreq master : F32) : F32 :=
  add32 (d + 1) master (div32 d finalFreq p.sampleRate)

/-- The slave advance and wrap of R174 and R175, from the slave phase as R173 leaves it.
Uses draws `d` to `d + 2`. -/
def oscSlaveAdvance (d : Nat) (p : OscParams) (slaveFreq slave : F32) : F32 :=
  let sl := add32 (d + 1) slave (div32 d slaveFreq p.sampleRate)
  if ge32 sl oneF || lt32 sl zeroF then wrap32 (d + 2) sl else sl

/-- Step_OSC: R171 to R176 in that order. -/
def oscStep (p : OscParams) : UnitStep OscState := fun d r f sh =>
  let finalFreq := oscFinalFreq d p f sh
  let slaveFreq := mul32 (d + 5) finalFreq p.sync
  let m := oscMasterAdvance (d + 6) p finalFreq r.masterPhase
  let synced := ge32 m oneF
  let master := if synced then wrap32 (d + 8) m else m
  let slave := oscSlaveAdvance (d + 9) p slaveFreq (if synced then zeroF else r.slavePhase)
  { data := { r with masterPhase := master, slavePhase := slave }
    out8 := wave (d + 12) r.type slave p.pwm
    out9 := zeroF }

/-- PROCESS.OSC (R170). -/
def execProcessOsc (slot : Nat) (s : State) : CommandOutcome :=
  .next (processSlot oscArray oscBuffers (oscStep (oscParams s)) slot s)

end Sys2Proof.Machine
end

