-- ==== Sys2Proof/Machine/Seq.lean ====
section
/-! DEFINITION. PROCESS.SEQ: the 8-step sequencer (46_sequencer.md). -/

namespace Sys2Proof.Machine

/-- The latched step table T of R251. -/
abbrev StepTable := Vector F32 8

/-- BlockInit_SEQ: the 8 words at ARG[14], read once (R251). -/
def latchTable (s : State) : StepTable :=
  Vector.ofFn fun j : Fin 8 => s.readWord (s.argAddr 14 + 4 * j.val)

/-- The entry of the table at a 3-bit index. -/
def tableEntry (t : StepTable) (index : BitVec 3) : F32 := t[index.toFin]

/-- Reset, then advance, then the edge memories (R252 to R255); `t` is the trigIn sample, `r` the resetIn sample. -/
def seqAdvance (st : SeqState) (t r : F32) : SeqState :=
  let index := if risingEdge st.lastReset r then 0 else st.index
  { index := if risingEdge st.lastTrig t then index + 1 else index
    lastTrig := level t
    lastReset := level r }

/-- Step_SEQ: R252 to R256 in that order. -/
def seqStep (table : StepTable) : UnitStep SeqState := fun d st t r =>
  let final := seqAdvance st t r
  { data := final
    out8 := div32 d (tableEntry table final.index) thousandF
    out9 := zeroF }

/-- PROCESS.SEQ (R250). -/
def execProcessSeq (slot : Nat) (s : State) : CommandOutcome :=
  .next (processSlot seqArray seqBuffers (seqStep (latchTable s)) slot s)

end Sys2Proof.Machine
end

