-- ==== Sys2Proof/Machine/Dispatch.lean ====
section
/-! DEFINITION. The meaning of every command, one arm per constructor of Instr. -/

namespace Sys2Proof.Machine

def exec (i : Instr) (s : State) : Host.Outcome State Fault Refusal :=
  match i with
  | .nop unit slot => Sys2Proof.Machine.execNop unit slot s
  | .createOsc slot => Sys2Proof.Machine.execCreateOsc slot s
  | .createLfo slot => Sys2Proof.Machine.execCreateLfo slot s
  | .createEnv slot => Sys2Proof.Machine.execCreateEnv slot s
  | .createClk slot => Sys2Proof.Machine.execCreateClk slot s
  | .createSeq slot => Sys2Proof.Machine.execCreateSeq slot s
  | .destroyOsc slot => Sys2Proof.Machine.execDestroyOsc slot s
  | .destroyLfo slot => Sys2Proof.Machine.execDestroyLfo slot s
  | .destroyEnv slot => Sys2Proof.Machine.execDestroyEnv slot s
  | .destroyClk slot => Sys2Proof.Machine.execDestroyClk slot s
  | .destroySeq slot => Sys2Proof.Machine.execDestroySeq slot s
  | .setTypeOsc slot => Sys2Proof.Machine.execSetTypeOsc slot s
  | .setTypeLfo slot => Sys2Proof.Machine.execSetTypeLfo slot s
  | .processOsc slot => Sys2Proof.Machine.execProcessOsc slot s
  | .processLfo slot => Sys2Proof.Machine.execProcessLfo slot s
  | .processEnv slot => Sys2Proof.Machine.execProcessEnv slot s
  | .processClk slot => Sys2Proof.Machine.execProcessClk slot s
  | .processSeq slot => Sys2Proof.Machine.execProcessSeq slot s

end Sys2Proof.Machine
end

