-- ==== Sys2Proof/Machine/HostAccess.lean ====
section
/-! DEFINITION. What each host operation does: the register window (10_state.md R30 to R40), host accesses to the
sample memory (20_memory.md R70, R76), host addresses (R73), and power-on reset (70_reset_and_hazards.md R300). -/

namespace Sys2Proof.Machine

/-! ## The register window -/

/-- CONFIG0 (R36). -/
def State.config0 (s : State) : Word :=
  BitVec.ofNat 8 (s.clk.length - 1) ++ BitVec.ofNat 8 (s.env.length - 1) ++
  BitVec.ofNat 8 (s.lfo.length - 1) ++ BitVec.ofNat 8 (s.osc.length - 1)

/-- CONFIG1 (R36). -/
def State.config1 (s : State) : Word := (0 : BitVec 24) ++ BitVec.ofNat 8 (s.seq.length - 1)

/-- CONFIG2 (R37). -/
def State.config2 (s : State) : Word := BitVec.ofNat 32 (s.memBytes / 4 - 1)

/-- A register of the window (R30). -/
inductive Register where
  | cmd | status | config0 | config1 | config2
  | arg (k : Fin 16)
  | reserved
deriving DecidableEq, Repr

/-- The register at a 4-byte aligned offset (R30). -/
def registerAt (offset : BitVec 8) : Register :=
  if offset = 0x00#8 then .cmd
  else if offset = 0x04#8 then .status
  else if offset = 0x08#8 then .config0
  else if offset = 0x0C#8 then .config1
  else if offset = 0x10#8 then .config2
  else if 64 ≤ offset.toNat ∧ offset.toNat < 128 then .arg (Fin.ofNat 16 ((offset.toNat - 64) / 4))
  else .reserved

/-- What a read of a register returns (R31 to R39). -/
def State.register (s : State) (r : Register) : Word :=
  match r with
  | .cmd => 0
  | .status => s.status.word
  | .config0 => s.config0
  | .config1 => s.config1
  | .config2 => s.config2
  | .arg k => s.arg k
  | .reserved => 0

/-- A write to CMD: the word is decoded and the command runs to its end, or is refused (R31, 30_encoding.md R97, R98). -/
def issueCommand (w : Word) (s : State) : CommandOutcome :=
  match decodeWord w with
  | .ok i => exec i s
  | .error e => .next (s.refuse (causeOf e) 0)

/-- A write of `v` to a register (R31, R32, R35 to R39). -/
def writeRegister (r : Register) (v : Word) (s : State) : CommandOutcome :=
  match r with
  | .cmd => issueCommand v s
  | .status => .next { s with status := s.status.hostWrite v }
  | .config0 => .next s
  | .config1 => .next s
  | .config2 => .next s
  | .arg k => .next (s.setArg k v)
  | .reserved => .next s

/-- A register access the spec defines: 32 bits wide at a 4-byte aligned offset (R40). -/
def registerAccessDefined (offset : BitVec 8) (w : Width) : Bool :=
  decide (w = .word) && decide (offset.toNat % 4 = 0)

/-- A host read of the window (R30, R40). -/
def hostRegRead (offset : BitVec 8) (w : Width) (s : State) : CommandOutcome :=
  if registerAccessDefined offset w then .next { s with readData := s.register (registerAt offset) }
  else .refused .registerAccessNot32BitAligned

/-- A host write to the window (R30, R40). -/
def hostRegWrite (offset : BitVec 8) (w : Width) (v : Word) (s : State) : CommandOutcome :=
  if registerAccessDefined offset w then writeRegister (registerAt offset) v s
  else .refused .registerAccessNot32BitAligned

/-! ## The sample memory, from the host -/

/-- How many bytes an access moves. -/
def Width.bytes : Width → Nat
  | .byte => 1
  | .half => 2
  | .word => 4

/-- A host read of the sample memory, little-endian (20_memory.md R70, R76, logs 10, 11). -/
def hostMemRead (a : Nat) (w : Width) (s : State) : CommandOutcome :=
  if s.memBytes < a + w.bytes then .fault .sampleMemoryAbsent
  else .next { s with readData := BitVec.ofNat 32 (Memory.readLE s.powerOns s.mem a w.bytes) }

/-- A host write to the sample memory: the low bytes of the value, little-endian (R70, R76, logs 10, 11). -/
def hostMemWrite (a : Nat) (w : Width) (v : Word) (s : State) : CommandOutcome :=
  if s.memBytes < a + w.bytes then .fault .sampleMemoryAbsent
  else .next { s with mem := Memory.writeLE s.mem a w.bytes v.toNat }

/-! ## Host addresses -/

/-- What a host address reaches. -/
inductive BusTarget where
  | window (offset : BitVec 8)
  | memory (addr : Nat)
  | stop (r : Refusal)
deriving DecidableEq, Repr

/-- The host address lies in the register window, 256 bytes at REG_BASE (R73). -/
def inWindow (a : Nat) : Bool := decide (Config.regBase ≤ a) && decide (a < Config.regBase + 256)

/-- The host address lies in the sample memory, MEM_BYTES bytes at MEM_BASE (R70, R73). -/
def inSampleMemory (s : State) (a : Nat) : Bool :=
  decide (Config.memBase ≤ a) && decide (a < Config.memBase + s.memBytes)

/-- Where a host address leads (R70, R73, log 9). DESIGN CHOICE (log 22): an access of several bytes goes where its
first byte leads, whatever windows its other bytes lie in. -/
def hostBusTarget (s : State) (a : Nat) : BusTarget :=
  if inWindow a then
    (if inSampleMemory s a then .stop .hostWindowsOverlap
     else .window (BitVec.ofNat 8 (a - Config.regBase)))
  else if inSampleMemory s a then .memory (a - Config.memBase)
  else .stop .hostAddressOutsideBlock

/-- A read at a host address. -/
def hostBusRead (a : Nat) (w : Width) (s : State) : CommandOutcome :=
  match hostBusTarget s a with
  | .window off => hostRegRead off w s
  | .memory m => hostMemRead m w s
  | .stop r => .refused r

/-- A write at a host address. -/
def hostBusWrite (a : Nat) (w : Width) (v : Word) (s : State) : CommandOutcome :=
  match hostBusTarget s a with
  | .window off => hostRegWrite off w v s
  | .memory m => hostMemWrite m w v s
  | .stop r => .refused r

/-! ## Power-on reset -/

/-- Power-on reset: the state of R300 for the same parameters, with fresh draws for the sample memory (R72).
What is the host's and not the block's stays (log 13). -/
def powerOnReset (s : State) : State :=
  { State.powerOn s.params with
    powerOns := s.powerOns + 1
    draws := s.draws
    readData := s.readData
    host := s.host }

/-- One host operation. -/
def hostAccess (op : HostOp) (s : State) : CommandOutcome :=
  match op with
  | .regRead off w => hostRegRead off w s
  | .regWrite off w v => hostRegWrite off w v s
  | .memRead a w => hostMemRead a w s
  | .memWrite a w v => hostMemWrite a w v s
  | .busRead a w => hostBusRead a w s
  | .busWrite a w v => hostBusWrite a w v s
  | .powerOnReset => .next (powerOnReset s)

end Sys2Proof.Machine
end

