-- ==== Sys2Proof/Machine/Step.lean ====
section
/-! DEFINITION. One step of the machine: the next host operation (20_memory.md R83). -/

namespace Sys2Proof.Machine

/-- The oldest pending host operation is done whole, a command to its end (10_state.md R31, 20_memory.md R83).
With none pending the block is idle and holds its state (60_exceptions.md R289, log 2). -/
def step (s : State) : Host.Outcome State Fault Refusal :=
  match s.host with
  | [] => .next s
  | op :: rest => hostAccess op { s with host := rest }

/-- `s` with a command word as the next host operation: a write of the word to CMD. The block fetches nothing
(10_state.md R42), so this is how a command comes to run (log 1). -/
def State.withFetchWord (s : State) (nbits w : Nat) : State :=
  { s with host := .regWrite 0x00#8 .word (BitVec.ofNat 32 (w % 2 ^ nbits)) :: s.host }

end Sys2Proof.Machine
end

