-- ==== Sys2Proof/Machine/HostAsm.lean ====
section
/-! DEFINITION. The host assembly syntax and its pseudo-instructions (30_encoding.md R108, R109): what each line
makes the host do. The text is a list of characters; the block itself reads none of it. -/

namespace Sys2Proof.Machine

/-- A value as R108 writes it. -/
inductive AsmValue where
  /-- A hexadecimal word. -/
  | hex (w : Nat)
  /-- A decimal integer. -/
  | int (z : Int)
  /-- A binary32 literal: `digits` with `places` of them after the point. -/
  | float (negative : Bool) (digits places : Nat)
deriving DecidableEq, Repr

/-- The word a value is stored as: two's complement, or the nearest binary32, ties to even (R108). DESIGN CHOICE
(log 20): a hexadecimal or decimal value that does not fit 32 bits is taken modulo 2^32. -/
def AsmValue.word : AsmValue → Word
  | .hex w => BitVec.ofNat 32 w
  | .int z => BitVec.ofInt 32 z
  | .float negative digits places => pack32 negative (roundMag (digits * 2 ^ 149) (10 ^ places))

/-- A line of a host program. The last three forms are the pseudo-instructions of R109. -/
inductive AsmLine where
  | nop
  | create (u : UnitKind) (s : Nat)
  | destroy (u : UnitKind) (s : Nat)
  | setType (u : UnitKind) (s : Nat)
  | process (u : UnitKind) (s : Nat)
  | cmd (w : AsmValue)
  | wrarg (k : Fin 16) (v : AsmValue)
  | wrmem (a : AsmValue) (v : AsmValue)
  | rdmem (a : AsmValue)
  | rdstatus
  | clrerr
  | setTypeTo (u : UnitKind) (s : Nat) (t : AsmValue)
  | recreate (u : UnitKind) (s : Nat)
  | run (u : UnitKind) (s : Nat) (assign : List (Fin 16 × AsmValue))
deriving DecidableEq, Repr

/-- The command word of `op u, s` (R110). It also gives the words of the unsupported SET_TYPE forms (R98). -/
def commandWord (op : Nat) (u : UnitKind) (s : Nat) : Word :=
  BitVec.ofNat 32 (s * 256 + u.code * 16 + op)

/-- A write of a command word to CMD. -/
def issueOp (w : Word) : HostOp := .regWrite 0x00#8 .word w

/-- A write of a value to ARG[k]. -/
def argOp (k : Fin 16) (v : AsmValue) : HostOp := .regWrite (BitVec.ofNat 8 (64 + 4 * k.val)) .word v.word

/-- The host operations a line stands for, in order (R108, R109). -/
def AsmLine.expand : AsmLine → List HostOp
  | .nop => [issueOp 0]
  | .create u s => [issueOp (commandWord 1 u s)]
  | .destroy u s => [issueOp (commandWord 2 u s)]
  | .setType u s => [issueOp (commandWord 3 u s)]
  | .process u s => [issueOp (commandWord 4 u s)]
  | .cmd w => [issueOp w.word]
  | .wrarg k v => [argOp k v]
  | .wrmem a v => [.memWrite a.word.toNat .word v.word]
  | .rdmem a => [.memRead a.word.toNat .word]
  | .rdstatus => [.regRead 0x04#8 .word]
  | .clrerr => [.regWrite 0x04#8 .word 1]
  | .setTypeTo u s t => [argOp 0 t, issueOp (commandWord 3 u s)]
  | .recreate u s => [issueOp (commandWord 2 u s), issueOp (commandWord 1 u s)]
  | .run u s assign => assign.map (fun a => argOp a.1 a.2) ++ [issueOp (commandWord 4 u s)]

/-! ## Text -/

/-- The value of a digit in a base up to 16. -/
def digitOf (base : Nat) (c : Char) : Option Nat :=
  let n := c.toNat
  let v := if 48 ≤ n ∧ n ≤ 57 then n - 48
    else if 97 ≤ n ∧ n ≤ 102 then n - 87
    else if 65 ≤ n ∧ n ≤ 70 then n - 55
    else 16
  if v < base then some v else none

/-- A number in a base, after the digits already read. -/
def digitsFrom (base acc : Nat) : List Char → Option Nat
  | [] => some acc
  | c :: rest =>
    match digitOf base c with
    | none => none
    | some v => digitsFrom base (acc * base + v) rest

/-- A number in a base, with at least one digit. -/
def numberOf (base : Nat) : List Char → Option Nat
  | [] => none
  | c :: rest => digitsFrom base 0 (c :: rest)

/-- The characters before the first `stop`, and those after it if there is one. -/
def cutAt (stop : Char) : List Char → List Char × Option (List Char)
  | [] => ([], none)
  | c :: rest => if c = stop then ([], some rest) else (c :: (cutAt stop rest).1, (cutAt stop rest).2)

/-- An unsigned decimal with an optional point: its digits, and how many stand after the point. DESIGN CHOICE (log 23):
the point may stand first or last, at least one digit is needed, and there is no exponent. -/
def decimalOf (cs : List Char) : Option (Nat × Nat) :=
  match cutAt '.' cs with
  | (whole, none) => (numberOf 10 whole).map fun n => (n, 0)
  | (whole, some frac) => (numberOf 10 (whole ++ frac)).map fun n => (n, frac.length)

/-- A value without its sign; `negative` tells whether one stood before it. -/
def unsignedValueOf (negative : Bool) (cs : List Char) : Option AsmValue :=
  if cs.getLast? = some 'f' then
    (decimalOf cs.dropLast).map fun d => .float negative d.1 d.2
  else
    (numberOf 10 cs).map fun n => .int (if negative then -(n : Int) else (n : Int))

/-- A value (R108). -/
def valueOf : List Char → Option AsmValue
  | '0' :: 'x' :: cs => (numberOf 16 cs).map .hex
  | '-' :: cs => unsignedValueOf true cs
  | cs => unsignedValueOf false cs

/-- The unit names of R108. -/
def unitOf : List Char → Option UnitKind
  | ['O', 'S', 'C'] => some .osc
  | ['L', 'F', 'O'] => some .lfo
  | ['E', 'N', 'V'] => some .env
  | ['C', 'L', 'K'] => some .clk
  | ['S', 'E', 'Q'] => some .seq
  | _ => none

/-- An ARG index. DESIGN CHOICE (log 21): it is written in unsigned decimal only, 0 to 15. -/
def argIndexOf (cs : List Char) : Option (Fin 16) :=
  match numberOf 10 cs with
  | none => none
  | some n => if h : n < 16 then some ⟨n, h⟩ else none

/-- An operand name of RUN, or an ARG index (R109). -/
def argNameOf : List Char → Option (Fin 16)
  | ['l', 'e', 'n'] => some 0
  | ['s', 'r'] => some 1
  | ['p', '2'] => some 2
  | ['p', '3'] => some 3
  | ['p', '4'] => some 4
  | ['o', '8'] => some 8
  | ['o', '9'] => some 9
  | ['i', '1', '2'] => some 12
  | ['i', '1', '3'] => some 13
  | ['i', '1', '4'] => some 14
  | cs => argIndexOf cs

/-- `k=v` of RUN. -/
def assignOf (cs : List Char) : Option (Fin 16 × AsmValue) :=
  match cutAt '=' cs with
  | (_, none) => none
  | (name, some v) =>
    match argNameOf name, valueOf v with
    | some k, some w => some (k, w)
    | _, _ => none

/-- All of a list, or nothing. -/
def allOf {α β : Type} (f : α → Option β) : List α → Option (List β)
  | [] => some []
  | x :: xs =>
    match f x, allOf f xs with
    | some y, some ys => some (y :: ys)
    | _, _ => none

/-- The words of a line: blanks and commas stand between them. -/
def wordsOf (current : List Char) : List Char → List (List Char)
  | [] => if current.isEmpty then [] else [current.reverse]
  | c :: rest =>
    if c = ' ' ∨ c = ',' ∨ c = '\t' then
      (if current.isEmpty then wordsOf [] rest else current.reverse :: wordsOf [] rest)
    else wordsOf (c :: current) rest

/-- A unit name and a slot number. DESIGN CHOICE (log 21): the number is written in unsigned decimal only, 0 to 255. -/
def unitAndSlot (u s : List Char) : Option (UnitKind × Nat) :=
  match unitOf u, numberOf 10 s with
  | some u, some s => if s < 256 then some (u, s) else none
  | _, _ => none

/-- A line given as its words; none where it has no form of R108 or R109. -/
def lineOfWords : List (List Char) → Option AsmLine
  | [['N', 'O', 'P']] => some .nop
  | [['R', 'D', 'S', 'T', 'A', 'T', 'U', 'S']] => some .rdstatus
  | [['C', 'L', 'R', 'E', 'R', 'R']] => some .clrerr
  | [['C', 'M', 'D'], w] => (valueOf w).map .cmd
  | [['R', 'D', 'M', 'E', 'M'], a] => (valueOf a).map .rdmem
  | [['C', 'R', 'E', 'A', 'T', 'E'], u, s] => (unitAndSlot u s).map fun x => .create x.1 x.2
  | [['D', 'E', 'S', 'T', 'R', 'O', 'Y'], u, s] => (unitAndSlot u s).map fun x => .destroy x.1 x.2
  | [['S', 'E', 'T', 'T', 'Y', 'P', 'E'], u, s] => (unitAndSlot u s).map fun x => .setType x.1 x.2
  | [['P', 'R', 'O', 'C', 'E', 'S', 'S'], u, s] => (unitAndSlot u s).map fun x => .process x.1 x.2
  | [['R', 'E', 'C', 'R', 'E', 'A', 'T', 'E'], u, s] => (unitAndSlot u s).map fun x => .recreate x.1 x.2
  | [['W', 'R', 'A', 'R', 'G'], k, v] =>
    match argIndexOf k, valueOf v with
    | some k, some v => some (.wrarg k v)
    | _, _ => none
  | [['W', 'R', 'M', 'E', 'M'], a, v] =>
    match valueOf a, valueOf v with
    | some a, some v => some (.wrmem a v)
    | _, _ => none
  | [['S', 'E', 'T', '_', 'T', 'Y', 'P', 'E'], u, s, t] =>
    match unitAndSlot u s, valueOf t with
    | some x, some t => some (.setTypeTo x.1 x.2 t)
    | _, _ => none
  | ['R', 'U', 'N'] :: u :: s :: rest =>
    match unitAndSlot u s, allOf assignOf rest with
    | some x, some l => some (.run x.1 x.2 l)
    | _, _ => none
  | _ => none

/-- The host operations of one line of text. A comment starts at `;`; a line with nothing before it is empty. -/
def assembleLine (line : List Char) : Option (List HostOp) :=
  match wordsOf [] (cutAt ';' line).1 with
  | [] => some []
  | ws => (lineOfWords ws).map AsmLine.expand

/-- The host operations of a program, line by line (R108). -/
def assemble : List (List Char) → Option (List HostOp)
  | [] => some []
  | line :: rest =>
    match assembleLine line, assemble rest with
    | some ops, some more => some (ops ++ more)
    | _, _ => none

end Sys2Proof.Machine
end

