-- ==== Sys2Proof/Safety.lean ====
section
/-! DEFINITION. What claims about whole runs are stated in: the invariant of the block's state, and the host
operations on which a step does not stop. -/

namespace Sys2Proof.Machine

/-- A binary32 value in [0, 1). -/
def inUnitInterval (x : F32) : Prop := le32 zeroF x = true ∧ lt32 x oneF = true

/-- A binary32 value in [0, 1], such as ENV.currentValue (10_state.md R54). -/
def clampedToOne (x : F32) : Prop := le32 zeroF x = true ∧ le32 x oneF = true

/-- A binary32 value in [-1, 1] (40_leaf_utilities.md R136). -/
def withinOne (x : F32) : Prop := le32 minusOneF x = true ∧ le32 x oneF = true

/-- ENV.currentValue is clamped (10_state.md R62), and is +0.0 in Idle (44_envelope.md R215). -/
structure EnvState.Legal (e : EnvState) : Prop where
  clamped : clampedToOne e.currentValue
  idleIsZero : e.stage = .idle → e.currentValue = zeroF

/-- The counter never reaches 2^32 - 1 (45_clock.md R243). -/
def ClkState.Legal (c : ClkState) : Prop := c.counter.toNat < 2 ^ 32 - 1

/-- The ARG registers that hold a buffer address for some unit (30_encoding.md R102 to R106). -/
def isBufferArg (k : BitVec 8) : Prop := k = 8 ∨ k = 9 ∨ k = 12 ∨ k = 13 ∨ k = 14

/-- What STATUS can hold: CAUSE is at most 9 and 0 after a completed command, FAULT_ARG names a buffer operand
for causes 7, 8 and 9 and is 0 for every other (10_state.md R33, R34, 60_exceptions.md R270). -/
structure Status.Legal (t : Status) : Prop where
  causeBound : t.cause.toNat ≤ 9
  completed : t.lastOk = true → t.cause = 0
  faultArgZero : t.cause.toNat < 7 → t.faultArg = 0
  faultArgBuffer : 7 ≤ t.cause.toNat → isBufferArg t.faultArg

/-- The invariant of the block: legal parameters, a canonical sample memory within MEM_BYTES, and legal STATUS,
envelopes and clocks. It says nothing of the free values or of the pending host operations. -/
structure State.Inv (s : State) : Prop where
  params : s.params.legal
  memCanonical : Memory.wf s.mem
  memInside : ∀ c ∈ s.mem, c.1 < s.memBytes
  status : s.status.Legal
  env : ∀ sl ∈ s.env, sl.data.Legal
  clk : ∀ sl ∈ s.clk, sl.data.Legal

/-- The host access is one the spec defines: an aligned 32-bit register access (10_state.md R40), or a
sample-memory access within MEM_BYTES (20_memory.md R70). -/
def BusTarget.Defined (memBytes : Nat) (w : Width) : BusTarget → Prop
  | .window off => registerAccessDefined off w = true
  | .memory a => a + w.bytes ≤ memBytes
  | .stop _ => False

/-- The host operations on which the machine does not stop. -/
def HostOp.Defined (s : State) : HostOp → Prop
  | .regRead off w => (BusTarget.window off).Defined s.memBytes w
  | .regWrite off w _ => (BusTarget.window off).Defined s.memBytes w
  | .memRead a w => (BusTarget.memory a).Defined s.memBytes w
  | .memWrite a w _ => (BusTarget.memory a).Defined s.memBytes w
  | .busRead a w => (hostBusTarget s a).Defined s.memBytes w
  | .busWrite a w _ => (hostBusTarget s a).Defined s.memBytes w
  | .powerOnReset => True

end Sys2Proof.Machine
end

