-- ==== Sys2Proof/Certificates/Slice0/Obligations.lean ====
section
/-! DEFINITION. The statements for the provers. The helpers under `Sys2Proof.Claims` restate what the rules say, apart
from the model's own definitions of it. A statement that names NaN draws (`s.draws + k`) holds for every draw. -/

open Sys2Proof Sys2Proof.Machine

namespace Sys2Proof.Claims

/-- STATUS after a command that completed: LAST_OK 1, CAUSE 0, FAULT_ARG 0, ERR as it was (R141). -/
def done (t : Status) : Status := { err := t.err, lastOk := true, cause := 0, faultArg := 0 }

/-- STATUS after a command refused with a cause and a FAULT_ARG (R276). -/
def turnedAway (cause faultArg : Nat) : Status :=
  { err := true, lastOk := false, cause := BitVec.ofNat 8 cause, faultArg := BitVec.ofNat 8 faultArg }

/-- The state of R300 for given slot counts and memory size, but for the sample memory and the model's own fields. -/
structure IsPowerOnState (t : State) (nOsc nLfo nEnv nClk nSeq memBytes : Nat) : Prop where
  status : t.status = { err := false, lastOk := false, cause := 0, faultArg := 0 }
  args : ∀ k : Fin 16, t.arg k = 0x00000000#32
  osc : t.osc = List.replicate nOsc { alloc := false, data := { masterPhase := 0, slavePhase := 0, type := 0 } }
  lfo : t.lfo = List.replicate nLfo { alloc := false, data := { phase := 0, lastReset := false, type := 2 } }
  env : t.env = List.replicate nEnv
    { alloc := false, data := { stage := .idle, elapsed := 0, lastTrig := false, currentValue := 0 } }
  clk : t.clk = List.replicate nClk { alloc := false, data := { counter := 0, sub := 0, high := false } }
  seq : t.seq = List.replicate nSeq { alloc := false, data := { index := 0, lastTrig := false, lastReset := false } }
  memBytes : t.memBytes = memBytes

/-- The ALLOC bit of a slot, if the unit has that slot (R45). -/
def allocBit (u : UnitKind) (s : State) (k : Nat) : Option Bool :=
  match u with
  | .osc => s.osc[k]?.map Slot.alloc
  | .lfo => s.lfo[k]?.map Slot.alloc
  | .env => s.env[k]?.map Slot.alloc
  | .clk => s.clk[k]?.map Slot.alloc
  | .seq => s.seq[k]?.map Slot.alloc

/-- The slot a command names: its unit and index. NOP names none. -/
def namedSlot : Instr → Option (UnitKind × Nat)
  | .nop _ _ => none
  | .createOsc k => some (.osc, k)
  | .createLfo k => some (.lfo, k)
  | .createEnv k => some (.env, k)
  | .createClk k => some (.clk, k)
  | .createSeq k => some (.seq, k)
  | .destroyOsc k => some (.osc, k)
  | .destroyLfo k => some (.lfo, k)
  | .destroyEnv k => some (.env, k)
  | .destroyClk k => some (.clk, k)
  | .destroySeq k => some (.seq, k)
  | .setTypeOsc k => some (.osc, k)
  | .setTypeLfo k => some (.lfo, k)
  | .processOsc k => some (.osc, k)
  | .processLfo k => some (.lfo, k)
  | .processEnv k => some (.env, k)
  | .processClk k => some (.clk, k)
  | .processSeq k => some (.seq, k)

/-- Slot `k` of unit `u` is the same in both states: ALLOC bit and record. -/
def sameSlot (u : UnitKind) (k : Nat) (s t : State) : Prop :=
  match u with
  | .osc => t.osc[k]? = s.osc[k]?
  | .lfo => t.lfo[k]? = s.lfo[k]?
  | .env => t.env[k]? = s.env[k]?
  | .clk => t.clk[k]? = s.clk[k]?
  | .seq => t.seq[k]? = s.seq[k]?

/-- A buffer operand as the argument maps give it (R102 to R106): ARG index, whether it is required, whether it is the
step table. -/
structure Buffer where
  arg : Fin 16
  required : Bool
  table : Bool

/-- The buffers of each unit, in ascending ARG index (R170, R190, R210, R230, R250). -/
def unitBuffers : UnitKind → List Buffer
  | .osc => [⟨8, true, false⟩, ⟨12, false, false⟩, ⟨13, false, false⟩]
  | .lfo => [⟨8, true, false⟩, ⟨9, false, false⟩, ⟨12, false, false⟩, ⟨13, false, false⟩]
  | .env => [⟨8, true, false⟩, ⟨9, false, false⟩, ⟨12, false, false⟩]
  | .clk => [⟨8, true, false⟩, ⟨9, false, false⟩]
  | .seq => [⟨8, true, false⟩, ⟨12, false, false⟩, ⟨13, false, false⟩, ⟨14, true, true⟩]

/-- The bytes a buffer occupies in a command of `n` samples (R79). -/
def Buffer.bytes (b : Buffer) (n : Nat) : Nat := if b.table then 32 else 4 * n

/-- The buffer passes the checks of R78 and R79. -/
def Buffer.Good (b : Buffer) (s : State) (n : Nat) : Prop :=
  let a := (s.arg b.arg).toNat
  (a = 0 ∧ b.required = false) ∨ (a ≠ 0 ∧ a % 4 = 0 ∧ a + b.bytes n ≤ s.memBytes)

/-- The buffer fails with this cause and no earlier one (R271, checks 6 to 8). -/
def Buffer.FailsWith (b : Buffer) (s : State) (n cause : Nat) : Prop :=
  let a := (s.arg b.arg).toNat
  (cause = 7 ∧ a = 0 ∧ b.required = true) ∨
  (cause = 8 ∧ a ≠ 0 ∧ a % 4 ≠ 0) ∨
  (cause = 9 ∧ a ≠ 0 ∧ a % 4 = 0 ∧ s.memBytes < a + b.bytes n)

/-- Every buffer of the unit passes its checks. -/
def BuffersGood (u : UnitKind) (s : State) (n : Nat) : Prop := ∀ b ∈ unitBuffers u, b.Good s n

/-- Sample `i` of the input buffer in ARG[k]: +0.0 when absent, else the word at a + 4i (R78, R80). -/
def input (s : State) (k : Fin 16) (i : Nat) : F32 :=
  if s.arg k = 0 then 0x00000000#32 else s.readWord ((s.arg k).toNat + 4 * i)

/-- The address of the word at ARG[k] + 4i. -/
def outAddr (s : State) (k : Fin 16) (i : Nat) : Nat := (s.arg k).toNat + 4 * i

/-- The sample memory with the optional output of ARG[9] written, when it is present (R78, R155). -/
def withOut9 (s : State) (m : Memory) (y : F32) : Memory :=
  if s.arg 9 = 0 then m else Memory.write32 m (outAddr s 9 0) y

/-- The record and the state after the first `n` samples of a PROCESS.SEQ whose table is `table`, from `s` and `r`
(R252 to R256). Inputs are read from the memory as the earlier samples left it (R155); the table is a function, so no
output can change it. -/
def afterSeqSamples (table : BitVec 3 → F32) (s : State) (r : SeqState) : Nat → SeqState × State
  | 0 => (r, s)
  | i + 1 =>
    let q := (afterSeqSamples table s r i).1
    let t := (afterSeqSamples table s r i).2
    let resetHigh := ge32 (input t 13 i) 0x3F000000#32
    let trigHigh := ge32 (input t 12 i) 0x3F000000#32
    let index0 := if q.lastReset = false ∧ resetHigh = true then 0 else q.index
    let index := if q.lastTrig = false ∧ trigHigh = true then index0 + 1 else index0
    ({ index := index, lastTrig := trigHigh, lastReset := resetHigh },
     { t with
       mem := Memory.write32 t.mem (outAddr t 8 i) (div32 t.draws (table index) 0x447A0000#32)
       draws := t.draws + 16 })

/-- The state in which a command runs on only the first `n` samples of its buffers. -/
def firstPart (s : State) (n : Nat) : State := s.setArg 0 (BitVec.ofNat 32 n)

/-- ARG[k] moved past the first `n` samples, if the buffer is present. -/
def movePast (n : Nat) (s : State) (k : Fin 16) : State :=
  if s.arg k = 0 then s else s.setArg k (s.arg k + BitVec.ofNat 32 (4 * n))

/-- The state in which a command runs on the `m` samples after the first `n`. -/
def secondPart (s : State) (n m : Nat) (bufs : List (Fin 16)) : State :=
  (bufs.foldl (movePast n) s).setArg 0 (BitVec.ofNat 32 m)

/-- Two PROCESS commands, one on the first `n` samples and one on the next `m`, leave what one command on all of them
leaves: the slots, the sample memory, STATUS and the count of draws (R315). -/
def SplitsInvisibly (cmd : Instr) (bufs : List (Fin 16)) (s : State) (n m : Nat) : Prop :=
  ∃ t1 t2 t, exec cmd (firstPart s n) = .next t1 ∧ exec cmd (secondPart t1 n m bufs) = .next t2 ∧
    exec cmd s = .next t ∧
    t2.osc = t.osc ∧ t2.lfo = t.lfo ∧ t2.env = t.env ∧ t2.clk = t.clk ∧ t2.seq = t.seq ∧
    t2.mem = t.mem ∧ t2.status = t.status ∧ t2.draws = t.draws

/-- The ARG registers the refusal checks of a command may read (R272). -/
def checkedArgs : Instr → List (Fin 16)
  | .processOsc _ => 0 :: (unitBuffers .osc).map Buffer.arg
  | .processLfo _ => 0 :: (unitBuffers .lfo).map Buffer.arg
  | .processEnv _ => 0 :: (unitBuffers .env).map Buffer.arg
  | .processClk _ => 0 :: (unitBuffers .clk).map Buffer.arg
  | .processSeq _ => 0 :: (unitBuffers .seq).map Buffer.arg
  | _ => []

/-- The units of 2^-149 that a finite encoding without its sign stands for. -/
def unitsOf (m : Nat) : Nat := units32 (pack32 false m)

/-- `m` is the encoding, without its sign, of num/den units rounded to nearest, ties to even: infinity from
2^128 - 2^103 on, else a finite encoding such that none is nearer, and even where another is as near (R19). -/
def RoundsTo (num den m : Nat) : Prop :=
  if (2 ^ 25 - 1) * 2 ^ 252 * den ≤ num then m = 255 * 2 ^ 23
  else m < 255 * 2 ^ 23 ∧ ∀ y, y < 255 * 2 ^ 23 →
    |(num : Int) - unitsOf m * den| ≤ |(num : Int) - unitsOf y * den| ∧
    (|(num : Int) - unitsOf m * den| = |(num : Int) - unitsOf y * den| → y = m ∨ m % 2 = 0)

end Sys2Proof.Claims

open Sys2Proof.Claims

/-! ## Reset -/

/-- The state after reset: R60, R61, R300, and the CONFIG registers of R36, R37. That `State.reset` has the default
parameters of R11, 8 slots of each unit and 65536 bytes, is the model's choice (log 8). -/
def Obligations.ResetStateIsTheSpecifiedOne : Prop :=
  IsPowerOnState State.reset 8 8 8 8 8 65536 ∧
  State.reset.register .config0 = 0x07070707#32 ∧ State.reset.register .config1 = 0x00000007#32 ∧
  State.reset.register .config2 = 0x00003FFF#32 ∧
  State.reset.register .status = 0x00000000#32

/-- Power-on reset replaces the block's whole state, whatever it was (R300, R301). The sample memory is drawn anew
(R72), and the host's own operations go on (log 13). -/
def Obligations.PowerOnResetReplacesTheWholeState : Prop :=
  ∀ (s : State) (rest : List HostOp), s.host = .powerOnReset :: rest →
    ∃ t, step s = .next t ∧
      IsPowerOnState t s.osc.length s.lfo.length s.env.length s.clk.length s.seq.length s.memBytes ∧
      (∀ a, t.readByte a = Config.powerOnByte (s.powerOns + 1) a) ∧ t.host = rest

/-! ## Steps, decoding and encoding -/

/-- R31: a 32-bit write of a word to CMD runs the command it decodes to, and a read of CMD returns 0 and does
nothing else. Host operations stand in a list, and read data in a field (logs 1, 3). -/
def Obligations.StepRunsTheDecodedCommand : Prop :=
  ∀ (s : State) (rest : List HostOp),
    (∀ w i, s.host = .regWrite 0x00#8 .word w :: rest → decodeWord w = .ok i →
      step s = exec i { s with host := rest }) ∧
    (s.host = .regRead 0x00#8 .word :: rest → step s = .next { s with host := rest, readData := 0x00000000#32 })

/-- Between commands the block is idle and holds its state (R289, log 2). -/
def Obligations.IdleBlockHoldsItsState : Prop :=
  ∀ s : State, s.host = [] → step s = .next s

/-- R94, R97, R98: a reserved or unsupported word written to CMD is refused with cause 1, 2 or 3, and nothing but
STATUS changes. -/
def Obligations.ReservedWordsAreRefusedWithTheirCause : Prop :=
  ∀ (s : State) (w : Word) (rest : List HostOp), s.host = .regWrite 0x00#8 .word w :: rest →
    let op := (w.extractLsb' 0 4).toNat
    let unit := (w.extractLsb' 4 4).toNat
    let rsv := w.extractLsb' 16 16
    let refusedWith := fun cause => Host.Outcome.next { s with host := rest, status := turnedAway cause 0 }
    ((rsv ≠ 0 ∨ 5 ≤ op) → step s = refusedWith 1) ∧
    (rsv = 0 → 1 ≤ op → op ≤ 4 → 5 ≤ unit → step s = refusedWith 2) ∧
    (rsv = 0 → op = 3 → 2 ≤ unit → unit ≤ 4 → step s = refusedWith 3)

/-- R96: a word that matches a row of the opcode map decodes to that row's command, every word matches at most one
row, and a word matching no row decodes to none. -/
def Obligations.DecoderFollowsTheOpcodeMap : Prop :=
  (∀ w : Word, ∀ r ∈ opcodeMap, r.matches w = true →
    decodeWord w = .ok (r.instr (w.extractLsb' 4 4).toNat (w.extractLsb' 8 8).toNat)) ∧
  (∀ w : Word, (∀ r ∈ opcodeMap, r.matches w = false) → ∃ e, decodeWord w = .error e) ∧
  opcodeMap.Pairwise (fun r1 r2 => ∀ w : Word, ¬(r1.matches w = true ∧ r2.matches w = true))

/-- Decoding an encoded well-formed command gives it back, NOP with its ignored fields included. -/
def Obligations.DecodeOfEncodeIsTheCommand : Prop :=
  ∀ i : Instr, i.wellFormed = true → decodeWord (encode i) = .ok i

/-- A word that decodes is the encoding of what it decodes to, which is well formed: no bit of it is dropped. -/
def Obligations.EncodeOfDecodeIsTheWord : Prop :=
  ∀ (w : Word) (i : Instr), decodeWord w = .ok i → encode i = w ∧ i.wellFormed = true

/-- Words written out from R96 and R110 decode to what they stand for. -/
def Obligations.WrittenOutWordsDecode : Prop :=
  decodeWord 0x00000000#32 = .ok (.nop 0 0) ∧ decodeWord 0x0000FFF0#32 = .ok (.nop 15 255) ∧
  decodeWord 0x00000041#32 = .ok (.createSeq 0) ∧ decodeWord 0x00000211#32 = .ok (.createLfo 2) ∧
  decodeWord 0x00000002#32 = .ok (.destroyOsc 0) ∧ decodeWord 0x0000FF32#32 = .ok (.destroyClk 255) ∧
  decodeWord 0x00000013#32 = .ok (.setTypeLfo 0) ∧ decodeWord 0x00000314#32 = .ok (.processLfo 3) ∧
  decodeWord 0x00000144#32 = .ok (.processSeq 1) ∧ decodeWord 0x00000923#32 = .error .unsupported

/-! ## The register window -/

/-- R30, R36, R37, R39: what a 32-bit read at each aligned offset of the window returns; the read changes nothing else
but the field of log 3. -/
def Obligations.RegisterReadsReturnTheWindow : Prop :=
  ∀ (s : State) (off : BitVec 8) (rest : List HostOp), s.params.legal → s.host = .regRead off .word :: rest →
    let returns := fun v : Word => step s = .next { s with host := rest, readData := v }
    (off = 0x00#8 → returns 0x00000000#32) ∧
    (off = 0x04#8 → returns s.status.word) ∧
    (off = 0x08#8 → returns (BitVec.ofNat 32 ((s.osc.length - 1) + 2 ^ 8 * (s.lfo.length - 1) +
      2 ^ 16 * (s.env.length - 1) + 2 ^ 24 * (s.clk.length - 1)))) ∧
    (off = 0x0C#8 → returns (BitVec.ofNat 32 (s.seq.length - 1))) ∧
    (off = 0x10#8 → returns (BitVec.ofNat 32 (s.memBytes / 4 - 1))) ∧
    (∀ k : Fin 16, off.toNat = 0x40 + 4 * k.val → returns (s.arg k)) ∧
    (off.toNat % 4 = 0 → 0x14 ≤ off.toNat → off.toNat < 0x40 ∨ 0x80 ≤ off.toNat → returns 0x00000000#32)

/-- R32 to R35: the bits of STATUS as the host reads it. -/
def Obligations.StatusWordHasTheSpecifiedLayout : Prop :=
  ∀ t : Status, t.word.getLsbD 0 = t.err ∧ t.word.getLsbD 1 = t.lastOk ∧ t.word.extractLsb' 2 6 = 0 ∧
    t.word.extractLsb' 8 8 = t.cause ∧ t.word.extractLsb' 16 8 = t.faultArg ∧ t.word.extractLsb' 24 8 = 0

/-- R32, R35: a write to STATUS clears ERR when its bit 0 is 1, and has no other effect. -/
def Obligations.StatusWriteOnlyClearsErr : Prop :=
  ∀ (s : State) (v : Word) (rest : List HostOp), s.host = .regWrite 0x04#8 .word v :: rest →
    (v.getLsbD 0 = true → step s = .next { s with host := rest, status := { s.status with err := false } }) ∧
    (v.getLsbD 0 = false → step s = .next { s with host := rest })

/-- R38: a write to ARG[k] replaces all 32 bits and changes nothing else, whatever the host does next, and a read that
comes next returns them (log 3). -/
def Obligations.ArgRegistersHoldWhatIsWritten : Prop :=
  ∀ (s : State) (k : Fin 16) (off : BitVec 8) (v : Word) (rest : List HostOp), off.toNat = 0x40 + 4 * k.val →
    s.host = .regWrite off .word v :: rest →
    ∃ t, step s = .next t ∧ t.arg k = v ∧ (∀ j, j ≠ k → t.arg j = s.arg j) ∧
      t = { s with args := t.args, host := rest } ∧
      ∀ more, rest = .regRead off .word :: more → step t = .next { t with host := more, readData := v }

/-- R36, R37, R39: writes to CONFIG0, CONFIG1, CONFIG2 and to reserved offsets are ignored. -/
def Obligations.HardwiredAndReservedRegistersIgnoreWrites : Prop :=
  ∀ (s : State) (off : BitVec 8) (v : Word) (rest : List HostOp), off.toNat % 4 = 0 →
    (off = 0x08#8 ∨ off = 0x0C#8 ∨ off = 0x10#8 ∨ (0x14 ≤ off.toNat ∧ off.toNat < 0x40) ∨ 0x80 ≤ off.toNat) →
    s.host = .regWrite off .word v :: rest → step s = .next { s with host := rest }

/-- R40: a register access of another width or at an unaligned offset is refused by name. -/
def Obligations.UndefinedRegisterAccessIsRefused : Prop :=
  ∀ (s : State) (off : BitVec 8) (w : Width) (v : Word) (rest : List HostOp), (w ≠ .word ∨ off.toNat % 4 ≠ 0) →
    (s.host = .regRead off w :: rest → step s = .refused .registerAccessNot32BitAligned) ∧
    (s.host = .regWrite off w v :: rest → step s = .refused .registerAccessNot32BitAligned)

/-! ## The sample memory, from the host -/

/-- R70, R76: what the host writes stands in the memory little-endian, byte j at a + j holding bits 8j+7:8j; no other
byte and no other state changes. A word reads back as written. That the host may write bytes and halves, at any
address, is read from R76 (log 10). -/
def Obligations.HostWriteIsLittleEndian : Prop :=
  ∀ (s : State) (a : Nat) (w : Width) (v : Word) (rest : List HostOp), a + w.bytes ≤ s.memBytes →
    s.host = .memWrite a w v :: rest →
    ∃ t, step s = .next t ∧ t = { s with mem := t.mem, host := rest } ∧
      (∀ j, j < w.bytes → t.readByte (a + j) = v.extractLsb' (8 * j) 8) ∧
      (∀ b, b < a ∨ a + w.bytes ≤ b → t.readByte b = s.readByte b) ∧
      (w = .word → t.readWord a = v)

/-- R70, R76: a host read returns the bytes there, little-endian, above them zeros, and changes no byte (logs 3, 10). -/
def Obligations.HostReadReturnsTheBytes : Prop :=
  ∀ (s : State) (a : Nat) (w : Width) (rest : List HostOp), a + w.bytes ≤ s.memBytes →
    s.host = .memRead a w :: rest →
    ∃ t, step s = .next t ∧ t = { s with readData := t.readData, host := rest } ∧
      ∀ j, j < 4 → t.readData.extractLsb' (8 * j) 8 = if j < w.bytes then s.readByte (a + j) else 0

/-- A host access that reaches past MEM_BYTES stops with a fault: the model's own choice (log 11). -/
def Obligations.HostAccessPastTheMemoryFaults : Prop :=
  ∀ (s : State) (a : Nat) (w : Width) (v : Word) (rest : List HostOp), s.memBytes < a + w.bytes →
    (s.host = .memRead a w :: rest → step s = .fault .sampleMemoryAbsent) ∧
    (s.host = .memWrite a w v :: rest → step s = .fault .sampleMemoryAbsent)

/-- R30, R70, R73: the window is at REG_BASE and the sample memory at MEM_BASE, and an access at a host address is the
access to the register or the byte there. Two clauses are the model's choice: a host address in both windows is refused
by name (log 9), and an access of several bytes goes where its first byte leads, also where later bytes lie in another
window, in both or in none (log 22). -/
def Obligations.HostAddressesReachBothWindows : Prop :=
  ∀ (s : State) (w : Width) (v : Word) (rest : List HostOp),
    (∀ off : BitVec 8,
      let b := Config.regBase + off.toNat
      let inMemory := Config.memBase ≤ b ∧ b < Config.memBase + s.memBytes
      step { s with host := .busRead b w :: rest } =
        (if inMemory then .refused .hostWindowsOverlap else step { s with host := .regRead off w :: rest }) ∧
      step { s with host := .busWrite b w v :: rest } =
        (if inMemory then .refused .hostWindowsOverlap else step { s with host := .regWrite off w v :: rest })) ∧
    (∀ a, a < s.memBytes →
      let b := Config.memBase + a
      let inRegisters := Config.regBase ≤ b ∧ b < Config.regBase + 256
      step { s with host := .busRead b w :: rest } =
        (if inRegisters then .refused .hostWindowsOverlap else step { s with host := .memRead a w :: rest }) ∧
      step { s with host := .busWrite b w v :: rest } =
        (if inRegisters then .refused .hostWindowsOverlap else step { s with host := .memWrite a w v :: rest }))

/-! ## NOP, CREATE, DESTROY, SET_TYPE -/

/-- R140: NOP completes, whatever UNIT and SLOT hold, and has no other effect. -/
def Obligations.NopOnlyCompletes : Prop :=
  ∀ (u k : Nat) (s : State), exec (.nop u k) s = .next { s with status := done s.status }

/-- R142: CREATE of a free slot gives it its initial record (R60) and sets its ALLOC bit; nothing else changes but
STATUS. -/
def Obligations.CreateGivesTheInitialRecord : Prop :=
  ∀ (s : State) (k : Nat),
    (allocBit .osc s k = some false → exec (.createOsc k) s = .next { s with
      osc := s.osc.set k { alloc := true, data := { masterPhase := 0, slavePhase := 0, type := 0 } }
      status := done s.status }) ∧
    (allocBit .lfo s k = some false → exec (.createLfo k) s = .next { s with
      lfo := s.lfo.set k { alloc := true, data := { phase := 0, lastReset := false, type := 2 } }
      status := done s.status }) ∧
    (allocBit .env s k = some false → exec (.createEnv k) s = .next { s with
      env := s.env.set k
        { alloc := true, data := { stage := .idle, elapsed := 0, lastTrig := false, currentValue := 0 } }
      status := done s.status }) ∧
    (allocBit .clk s k = some false → exec (.createClk k) s = .next { s with
      clk := s.clk.set k { alloc := true, data := { counter := 0, sub := 0, high := false } }
      status := done s.status }) ∧
    (allocBit .seq s k = some false → exec (.createSeq k) s = .next { s with
      seq := s.seq.set k { alloc := true, data := { index := 0, lastTrig := false, lastReset := false } }
      status := done s.status })

/-- R146: DESTROY of an allocated slot clears its ALLOC bit; nothing else changes but STATUS. That the record stays is
one of the choices the spec leaves (log 14). -/
def Obligations.DestroyOnlyClearsAlloc : Prop :=
  ∀ (s : State) (k : Nat),
    (∀ r, s.osc[k]? = some { alloc := true, data := r } → exec (.destroyOsc k) s = .next { s with
      osc := s.osc.set k { alloc := false, data := r }, status := done s.status }) ∧
    (∀ r, s.lfo[k]? = some { alloc := true, data := r } → exec (.destroyLfo k) s = .next { s with
      lfo := s.lfo.set k { alloc := false, data := r }, status := done s.status }) ∧
    (∀ r, s.env[k]? = some { alloc := true, data := r } → exec (.destroyEnv k) s = .next { s with
      env := s.env.set k { alloc := false, data := r }, status := done s.status }) ∧
    (∀ r, s.clk[k]? = some { alloc := true, data := r } → exec (.destroyClk k) s = .next { s with
      clk := s.clk.set k { alloc := false, data := r }, status := done s.status }) ∧
    (∀ r, s.seq[k]? = some { alloc := true, data := r } → exec (.destroySeq k) s = .next { s with
      seq := s.seq.set k { alloc := false, data := r }, status := done s.status })

/-- R149, R150: SET_TYPE stores every 32-bit value of ARG[0] and leaves phases and edge memory alone. -/
def Obligations.SetTypeStoresArgZero : Prop :=
  ∀ (s : State) (k : Nat),
    (∀ r, s.osc[k]? = some { alloc := true, data := r } → exec (.setTypeOsc k) s = .next { s with
      osc := s.osc.set k { alloc := true, data := { r with type := s.arg 0 } }, status := done s.status }) ∧
    (∀ r, s.lfo[k]? = some { alloc := true, data := r } → exec (.setTypeLfo k) s = .next { s with
      lfo := s.lfo.set k { alloc := true, data := { r with type := s.arg 0 } }, status := done s.status })

/-- R93, R143, R316: a slot the unit does not have gives cause 4, CREATE of an allocated slot cause 6, and any other
command on a free slot cause 5; nothing but STATUS changes. A slot index of 256 or more, which no word encodes, is
refused with cause 4 too: the model's choice (log 18). -/
def Obligations.SlotRefusalsNameTheirCause : Prop :=
  ∀ (s : State) (u : UnitKind) (k : Nat),
    let refusedWith := fun cause => Host.Outcome.next { s with status := turnedAway cause 0 }
    (allocBit u s k = none → exec (createOf u k) s = refusedWith 4 ∧ exec (destroyOf u k) s = refusedWith 4 ∧
      exec (processOf u k) s = refusedWith 4 ∧ (∀ i, setTypeOf u k = .ok i → exec i s = refusedWith 4)) ∧
    (allocBit u s k = some true → exec (createOf u k) s = refusedWith 6) ∧
    (allocBit u s k = some false → exec (destroyOf u k) s = refusedWith 5 ∧
      exec (processOf u k) s = refusedWith 5 ∧ (∀ i, setTypeOf u k = .ok i → exec i s = refusedWith 5))

/-- R142, R302: DESTROY and then CREATE of an allocated slot of any unit ends, from two states that differ only in the
slot's record, in one and the same state, in which the slot has its initial record. -/
def Obligations.RecreateForgetsTheRecord : Prop :=
  ∀ (s : State) (k : Nat),
    (∀ r r' : OscState, k < s.osc.length → ∃ t t' u,
      exec (.destroyOsc k) { s with osc := s.osc.set k { alloc := true, data := r } } = .next t ∧
      exec (.destroyOsc k) { s with osc := s.osc.set k { alloc := true, data := r' } } = .next t' ∧
      exec (.createOsc k) t = .next u ∧ exec (.createOsc k) t' = .next u ∧
      u.osc[k]? = some { alloc := true, data := { masterPhase := 0, slavePhase := 0, type := 0 } }) ∧
    (∀ r r' : LfoState, k < s.lfo.length → ∃ t t' u,
      exec (.destroyLfo k) { s with lfo := s.lfo.set k { alloc := true, data := r } } = .next t ∧
      exec (.destroyLfo k) { s with lfo := s.lfo.set k { alloc := true, data := r' } } = .next t' ∧
      exec (.createLfo k) t = .next u ∧ exec (.createLfo k) t' = .next u ∧
      u.lfo[k]? = some { alloc := true, data := { phase := 0, lastReset := false, type := 2 } }) ∧
    (∀ r r' : EnvState, k < s.env.length → ∃ t t' u,
      exec (.destroyEnv k) { s with env := s.env.set k { alloc := true, data := r } } = .next t ∧
      exec (.destroyEnv k) { s with env := s.env.set k { alloc := true, data := r' } } = .next t' ∧
      exec (.createEnv k) t = .next u ∧ exec (.createEnv k) t' = .next u ∧
      u.env[k]? = some { alloc := true, data := { stage := .idle, elapsed := 0, lastTrig := false, currentValue := 0 } }) ∧
    (∀ r r' : ClkState, k < s.clk.length → ∃ t t' u,
      exec (.destroyClk k) { s with clk := s.clk.set k { alloc := true, data := r } } = .next t ∧
      exec (.destroyClk k) { s with clk := s.clk.set k { alloc := true, data := r' } } = .next t' ∧
      exec (.createClk k) t = .next u ∧ exec (.createClk k) t' = .next u ∧
      u.clk[k]? = some { alloc := true, data := { counter := 0, sub := 0, high := false } }) ∧
    (∀ r r' : SeqState, k < s.seq.length → ∃ t t' u,
      exec (.destroySeq k) { s with seq := s.seq.set k { alloc := true, data := r } } = .next t ∧
      exec (.destroySeq k) { s with seq := s.seq.set k { alloc := true, data := r' } } = .next t' ∧
      exec (.createSeq k) t = .next u ∧ exec (.createSeq k) t' = .next u ∧
      u.seq[k]? = some { alloc := true, data := { index := 0, lastTrig := false, lastReset := false } })

/-! ## PROCESS -/

/-- R156: with length <= 0 a PROCESS on an allocated slot completes, whatever its buffers, and nothing else changes. -/
def Obligations.ZeroLengthBlockOnlyCompletes : Prop :=
  ∀ (s : State) (u : UnitKind) (k : Nat), allocBit u s k = some true → (s.arg 0).toInt ≤ 0 →
    exec (processOf u k) s = .next { s with status := done s.status }

/-- R78, R79, R271: with length > 0 the lowest-numbered buffer that fails a check is reported, with the first check it
fails; nothing but STATUS changes. -/
def Obligations.FirstBadBufferIsReported : Prop :=
  ∀ (s : State) (u : UnitKind) (k n cause : Nat) (before after : List Buffer) (b : Buffer),
    allocBit u s k = some true → (s.arg 0).toInt = n → 0 < n →
    unitBuffers u = before ++ b :: after → (∀ x ∈ before, x.Good s n) → b.FailsWith s n cause →
    exec (processOf u k) s = .next { s with status := turnedAway cause b.arg.val }

/-- R44, R157, R159: a PROCESS whose checks pass completes; it changes only its own slot's record, the draws, STATUS and
the words of its output buffers. -/
def Obligations.ProcessCompletesAndTouchesOnlyItsOwn : Prop :=
  ∀ (s : State) (u : UnitKind) (k n : Nat), allocBit u s k = some true → (s.arg 0).toInt = n → 0 < n →
    BuffersGood u s n →
    ∃ t, exec (processOf u k) s = .next t ∧ t.status = done s.status ∧
      allocBit u t k = some true ∧ (∀ v j, (v, j) ≠ (u, k) → sameSlot v j s t) ∧
      t.args = s.args ∧ t.params = s.params ∧ t.powerOns = s.powerOns ∧ t.readData = s.readData ∧ t.host = s.host ∧
      (∀ a,
        (a < (s.arg 8).toNat ∨ (s.arg 8).toNat + 4 * n ≤ a) →
        (9 ∈ (unitBuffers u).map Buffer.arg → s.arg 9 ≠ 0 → a < (s.arg 9).toNat ∨ (s.arg 9).toNat + 4 * n ≤ a) →
        t.readByte a = s.readByte a)

/-- R171 to R176: one sample of PROCESS.OSC. -/
def Obligations.OscSampleFollowsItsRules : Prop :=
  ∀ (s : State) (k : Nat) (r : OscState), s.osc[k]? = some { alloc := true, data := r } → s.arg 0 = 1 →
    BuffersGood .osc s 1 →
    let d := s.draws
    let sampleRate := s.arg 1
    let pitch := s.arg 2
    let pwm := s.arg 3
    let sync := s.arg 4
    let baseHz := mul32 d (input s 12 0) 0x43FA0000#32
    let exponent := div32 (d + 3) (add32 (d + 2) pitch (mul32 (d + 1) (input s 13 0) 0x41C00000#32)) 0x41400000#32
    let finalFreq := clampnn (add32 (d + 4) baseHz (exp2F32 exponent))
    let slaveFreq := mul32 (d + 5) finalFreq sync
    let m := add32 (d + 7) r.masterPhase (div32 (d + 6) finalFreq sampleRate)
    let wraps := ge32 m 0x3F800000#32
    let sl := add32 (d + 10) (if wraps then 0x00000000#32 else r.slavePhase) (div32 (d + 9) slaveFreq sampleRate)
    let slave := if ge32 sl 0x3F800000#32 || lt32 sl 0x00000000#32 then wrap32 (d + 11) sl else sl
    exec (.processOsc k) s = .next { s with
      osc := s.osc.set k { alloc := true, data :=
        { masterPhase := if wraps then wrap32 (d + 8) m else m, slavePhase := slave, type := r.type } }
      mem := Memory.write32 s.mem (outAddr s 8 0) (wave (d + 12) r.type slave pwm)
      draws := d + 16
      status := done s.status }

/-- R191 to R195: one sample of PROCESS.LFO. -/
def Obligations.LfoSampleFollowsItsRules : Prop :=
  ∀ (s : State) (k : Nat) (r : LfoState), s.lfo[k]? = some { alloc := true, data := r } → s.arg 0 = 1 →
    BuffersGood .lfo s 1 →
    let d := s.draws
    let sampleRate := s.arg 1
    let freqParam := s.arg 2
    let gainParam := s.arg 3
    let high := ge32 (input s 13 0) 0x3F000000#32
    let start := if r.lastReset = false ∧ high = true then 0x00000000#32 else r.phase
    let freq := add32 (d + 3) (div32 (d + 1) (mul32 d freqParam freqParam) 0x42C80000#32)
      (mul32 (d + 2) (input s 12 0) 0x42C80000#32)
    let x := add32 (d + 5) start (div32 (d + 4) freq sampleRate)
    let p := if ge32 x 0x3F800000#32 || lt32 x 0x00000000#32 then wrap32 (d + 6) x else x
    let signal := if r.type.toNat ≤ 3 then
        mul32 (d + 11) (wave (d + 7) r.type p 0x3F000000#32) (div32 (d + 10) gainParam 0x447A0000#32)
      else 0x00000000#32
    exec (.processLfo k) s = .next { s with
      lfo := s.lfo.set k { alloc := true, data := { phase := p, lastReset := high, type := r.type } }
      mem := withOut9 s (Memory.write32 s.mem (outAddr s 8 0) signal) p
      draws := d + 16
      status := done s.status }

/-- R211 to R217: one sample of PROCESS.ENV. -/
def Obligations.EnvSampleFollowsItsRules : Prop :=
  ∀ (s : State) (k : Nat) (r : EnvState), s.env[k]? = some { alloc := true, data := r } → s.arg 0 = 1 →
    BuffersGood .env s 1 →
    let d := s.draws
    let attack := s.arg 2
    let decay := s.arg 3
    let high := ge32 (input s 12 0) 0x3F000000#32
    let rising := r.lastTrig = false ∧ high = true
    let stage := if rising then .attack else r.stage
    let elapsed0 := if rising then 0x00000000#32 else r.elapsed
    let dt := div32 d 0x3F800000#32 (s.arg 1)
    let elapsed := add32 (d + 1) elapsed0 dt
    let c := clampnn (sub32 (d + 3) 0x3F800000#32 (div32 (d + 2) elapsed decay))
    let v := match stage with
      | .idle => r.currentValue
      | .attack => if ge32 elapsed attack then 0x3F800000#32 else div32 (d + 2) elapsed attack
      | .decay => if ge32 elapsed decay then 0x00000000#32 else mul32 (d + 5) (mul32 (d + 4) c c) c
    let stage' := match stage with
      | .idle => EnvStage.idle
      | .attack => if ge32 elapsed attack then .decay else .attack
      | .decay => if ge32 elapsed decay then .idle else .decay
    let elapsed' := match stage with
      | .idle => elapsed0
      | .attack => if ge32 elapsed attack then 0x00000000#32 else elapsed
      | .decay => elapsed
    let total := add32 (d + 6) attack decay
    let phase := clamp01 (match stage' with
      | .idle => 0x00000000#32
      | .attack => div32 (d + 8) elapsed' total
      | .decay => div32 (d + 8) (add32 (d + 7) attack elapsed') total)
    exec (.processEnv k) s = .next { s with
      env := s.env.set k { alloc := true, data :=
        { stage := stage', elapsed := elapsed', lastTrig := high, currentValue := clamp01 v } }
      mem := withOut9 s (Memory.write32 s.mem (outAddr s 8 0) (clamp01 v)) phase
      draws := d + 16
      status := done s.status }

/-- R231, R233 to R236: one sample of PROCESS.CLK. -/
def Obligations.ClkSampleFollowsItsRules : Prop :=
  ∀ (s : State) (k : Nat) (r : ClkState), s.clk[k]? = some { alloc := true, data := r } → s.arg 0 = 1 →
    BuffersGood .clk s 1 →
    let d := s.draws
    let spb := div32 (d + 2) (div32 (d + 1) (s.arg 1) (div32 d (s.arg 2) 0x42700000#32)) 0x40800000#32
    let n := truncSatU32 spb
    let pw := mul32 (d + 3) 0x3C23D70A#32 (s.arg 1)
    let beat := n ≤ r.counter.toNat + 1
    let counter := if beat then 0 else r.counter.toNat + 1
    let sub := if beat then r.sub + 1 else r.sub
    let high := if gt32 (cvtU32F32 counter) pw then false else if beat then true else r.high
    exec (.processClk k) s = .next { s with
      clk := s.clk.set k { alloc := true, data :=
        { counter := BitVec.ofNat 32 counter, sub := sub, high := high } }
      mem := withOut9 s
        (Memory.write32 s.mem (outAddr s 8 0) (if high then 0x3F800000#32 else 0x00000000#32))
        (if high = true ∧ sub = 0 then 0x3F800000#32 else 0x00000000#32)
      draws := d + 16
      status := done s.status }

/-- R251 to R256: every sample of a PROCESS.SEQ of any length. The table is the 8 words at ARG[14] as they stand before
sample 0, also where the output words lie over them (R87, R313). -/
def Obligations.SeqSampleFollowsItsRules : Prop :=
  ∀ (s : State) (k n : Nat) (r : SeqState), s.seq[k]? = some { alloc := true, data := r } →
    (s.arg 0).toInt = n → 0 < n → BuffersGood .seq s n →
    let b := afterSeqSamples (fun j => s.readWord ((s.arg 14).toNat + 4 * j.toNat)) s r n
    exec (.processSeq k) s = .next { s with
      seq := s.seq.set k { alloc := true, data := b.1 }
      mem := b.2.mem
      draws := s.draws + 16 * n
      status := done s.status }

/-- R315 for OSC, LFO and ENV: block boundaries are invisible. -/
def Obligations.BlockBoundariesAreInvisible : Prop :=
  ∀ (s : State) (u : UnitKind) (k n m : Nat), u = .osc ∨ u = .lfo ∨ u = .env →
    s.memBytes ≤ 2 ^ 32 → allocBit u s k = some true → 0 < n → 0 < m → (s.arg 0).toInt = ((n + m : Nat) : Int) →
    BuffersGood u s (n + m) →
    SplitsInvisibly (processOf u k) ((unitBuffers u).map Buffer.arg) s n m

/-- R315 for CLK, whose BlockInit recomputes the same constants from the same parameters. -/
def Obligations.ClkBlockBoundariesAreInvisible : Prop :=
  ∀ (s : State) (k n m : Nat),
    s.memBytes ≤ 2 ^ 32 → allocBit .clk s k = some true → 0 < n → 0 < m → (s.arg 0).toInt = ((n + m : Nat) : Int) →
    BuffersGood .clk s (n + m) →
    SplitsInvisibly (.processClk k) [8, 9] s n m

/-- R315 for SEQ, as long as the table is the same for both commands: the first does not write into it (R251). -/
def Obligations.SeqBlockBoundariesAreInvisible : Prop :=
  ∀ (s : State) (k n m : Nat),
    s.memBytes ≤ 2 ^ 32 → allocBit .seq s k = some true → 0 < n → 0 < m → (s.arg 0).toInt = ((n + m : Nat) : Int) →
    BuffersGood .seq s (n + m) →
    ((s.arg 14).toNat + 32 ≤ (s.arg 8).toNat ∨ (s.arg 8).toNat + 4 * n ≤ (s.arg 14).toNat) →
    SplitsInvisibly (.processSeq k) [8, 12, 13] s n m

/-! ## Rules over all commands -/

/-- R141, R276: every command answers a next state: it completes, or it is refused and then nothing but STATUS has
changed. -/
def Obligations.CommandCompletesOrIsRefusedPrecisely : Prop :=
  ∀ (i : Instr) (s : State), ∃ t, exec i s = .next t ∧
    (t.status = done s.status ∨
      ∃ cause k, 4 ≤ cause ∧ cause ≤ 9 ∧ (cause < 7 → k = 0) ∧ t = { s with status := turnedAway cause k })

/-- R38 and R11: no command writes an ARG register, a parameter, or what is the host's. -/
def Obligations.CommandsLeaveTheHostsRegisters : Prop :=
  ∀ (i : Instr) (s t : State), exec i s = .next t →
    t.args = s.args ∧ t.params = s.params ∧ t.powerOns = s.powerOns ∧ t.readData = s.readData ∧ t.host = s.host

/-- R72: among commands only PROCESS changes sample memory. No other takes a NaN draw either: R140 to R150 hold no
operation that could give a NaN; that draws are counted in the state is the model's choice (log 4). -/
def Obligations.OnlyProcessChangesSampleMemory : Prop :=
  ∀ (i : Instr) (s t : State), exec i s = .next t → (∀ u k, i ≠ processOf u k) →
    (∀ a, t.readByte a = s.readByte a) ∧ t.draws = s.draws

/-- R45: only CREATE sets an ALLOC bit and only DESTROY clears one, each that of the slot it names. -/
def Obligations.AllocChangesOnlyByCreateAndDestroy : Prop :=
  ∀ (i : Instr) (s t : State) (u : UnitKind) (k : Nat), exec i s = .next t → allocBit u t k ≠ allocBit u s k →
    (i = createOf u k ∧ allocBit u s k = some false ∧ allocBit u t k = some true) ∨
    (i = destroyOf u k ∧ allocBit u s k = some true ∧ allocBit u t k = some false)

/-- R13, R44: a command leaves every slot it does not name as it was. -/
def Obligations.CommandsTouchOnlyTheSlotTheyName : Prop :=
  ∀ (i : Instr) (s t : State) (u : UnitKind) (k : Nat), exec i s = .next t → namedSlot i ≠ some (u, k) →
    sameSlot u k s t

/-- R272: the refusal checks read only the command word, ARG[0] and the buffer registers of the unit, the slot counts,
MEM_BYTES and the ALLOC bits: two states that agree on these agree on the outcome STATUS records. -/
def Obligations.RefusalChecksReadOnlyTheRequest : Prop :=
  ∀ (i : Instr) (s s' t t' : State),
    (∀ k ∈ checkedArgs i, s.arg k = s'.arg k) → s.memBytes = s'.memBytes → (∀ u k, allocBit u s k = allocBit u s' k) →
    exec i s = .next t → exec i s' = .next t' →
    t.status.lastOk = t'.status.lastOk ∧ t.status.cause = t'.status.cause ∧ t.status.faultArg = t'.status.faultArg

/-! ## The invariant -/

/-- The state power-on reset leaves has the invariant, for all legal parameters; so has `State.reset`. -/
def Obligations.PowerOnStateHasTheInvariant : Prop :=
  (∀ p : Params, p.legal → (State.powerOn p).Inv) ∧ State.reset.Inv

/-- Every step keeps the invariant: the parameters of R11, the canonical memory within MEM_BYTES, what STATUS can hold
(R33, R34, R270), the clamped envelope (R62, R215) and the clock counter that never overflows (R243). -/
def Obligations.StepKeepsTheInvariant : Prop :=
  ∀ s t : State, s.Inv → step s = .next t → t.Inv

/-- A run whose host operations are all defined accesses never stops, however long it is: no command, no numerical
condition and no reset ends it (R157, R158, R274). -/
def Obligations.DefinedRunsNeverStop : Prop :=
  ∀ (n : Nat) (s : State), (∀ op ∈ s.host, op.Defined s) → ∃ t, core.run n s = .next t

/-! ## The units -/

/-- R121, R123, R124, R127, R130 to R135: the formulas of the leaf functions the sample statements above name. -/
def Obligations.LeafFunctionsFollowTheirFormulas : Prop :=
  ∀ (d : Nat) (x p pwm : F32) (t : Word),
    (let y := sub32 d x (floor32 x)
     wrap32 d x = if ge32 y 0x3F800000#32 then 0x00000000#32 else y) ∧
    clampnn x = (if lt32 0x00000000#32 x then x else 0x00000000#32) ∧
    clamp01 x = (if gt32 x 0x3F800000#32 then 0x3F800000#32
      else if ge32 x 0x00000000#32 then x else 0x00000000#32) ∧
    level x = ge32 x 0x3F000000#32 ∧
    (t.toInt = 0 → wave d t p pwm = mul32 (d + 1) 0x40000000#32 (sub32 d p 0x3F000000#32)) ∧
    (t.toInt = 1 → wave d t p pwm = if lt32 p pwm then 0x3F800000#32 else 0xBF800000#32) ∧
    (t.toInt = 2 → wave d t p pwm = sinF32 (mul32 d 0x40C90FDB#32 p)) ∧
    (t.toInt = 3 → wave d t p pwm =
      sub32 (d + 2) (mul32 (d + 1) 0x40800000#32 (abs32 (sub32 d p 0x3F000000#32))) 0x3F800000#32) ∧
    (t.toInt < 0 ∨ 4 ≤ t.toInt → wave d t p pwm = 0x00000000#32)

/-- R122: the properties of Wrap, for every finite argument, and its NaN cases. -/
def Obligations.WrapPropertiesHold : Prop :=
  ∀ (d : Nat) (x : F32),
    (isFinite x = true → inUnitInterval (wrap32 d x)) ∧
    (isFinite x = true → ge32 x 0x3F800000#32 = true → value32 (wrap32 d x) = value32 x % 2 ^ 149) ∧
    (inUnitInterval x → value32 (wrap32 d x) = value32 x) ∧
    wrap32 d 0xBE800000#32 = 0x3F400000#32 ∧ wrap32 d 0x40400000#32 = 0x00000000#32 ∧
    (isFinite x = false → isNaN (wrap32 d x) = true)

/-- R62: with finite increments a sample keeps the slave phase and the LFO phase in [0, 1), and with a finite increment
that is at least 0 also the master phase. -/
def Obligations.PhasesStayInTheUnitInterval : Prop :=
  (∀ (p : OscParams) (d : Nat) (r : OscState) (f sh : F32),
    let finalFreq := oscFinalFreq d p f sh
    let t := (oscStep p d r f sh).data
    (inUnitInterval r.slavePhase → isFinite (div32 (d + 9) (mul32 (d + 5) finalFreq p.sync) p.sampleRate) = true →
      inUnitInterval t.slavePhase) ∧
    (inUnitInterval r.masterPhase → isFinite (div32 (d + 6) finalFreq p.sampleRate) = true →
      le32 0x00000000#32 (div32 (d + 6) finalFreq p.sampleRate) = true → inUnitInterval t.masterPhase)) ∧
  (∀ (p : LfoParams) (d : Nat) (r : LfoState) (q x : F32),
    inUnitInterval r.phase → isFinite (div32 (d + 4) (lfoFreq d p q) p.sampleRate) = true →
    inUnitInterval (lfoStep p d r q x).data.phase)

/-- R136: for a phase in [0, 1), a finite pwm and every type, the waveform is in [-1, 1]; and a NaN phase gives a NaN in
Saw, Sine and Triangle, whatever the draw. -/
def Obligations.WaveStaysWithinOne : Prop :=
  ∀ (d : Nat) (t : Word) (p pwm : F32),
    (inUnitInterval p → isFinite pwm = true → withinOne (wave d t p pwm)) ∧
    (isNaN p = true → t.toInt = 0 ∨ t.toInt = 2 ∨ t.toInt = 3 → isNaN (wave d t p pwm) = true)

/-- R126, R128: a control input that stays high gives no second edge, and one that is low, NaN or absent gives none. The
LFO then advances from its old phase, the envelope goes on in the stage it is in (R213 to R215), and the sequencer keeps
its index. -/
def Obligations.HeldInputsGiveNoSecondEdge : Prop :=
  (∀ (p : LfoParams) (d : Nat) (r : LfoState) (q x : F32), r.lastReset = true ∨ ge32 x 0x3F000000#32 = false →
    (lfoStep p d r q x).data.phase = lfoAdvance (d + 4) p (lfoFreq d p q) r.phase) ∧
  (∀ (p : EnvParams) (d : Nat) (r : EnvState) (x y : F32), r.lastTrig = true ∨ ge32 x 0x3F000000#32 = false →
    let t := (envStep p d r x y).data
    let elapsed := add32 (d + 1) r.elapsed (div32 d 0x3F800000#32 p.sampleRate)
    (r.stage = .idle → clampedToOne r.currentValue → t = { r with lastTrig := ge32 x 0x3F000000#32 }) ∧
    (r.stage = .attack → t.stage = (if ge32 elapsed p.attack then .decay else .attack) ∧
      t.elapsed = (if ge32 elapsed p.attack then 0x00000000#32 else elapsed)) ∧
    (r.stage = .decay → t.stage = (if ge32 elapsed p.decay then .idle else .decay) ∧ t.elapsed = elapsed)) ∧
  (∀ (table : StepTable) (d : Nat) (r : SeqState) (x y : F32),
    r.lastTrig = true ∨ ge32 x 0x3F000000#32 = false → r.lastReset = true ∨ ge32 y 0x3F000000#32 = false →
    (seqStep table d r x y).data.index = r.index)

/-- R219, R220: a stage of zero or negative duration completes in the one sample it is entered or found in, with value
1.0 for Attack and +0.0 for Decay: the clauses are a trigger edge, an Attack found without one, and a Decay found
without one. -/
def Obligations.ZeroDurationStagesTakeOneSample : Prop :=
  ∀ (p : EnvParams) (d : Nat) (r : EnvState) (x y : F32),
    let dt := div32 d 0x3F800000#32 p.sampleRate
    let noEdge := r.lastTrig = true ∨ ge32 x 0x3F000000#32 = false
    let t := envStep p d r x y
    (r.lastTrig = false → ge32 x 0x3F000000#32 = true → le32 p.attack 0x00000000#32 = true →
      le32 0x00000000#32 dt = true →
      t.data.stage = .decay ∧ t.data.elapsed = 0x00000000#32 ∧ t.out8 = 0x3F800000#32) ∧
    (noEdge → r.stage = .attack → le32 p.attack 0x00000000#32 = true →
      le32 0x00000000#32 (add32 (d + 1) r.elapsed dt) = true →
      t.data.stage = .decay ∧ t.data.elapsed = 0x00000000#32 ∧ t.out8 = 0x3F800000#32) ∧
    (noEdge → r.stage = .decay → le32 p.decay 0x00000000#32 = true →
      le32 0x00000000#32 (add32 (d + 1) r.elapsed dt) = true →
      t.data.stage = .idle ∧ t.out8 = 0x00000000#32 ∧ t.out9 = 0x00000000#32)

/-- R238: from a fresh slot the first beat comes in sample N - 1 and the trigger is low before it. In the beat's sample
it is high unless pw is negative (R242). -/
def Obligations.FirstBeatComesAtTheEndOfThePeriod : Prop :=
  ∀ (s : State) (k n : Nat), s.clk[k]? = some { alloc := true, data := { counter := 0, sub := 0, high := false } } →
    (s.arg 0).toInt = n → 0 < n → BuffersGood .clk s n → s.arg 9 = 0 →
    let c := clkConsts s.draws (s.arg 1) (s.arg 2)
    n ≤ c.period → gt32 0x00000000#32 c.pulse = false →
    ∃ t, exec (.processClk k) s = .next t ∧
      (∀ i, i < n → i + 1 ≠ c.period → t.readWord (outAddr s 8 i) = 0x00000000#32) ∧
      (n = c.period → t.readWord (outAddr s 8 (n - 1)) = 0x3F800000#32) ∧
      t.clk[k]? = some { alloc := true, data :=
        if n = c.period then { counter := 0, sub := 1, high := true }
        else { counter := BitVec.ofNat 32 n, sub := 0, high := false } }

/-- R240: with N = 0 or N = 1 every sample is a beat, and with pw >= 0 the trigger is high in it and the downbeat is
high when the sub-divider comes round to 0. -/
def Obligations.PeriodOfOneBeatsEverySample : Prop :=
  ∀ (c : ClkConsts) (d : Nat) (r : ClkState) (x y : F32), c.period ≤ 1 →
    let t := clkStep c d r x y
    t.data.counter = 0 ∧ t.data.sub = r.sub + 1 ∧
    (le32 0x00000000#32 c.pulse = true →
      t.data.high = true ∧ t.out8 = 0x3F800000#32 ∧
      t.out9 = if r.sub = 7 then 0x3F800000#32 else 0x00000000#32)

/-- R257: reset and trigger edges in the same sample give index 1; a reset edge with the trigger held gives index 0. -/
def Obligations.SeqResetThenTriggerGivesIndexOne : Prop :=
  ∀ (table : StepTable) (d : Nat) (r : SeqState) (t q : F32),
    r.lastReset = false → ge32 q 0x3F000000#32 = true → ge32 t 0x3F000000#32 = true →
    (r.lastTrig = false → (seqStep table d r t q).data.index = 1 ∧
      (seqStep table d r t q).out8 = div32 d table[1] 0x447A0000#32) ∧
    (r.lastTrig = true → (seqStep table d r t q).data.index = 0 ∧
      (seqStep table d r t q).out8 = div32 d table[0] 0x447A0000#32)

/-! ## binary32 -/

/-- R19: sums, differences, products and quotients of finite values are the exact results rounded once, to nearest, ties
to even, with overflow to infinity and subnormals kept; and the signs of the results, zeros included. -/
def Obligations.ArithmeticRoundsToNearestEven : Prop :=
  ∀ (d : Nat) (a b : F32), isFinite a = true → isFinite b = true →
    (RoundsTo (value32 a + value32 b).natAbs 1 (mag32 (add32 d a b)) ∧
      (value32 a + value32 b ≠ 0 → neg32 (add32 d a b) = decide (value32 a + value32 b < 0)) ∧
      (value32 a + value32 b = 0 → neg32 (add32 d a b) = (neg32 a && neg32 b))) ∧
    (RoundsTo (value32 a - value32 b).natAbs 1 (mag32 (sub32 d a b)) ∧
      (value32 a - value32 b ≠ 0 → neg32 (sub32 d a b) = decide (value32 a - value32 b < 0)) ∧
      (value32 a - value32 b = 0 → neg32 (sub32 d a b) = (neg32 a && !neg32 b))) ∧
    (RoundsTo (units32 a * units32 b) (2 ^ 149) (mag32 (mul32 d a b)) ∧
      neg32 (mul32 d a b) = (neg32 a != neg32 b)) ∧
    (isZero b = false →
      RoundsTo (units32 a * 2 ^ 149) (units32 b) (mag32 (div32 d a b)) ∧
      neg32 (div32 d a b) = (neg32 a != neg32 b))

/-- R19, R21: the operations whose IEEE result is a NaN give a NaN, whatever the draw. Every other operation with an
infinite operand gives its IEEE result: an infinity, or for a finite value over an infinity a zero, of the sign of the
result. A nonzero finite value over zero is an infinity of the quotient's sign. -/
def Obligations.InvalidOperationsGiveNaN : Prop :=
  ∀ (d : Nat) (a b : F32),
    (isNaN a = true ∨ isNaN b = true → isNaN (add32 d a b) = true ∧ isNaN (sub32 d a b) = true ∧
      isNaN (mul32 d a b) = true ∧ isNaN (div32 d a b) = true) ∧
    (isInf a = true → isInf b = true → isNaN (div32 d a b) = true ∧
      (neg32 a = neg32 b → isNaN (sub32 d a b) = true ∧ add32 d a b = a) ∧
      (neg32 a ≠ neg32 b → isNaN (add32 d a b) = true ∧ sub32 d a b = a)) ∧
    (isZero a = true → isInf b = true → isNaN (mul32 d a b) = true ∧ isNaN (mul32 d b a) = true) ∧
    (isZero a = true → isZero b = true → isNaN (div32 d a b) = true) ∧
    (isInf a = true → isFinite b = true →
      add32 d a b = a ∧ add32 d b a = a ∧ sub32 d a b = a ∧
      isInf (sub32 d b a) = true ∧ neg32 (sub32 d b a) = (!neg32 a) ∧
      isInf (div32 d a b) = true ∧ neg32 (div32 d a b) = (neg32 a != neg32 b) ∧
      isZero (div32 d b a) = true ∧ neg32 (div32 d b a) = (neg32 b != neg32 a)) ∧
    (isInf a = true → isNaN b = false → isZero b = false →
      isInf (mul32 d a b) = true ∧ neg32 (mul32 d a b) = (neg32 a != neg32 b) ∧
      isInf (mul32 d b a) = true ∧ neg32 (mul32 d b a) = (neg32 b != neg32 a)) ∧
    (isFinite a = true → isZero a = false → isZero b = true →
      isInf (div32 d a b) = true ∧ neg32 (div32 d a b) = (neg32 a != neg32 b))

/-- R20: ordered comparisons, with NaNs, finite values and infinities; abs32 and floor32 by value. -/
def Obligations.ComparisonsAndFloorFollowTheValues : Prop :=
  ∀ a b : F32,
    (isNaN a = true ∨ isNaN b = true → lt32 a b = false ∧ le32 a b = false ∧ gt32 a b = false ∧ ge32 a b = false) ∧
    (isFinite a = true → isFinite b = true →
      (lt32 a b = true ↔ value32 a < value32 b) ∧ (le32 a b = true ↔ value32 a ≤ value32 b) ∧
      (gt32 a b = true ↔ value32 b < value32 a) ∧ (ge32 a b = true ↔ value32 b ≤ value32 a)) ∧
    (isInf a = true → isNaN b = false →
      (neg32 a = false → lt32 a b = false ∧ ge32 a b = true ∧
        (gt32 a b = true ↔ b ≠ a) ∧ (le32 a b = true ↔ b = a) ∧
        gt32 b a = false ∧ le32 b a = true ∧ (lt32 b a = true ↔ b ≠ a) ∧ (ge32 b a = true ↔ b = a)) ∧
      (neg32 a = true → gt32 a b = false ∧ le32 a b = true ∧
        (lt32 a b = true ↔ b ≠ a) ∧ (ge32 a b = true ↔ b = a) ∧
        lt32 b a = false ∧ ge32 b a = true ∧ (gt32 b a = true ↔ b ≠ a) ∧ (le32 b a = true ↔ b = a))) ∧
    (abs32 a).getLsbD 31 = false ∧ (∀ j, j < 31 → (abs32 a).getLsbD j = a.getLsbD j) ∧
    (isFinite a = true → isFinite (floor32 a) = true ∧ value32 (floor32 a) = value32 a / 2 ^ 149 * 2 ^ 149) ∧
    (isFinite a = false → floor32 a = a) ∧ floor32 0x80000000#32 = 0x80000000#32

/-- R22, R23: every property these rules require of SIN_F32 and EXP2_F32. -/
def Obligations.SinAndExp2HaveTheRequiredProperties : Prop :=
  (∀ x : F32, isFinite x = true → withinOne (sinF32 x)) ∧ sinF32 0x00000000#32 = 0x00000000#32 ∧
  (∀ x : F32, isNaN x = false → le32 0x00000000#32 (exp2F32 x) = true) ∧
  (∀ x : F32, isNaN x = true → isNaN (exp2F32 x) = true) ∧
  (∀ (x : F32) (j : Nat), isFinite x = true → j ≤ 276 → value32 x = ((j : Int) - 149) * 2 ^ 149 →
    neg32 (exp2F32 x) = false ∧ value32 (exp2F32 x) = 2 ^ j) ∧
  (∀ x : F32, le32 0x43000000#32 x = true → exp2F32 x = 0x7F800000#32) ∧ exp2F32 0xFF800000#32 = 0x00000000#32

/-- R24: the conversions between integers and binary32. -/
def Obligations.ConversionsAreExactWhereTheyCanBe : Prop :=
  (∀ n : Nat, n < 2 ^ 24 → value32 (cvtU32F32 n) = n * 2 ^ 149) ∧
  (∀ n : Nat, n < 2 ^ 32 → RoundsTo (n * 2 ^ 149) 1 (mag32 (cvtU32F32 n)) ∧ neg32 (cvtU32F32 n) = false) ∧
  (∀ x : F32,
    (isNaN x = true ∨ lt32 x 0x3F800000#32 = true → truncSatU32 x = 0) ∧
    (le32 0x4F800000#32 x = true → truncSatU32 x = 2 ^ 32 - 1) ∧
    (le32 0x3F800000#32 x = true → lt32 x 0x4F800000#32 = true → (truncSatU32 x : Int) = value32 x / 2 ^ 149))

/-! ## The assembler -/

/-- R108 to R110: what every line of the assembler stands for, the pseudo-instructions by their expansions; and the word
a value is stored as: a hexadecimal or decimal value that fits 32 bits itself, in two's complement if negative, and a
binary32 literal the nearest encoding, ties to even. A literal too large for binary32 is an infinity, the model's
choice (log 20). -/
def Obligations.AssemblerLinesStandForTheirWords : Prop :=
  (AsmLine.nop.expand = [.regWrite 0x00#8 .word 0x00000000#32]) ∧
  (AsmLine.rdstatus.expand = [.regRead 0x04#8 .word]) ∧
  (AsmLine.clrerr.expand = [.regWrite 0x04#8 .word 0x00000001#32]) ∧
  (∀ a v : AsmValue,
    (AsmLine.cmd v).expand = [.regWrite 0x00#8 .word v.word] ∧
    (AsmLine.wrmem a v).expand = [.memWrite a.word.toNat .word v.word] ∧
    (AsmLine.rdmem a).expand = [.memRead a.word.toNat .word]) ∧
  (∀ (u : UnitKind) (k : Nat) (t : AsmValue) (l : List (Fin 16 × AsmValue)),
    (AsmLine.create u k).expand = [.regWrite 0x00#8 .word (encode (createOf u k))] ∧
    (AsmLine.destroy u k).expand = [.regWrite 0x00#8 .word (encode (destroyOf u k))] ∧
    (∀ i, setTypeOf u k = .ok i → (AsmLine.setType u k).expand = [.regWrite 0x00#8 .word (encode i)]) ∧
    (AsmLine.process u k).expand = [.regWrite 0x00#8 .word (encode (processOf u k))] ∧
    (AsmLine.setTypeTo u k t).expand = (AsmLine.wrarg 0 t).expand ++ (AsmLine.setType u k).expand ∧
    (AsmLine.recreate u k).expand = (AsmLine.destroy u k).expand ++ (AsmLine.create u k).expand ∧
    (AsmLine.run u k l).expand =
      (l.map fun a => (AsmLine.wrarg a.1 a.2).expand).flatten ++ (AsmLine.process u k).expand ∧
    (∀ j : Fin 16, (AsmLine.wrarg j t).expand = [.regWrite (BitVec.ofNat 8 (0x40 + 4 * j.val)) .word t.word])) ∧
  (∀ n : Nat, n < 2 ^ 32 → (AsmValue.hex n).word.toNat = n ∧ (AsmValue.int n).word.toNat = n) ∧
  (∀ z : Int, -2 ^ 31 ≤ z → z < 2 ^ 31 → (AsmValue.int z).word.toInt = z) ∧
  (∀ (negative : Bool) (digits places : Nat),
    RoundsTo (digits * 2 ^ 149) (10 ^ places) (mag32 (AsmValue.float negative digits places).word) ∧
    neg32 (AsmValue.float negative digits places).word = negative)
end

