-- ==== Sys2Proof/Laws/Binary32.lean ====
section
/-! SUPPORT. The laws of binary32 arithmetic: fields of packed encodings, NaN results, the order, and what
rounding gives (nearest, exact where exact is possible, monotone). -/

namespace Sys2Proof.Machine

/-! ### Encodings -/

theorem mag32_lt (x : F32) : mag32 x < 2 ^ 31 := Nat.mod_lt _ (by norm_num)

@[simp] theorem mag32_pack32 (n : Bool) {m : Nat} (h : m < 2 ^ 31) : mag32 (pack32 n m) = m := by
  cases n <;> simp [mag32, pack32, BitVec.toNat_ofNat] <;> omega

@[simp] theorem neg32_pack32 (n : Bool) {m : Nat} (h : m < 2 ^ 31) : neg32 (pack32 n m) = n := by
  cases n <;> simp [neg32, pack32, BitVec.toNat_ofNat] <;> omega

/-- An encoding is its sign and its rest. -/
theorem pack32_self (x : F32) : pack32 (neg32 x) (mag32 x) = x := by
  have hx := x.isLt
  apply BitVec.eq_of_toNat_eq
  simp only [pack32, neg32, mag32, BitVec.toNat_ofNat, decide_eq_true_eq]
  split_ifs <;> omega

theorem eq_of_neg32_of_mag32 {x y : F32} (hn : neg32 x = neg32 y) (hm : mag32 x = mag32 y) : x = y := by
  rw [← pack32_self x, ← pack32_self y, hn, hm]

theorem infMag_lt : infMag < 2 ^ 31 := by norm_num [infMag]

theorem roundMag_le (num den : Nat) : roundMag num den ≤ infMag := min_le_left _ _

theorem roundMag_lt (num den : Nat) : roundMag num den < 2 ^ 31 :=
  lt_of_le_of_lt (roundMag_le _ _) infMag_lt

@[simp] theorem mag32_negate32 (x : F32) : mag32 (negate32 x) = mag32 x := mag32_pack32 _ (mag32_lt x)

@[simp] theorem neg32_negate32 (x : F32) : neg32 (negate32 x) = !neg32 x := neg32_pack32 _ (mag32_lt x)

@[simp] theorem isNaN_negate32 (x : F32) : isNaN (negate32 x) = isNaN x := by simp [isNaN]

@[simp] theorem isInf_negate32 (x : F32) : isInf (negate32 x) = isInf x := by simp [isInf]

@[simp] theorem isFinite_negate32 (x : F32) : isFinite (negate32 x) = isFinite x := by simp [isFinite]

theorem isNaN_eq_false_of_isFinite {x : F32} (h : isFinite x = true) : isNaN x = false := by
  simp [isFinite] at h
  simp [isNaN]; omega

theorem isInf_eq_false_of_isFinite {x : F32} (h : isFinite x = true) : isInf x = false := by
  simp [isFinite] at h
  simp [isInf]; omega

/-! ### NaN results -/

theorem nanMag_lt (n : Nat) : infMag + max 1 (n % 2 ^ 23) < 2 ^ 31 := by
  have : n % 2 ^ 23 < 2 ^ 23 := Nat.mod_lt _ (by norm_num)
  simp only [infMag]; omega

@[simp] theorem isNaN_nanOf (b : Bool) (n : Nat) : isNaN (nanOf b n) = true := by
  simp only [isNaN, nanOf, mag32_pack32 _ (nanMag_lt _)]
  simp

/-- Every draw is a NaN, and nothing else is known of it (00_scope.md R21). -/
@[simp] theorem isNaN_nan32 (n : Nat) : isNaN (nan32 n) = true := isNaN_nanOf _ _

@[simp] theorem isNaN_nanLike (x : F32) : isNaN (nanLike x) = true := isNaN_nanOf _ _

/-- SIN_F32 of a NaN is a NaN (40_leaf_utilities.md R136). -/
theorem isNaN_sinF32 {x : F32} (h : isNaN x = true) : isNaN (sinF32 x) = true := by
  have hz : x ≠ zeroF := by rintro rfl; revert h; decide
  simp [sinF32, hz, h]

/-- EXP2_F32 of a NaN is a NaN (R23). -/
theorem isNaN_exp2F32 {x : F32} (h : isNaN x = true) : isNaN (exp2F32 x) = true := by
  simp [exp2F32, h]

theorem add32_nan {a b : F32} (d : Nat) (h : isNaN a = true ∨ isNaN b = true) : add32 d a b = nan32 d := by
  rcases h with h | h <;> simp [add32, h]

theorem sub32_nan {a b : F32} (d : Nat) (h : isNaN a = true ∨ isNaN b = true) : sub32 d a b = nan32 d :=
  add32_nan d (by simpa using h)

theorem mul32_nan {a b : F32} (d : Nat) (h : isNaN a = true ∨ isNaN b = true) : mul32 d a b = nan32 d := by
  rcases h with h | h <;> simp [mul32, h]

theorem div32_nan {a b : F32} (d : Nat) (h : isNaN a = true ∨ isNaN b = true) : div32 d a b = nan32 d := by
  rcases h with h | h <;> simp [div32, h]

/-! A result other than a NaN does not depend on the draw. -/

theorem add32_draw (d d' : Nat) (a b : F32) :
    add32 d a b = add32 d' a b ∨ (isNaN (add32 d a b) = true ∧ isNaN (add32 d' a b) = true) := by
  simp only [add32]; split_ifs <;> simp

theorem mul32_draw (d d' : Nat) (a b : F32) :
    mul32 d a b = mul32 d' a b ∨ (isNaN (mul32 d a b) = true ∧ isNaN (mul32 d' a b) = true) := by
  simp only [mul32]; split_ifs <;> simp

theorem div32_draw (d d' : Nat) (a b : F32) :
    div32 d a b = div32 d' a b ∨ (isNaN (div32 d a b) = true ∧ isNaN (div32 d' a b) = true) := by
  simp only [div32]; split_ifs <;> simp

/-! ### Comparisons -/

@[simp] theorem lt32_nan_left {a : F32} (h : isNaN a = true) (b : F32) : lt32 a b = false := by simp [lt32, h]

@[simp] theorem lt32_nan_right {b : F32} (h : isNaN b = true) (a : F32) : lt32 a b = false := by simp [lt32, h]

@[simp] theorem le32_nan_left {a : F32} (h : isNaN a = true) (b : F32) : le32 a b = false := by simp [le32, h]

@[simp] theorem le32_nan_right {b : F32} (h : isNaN b = true) (a : F32) : le32 a b = false := by simp [le32, h]

theorem lt32_iff {a b : F32} :
    lt32 a b = true ↔ isNaN a = false ∧ isNaN b = false ∧ order32 a < order32 b := by
  simp [lt32, and_assoc]

theorem le32_iff {a b : F32} :
    le32 a b = true ↔ isNaN a = false ∧ isNaN b = false ∧ order32 a ≤ order32 b := by
  simp [le32, and_assoc]

theorem le32_refl {a : F32} (h : isNaN a = false) : le32 a a = true := le32_iff.2 ⟨h, h, le_rfl⟩

theorem le32_of_not_lt32 {a b : F32} (ha : isNaN a = false) (hb : isNaN b = false) (h : lt32 a b = false) :
    le32 b a = true := by
  refine le32_iff.2 ⟨hb, ha, ?_⟩
  by_contra hc
  exact absurd (lt32_iff.2 ⟨ha, hb, not_le.1 hc⟩) (by simp [h])

theorem lt32_of_not_le32 {a b : F32} (ha : isNaN a = false) (hb : isNaN b = false) (h : le32 a b = false) :
    lt32 b a = true := by
  refine lt32_iff.2 ⟨hb, ha, ?_⟩
  by_contra hc
  exact absurd (le32_iff.2 ⟨ha, hb, not_lt.1 hc⟩) (by simp [h])

/-! ### Clamps and the edge detector's level -/

/-- clamp01 gives a value in [0, 1], whatever its argument (40_leaf_utilities.md R124). -/
theorem clamp01_clamped (x : F32) : clampedToOne (clamp01 x) := by
  rw [clamp01, gt32, ge32]
  by_cases h1 : lt32 oneF x = true
  · rw [if_pos h1]; exact ⟨by decide, by decide⟩
  · rw [if_neg h1]
    by_cases h2 : le32 zeroF x = true
    · rw [if_pos h2]
      exact ⟨h2, le32_of_not_lt32 (by decide) (le32_iff.1 h2).2.1 (by simpa using h1)⟩
    · rw [if_neg h2]; exact ⟨by decide, by decide⟩

@[simp] theorem clamp01_zeroF : clamp01 zeroF = zeroF := by decide

theorem clampnn_nan {x : F32} (h : isNaN x = true) : clampnn x = zeroF := by simp [clampnn, h]

theorem isNaN_clampnn (x : F32) : isNaN (clampnn x) = false := by
  simp only [clampnn]
  split_ifs with h
  · exact (lt32_iff.1 h).2.1
  · decide

theorem level_nan {x : F32} (h : isNaN x = true) : level x = false := by simp [level, ge32, h]

@[simp] theorem level_zeroF : level zeroF = false := by decide

/-- An input that is not high gives no edge. -/
theorem risingEdge_of_low {x : F32} (m : Bool) (h : level x = false) : risingEdge m x = false := by
  simp [risingEdge, h]

/-- A held input gives no second edge (40_leaf_utilities.md R128). -/
@[simp] theorem risingEdge_after_high (x y : F32) (h : level x = true) : risingEdge (level x) y = false := by
  simp [risingEdge, h]

/-! ### Magnitudes as units of 2^-149 -/

/-- The units of an encoding without its sign; it goes on above infinity as if exponents did. -/
def magUnits (m : Nat) : Nat :=
  if m < 2 ^ 23 then m else (2 ^ 23 + m % 2 ^ 23) * 2 ^ (m / 2 ^ 23 - 1)

theorem units32_eq (x : F32) : units32 x = magUnits (mag32 x) := rfl

/-- The encoding `k * 2^23 + s` stands for `s * 2^k` units, for every significand `s` that rounding makes. -/
theorem magUnits_enc {k s : Nat} (hs : s ≤ 2 ^ 24) (hk : k ≠ 0 → 2 ^ 23 ≤ s) :
    magUnits (k * 2 ^ 23 + s) = s * 2 ^ k := by
  rcases Nat.lt_or_ge s (2 ^ 23) with h | h
  · have : k = 0 := by by_contra h0; exact absurd (hk h0) (by omega)
    subst this
    rw [magUnits, if_pos (by omega)]; omega
  · rcases Nat.lt_or_ge s (2 ^ 24) with h2 | h2
    · have e1 : k * 2 ^ 23 + s = (s - 2 ^ 23) + 2 ^ 23 * (k + 1) := by omega
      have hmod : (k * 2 ^ 23 + s) % 2 ^ 23 = s - 2 ^ 23 := by
        rw [e1, Nat.add_mul_mod_self_left, Nat.mod_eq_of_lt (by omega)]
      have hdiv : (k * 2 ^ 23 + s) / 2 ^ 23 = k + 1 := by
        rw [e1, Nat.add_mul_div_left _ _ (by norm_num), Nat.div_eq_of_lt (by omega)]; omega
      have hlt : ¬k * 2 ^ 23 + s < 2 ^ 23 := by omega
      rw [magUnits, if_neg hlt, hmod, hdiv, Nat.add_sub_cancel' h, Nat.add_sub_cancel]
    · have e : s = 2 ^ 24 := by omega
      subst e
      have e1 : k * 2 ^ 23 + 2 ^ 24 = 2 ^ 23 * (k + 2) := by ring
      have hlt : ¬k * 2 ^ 23 + 2 ^ 24 < 2 ^ 23 := by omega
      have h24 : (2 : Nat) ^ 24 = 2 ^ 23 * 2 := by norm_num
      rw [magUnits, if_neg hlt, e1, Nat.mul_mod_right, Nat.mul_div_cancel_left _ (by norm_num),
        show k + 2 - 1 = k + 1 from rfl, Nat.add_zero, h24, Nat.mul_assoc, Nat.pow_succ 2 k, Nat.mul_comm (2 ^ k)]

/-- Every encoding stands for a significand of at most 24 bits times a power of two. -/
theorem magUnits_form (m : Nat) :
    ∃ k s, m = k * 2 ^ 23 + s ∧ s < 2 ^ 24 ∧ (k ≠ 0 → 2 ^ 23 ≤ s) ∧ magUnits m = s * 2 ^ k := by
  rcases Nat.lt_or_ge m (2 ^ 23) with h | h
  · exact ⟨0, m, by omega, by omega, by simp, by rw [magUnits, if_pos h]; omega⟩
  · refine ⟨m / 2 ^ 23 - 1, 2 ^ 23 + m % 2 ^ 23, ?_, ?_, ?_, ?_⟩
    · have := Nat.div_add_mod m (2 ^ 23)
      have h1 : 1 ≤ m / 2 ^ 23 := by omega
      omega
    · omega
    · omega
    · rw [magUnits, if_neg (by omega)]

theorem magUnits_strictMono : StrictMono magUnits := by
  refine strictMono_nat_of_lt_succ fun m => ?_
  obtain ⟨k, s, hm, hs, hk, hu⟩ := magUnits_form m
  have : m + 1 = k * 2 ^ 23 + (s + 1) := by omega
  rw [hu, this, magUnits_enc (by omega) (fun h => by have := hk h; omega)]
  exact Nat.mul_lt_mul_of_pos_right (by omega) (by positivity)

theorem magUnits_le_iff {m n : Nat} : magUnits m ≤ magUnits n ↔ m ≤ n := magUnits_strictMono.le_iff_le

theorem magUnits_lt_iff {m n : Nat} : magUnits m < magUnits n ↔ m < n := magUnits_strictMono.lt_iff_lt

@[simp] theorem magUnits_zero : magUnits 0 = 0 := by simp [magUnits]

theorem magUnits_pos {m : Nat} (h : 0 < m) : 0 < magUnits m := by
  have := magUnits_lt_iff.2 h; simpa using this

/-- Every multiple of a power of two with at most 24 significant bits is an encoding's units. -/
theorem exists_magUnits {s : Nat} (hs : s ≤ 2 ^ 24) (e : Nat) : ∃ m, magUnits m = s * 2 ^ e := by
  induction e generalizing s with
  | zero => exact ⟨0 * 2 ^ 23 + s, by rw [magUnits_enc hs (by simp)]⟩
  | succ e ih =>
    rcases Nat.lt_or_ge s (2 ^ 23) with h | h
    · obtain ⟨m, hm⟩ := ih (s := s * 2) (by omega)
      exact ⟨m, by rw [hm, pow_succ]; ring⟩
    · exact ⟨(e + 1) * 2 ^ 23 + s, magUnits_enc hs (fun _ => h)⟩

/-! ### Rounding -/

theorem roundQuotient_le (num den : Nat) : roundQuotient num den ≤ num / den + 1 := by
  simp only [roundQuotient]; split_ifs <;> omega

theorem le_roundQuotient (num den : Nat) : num / den ≤ roundQuotient num den := by
  simp only [roundQuotient]; split_ifs <;> omega

/-- Twice the distance from the quotient is at most one. -/
theorem roundQuotient_near {num den : Nat} (hd : 0 < den) :
    2 * |(num : Int) - roundQuotient num den * den| ≤ den := by
  have hdm : (num : Int) = den * (num / den : Nat) + (num % den : Nat) := by
    exact_mod_cast (Nat.div_add_mod num den).symm
  have hr : num % den < den := Nat.mod_lt _ hd
  simp only [roundQuotient]
  generalize num / den = q at *
  generalize num % den = r at *
  split_ifs with h1 h2
  · rw [hdm, abs_of_nonpos] <;> push_cast <;> nlinarith
  · rcases Nat.mod_two_eq_zero_or_one q with e | e <;> rw [e, hdm]
    · rw [abs_of_nonneg] <;> push_cast <;> nlinarith
    · rw [abs_of_nonpos] <;> push_cast <;> nlinarith
  · rw [hdm, abs_of_nonneg] <;> nlinarith

/-- No whole number is nearer than the rounded quotient. -/
theorem roundQuotient_nearest {num den : Nat} (hd : 0 < den) (j : Int) :
    |(num : Int) - roundQuotient num den * den| ≤ |(num : Int) - j * den| := by
  have h := roundQuotient_near (num := num) hd
  rcases eq_or_ne j (roundQuotient num den : Int) with e | e
  · rw [e]
  · have h1 : 1 ≤ |(roundQuotient num den : Int) - j| := by
      exact Int.one_le_abs (sub_ne_zero.2 (Ne.symm e))
    have h2 : (den : Int) ≤ |((roundQuotient num den : Int) - j) * den| := by
      rw [abs_mul, abs_of_nonneg (Int.natCast_nonneg den)]
      nlinarith [Int.natCast_nonneg den]
    have h3 : |((roundQuotient num den : Int) - j) * den| ≤
        |(num : Int) - j * den| + |(num : Int) - roundQuotient num den * den| := by
      have : ((roundQuotient num den : Int) - j) * den =
        ((num : Int) - j * den) - ((num : Int) - roundQuotient num den * den) := by ring
      rw [this]; exact abs_sub _ _
    linarith

theorem roundQuotient_mono {n1 d1 n2 d2 : Nat} (h1 : 0 < d1) (h2 : 0 < d2) (h : n1 * d2 ≤ n2 * d1) :
    roundQuotient n1 d1 ≤ roundQuotient n2 d2 := by
  have hq : n1 / d1 ≤ n2 / d2 := by
    rw [Nat.le_div_iff_mul_le h2]
    refine Nat.le_of_mul_le_mul_right (c := d1) ?_ h1
    calc n1 / d1 * d2 * d1 = (n1 / d1 * d1) * d2 := by ring
      _ ≤ n1 * d2 := Nat.mul_le_mul_right _ (Nat.div_mul_le_self _ _)
      _ ≤ n2 * d1 := h
  rcases Nat.lt_or_eq_of_le hq with hlt | heq
  · exact le_trans (roundQuotient_le _ _) (le_trans hlt (le_roundQuotient _ _))
  · have e1 := Nat.div_add_mod n1 d1
    have e2 := Nat.div_add_mod n2 d2
    simp only [roundQuotient]
    rw [heq] at *
    generalize n2 / d2 = q at *
    generalize n1 % d1 = r1 at *
    generalize n2 % d2 = r2 at *
    have hr : r1 * d2 ≤ r2 * d1 := by
      have : (d1 * q + r1) * d2 ≤ (d2 * q + r2) * d1 := by rw [e1, e2]; exact h
      nlinarith
    have hp : 0 < d1 * d2 := Nat.mul_pos h1 h2
    have key : 2 * r1 * d2 ≤ 2 * r2 * d1 := by linarith
    have up : d1 < 2 * r1 → d2 < 2 * r2 := by
      intro h; by_contra hc; nlinarith
    have tie : 2 * r1 = d1 → d2 ≤ 2 * r2 := by
      intro h; by_contra hc; nlinarith
    split_ifs <;> omega

/-- The significand and exponent that rounding makes. -/
theorem roundMag_parts {num den : Nat} (hd : 0 < den) :
    let k := excessBits (num / den)
    let s := roundQuotient num (den * 2 ^ k)
    s ≤ 2 ^ 24 ∧ (k ≠ 0 → 2 ^ 23 ≤ s) ∧ (k ≠ 0 → 2 ^ (23 + k) * den ≤ num) ∧
      magUnits (k * 2 ^ 23 + s) = s * 2 ^ k := by
  intro k s
  have hlt : num / den < 2 ^ (24 + k) := by
    rcases eq_or_ne (num / den) 0 with h | h
    · rw [h]; positivity
    · refine lt_of_lt_of_le (Nat.lt_log2_self) (Nat.pow_le_pow_right (by norm_num) ?_)
      simp only [k, excessBits]; omega
  have hs : s ≤ 2 ^ 24 := by
    refine le_trans (roundQuotient_le _ _) ?_
    have : num / (den * 2 ^ k) < 2 ^ 24 := by
      rw [← Nat.div_div_eq_div_mul, Nat.div_lt_iff_lt_mul (by positivity), ← pow_add]
      exact hlt
    omega
  have hge : k ≠ 0 → 2 ^ (23 + k) ≤ num / den := by
    intro hk
    have hne : num / den ≠ 0 := by
      rintro h; apply hk; simp [k, excessBits, h]
    refine le_trans (Nat.pow_le_pow_right (by norm_num) ?_) (Nat.log2_self_le hne)
    simp only [k, excessBits] at hk ⊢; omega
  have hk : k ≠ 0 → 2 ^ 23 ≤ s := by
    intro h0
    refine le_trans ?_ (le_roundQuotient _ _)
    rw [← Nat.div_div_eq_div_mul, Nat.le_div_iff_mul_le (by positivity), ← pow_add]
    exact hge h0
  refine ⟨hs, hk, fun h0 => ?_, magUnits_enc hs hk⟩
  exact (Nat.le_div_iff_mul_le hd).1 (hge h0)

/-- The rounded encoding before infinity caps it. -/
def roundEnc (num den : Nat) : Nat :=
  excessBits (num / den) * 2 ^ 23 + roundQuotient num (den * 2 ^ excessBits (num / den))

theorem roundMag_eq (num den : Nat) : roundMag num den = min infMag (roundEnc num den) := rfl

/-- ROUNDING IS TO NEAREST (R19): no encoding is nearer to num/den than the rounded one. -/
theorem roundEnc_nearest {num den : Nat} (hd : 0 < den) (y : Nat) :
    |(num : Int) - magUnits (roundEnc num den) * den| ≤ |(num : Int) - magUnits y * den| := by
  obtain ⟨hs, hk, hbig, hu⟩ := roundMag_parts (num := num) hd
  rw [roundEnc, hu]
  generalize hkk : excessBits (num / den) = k at *
  have hpos : 0 < den * 2 ^ k := by positivity
  have hnear := fun j => roundQuotient_nearest (num := num) hpos j
  push_cast at hnear
  obtain ⟨k', s', -, hs', hk', hu'⟩ := magUnits_form y
  rcases Nat.lt_or_ge k' k with hlt | hge
  · have hk0 : k ≠ 0 := by omega
    have h1 := hbig hk0
    have h2 : magUnits y ≤ 2 ^ (23 + k) := by
      rw [hu']
      calc s' * 2 ^ k' ≤ 2 ^ 24 * 2 ^ k' := Nat.mul_le_mul_right _ hs'.le
        _ = 2 ^ (23 + (k' + 1)) := by rw [← pow_add]; congr 1; omega
        _ ≤ 2 ^ (23 + k) := Nat.pow_le_pow_right (by norm_num) (by omega)
    have h3 := hnear (2 ^ 23)
    have h4 : (magUnits y : Int) * den ≤ 2 ^ (23 + k) * den := by
      exact_mod_cast Nat.mul_le_mul_right den h2
    have h5 : (2 : Int) ^ (23 + k) * den ≤ num := by exact_mod_cast h1
    have h6 : (2 : Int) ^ 23 * ((den : Int) * 2 ^ k) = 2 ^ (23 + k) * den := by rw [pow_add]; ring
    rw [h6] at h3
    calc |(num : Int) - (roundQuotient num (den * 2 ^ k) * 2 ^ k : Nat) * den|
        = |(num : Int) - roundQuotient num (den * 2 ^ k) * (den * 2 ^ k)| := by
          push_cast; congr 1; ring
      _ ≤ |(num : Int) - 2 ^ (23 + k) * den| := h3
      _ ≤ |(num : Int) - magUnits y * den| := by
          rw [abs_of_nonneg (by linarith), abs_of_nonneg (by linarith)]; linarith
  · have h3 := hnear (s' * 2 ^ (k' - k))
    have h6 : ((s' : Int) * 2 ^ (k' - k)) * ((den : Int) * 2 ^ k) = (magUnits y : Int) * den := by
      have : (2 : Int) ^ k' = 2 ^ (k' - k) * 2 ^ k := by rw [← pow_add]; congr 1; omega
      rw [hu']; push_cast; rw [this]; ring
    rw [h6] at h3
    calc |(num : Int) - (roundQuotient num (den * 2 ^ k) * 2 ^ k : Nat) * den|
        = |(num : Int) - roundQuotient num (den * 2 ^ k) * (den * 2 ^ k)| := by
          push_cast; congr 1; ring
      _ ≤ |(num : Int) - magUnits y * den| := h3

/-- What an encoding stands for exactly rounds to it. -/
theorem roundMag_exact {m den : Nat} (hd : 0 < den) (hm : m ≤ infMag) :
    roundMag (magUnits m * den) den = m := by
  have h := roundEnc_nearest (num := magUnits m * den) hd m
  push_cast at h
  rw [sub_self, abs_zero] at h
  have h1 := abs_nonpos_iff.1 h
  have h2 : magUnits m * den = magUnits (roundEnc (magUnits m * den) den) * den := by
    exact_mod_cast sub_eq_zero.1 h1
  have h3 := magUnits_strictMono.injective (Nat.eq_of_mul_eq_mul_right hd h2)
  rw [roundMag_eq, ← h3, min_eq_right hm]

theorem roundMag_exact_one {m : Nat} (hm : m ≤ infMag) : roundMag (magUnits m) 1 = m := by
  simpa using roundMag_exact (den := 1) (by norm_num) hm

/-- Rounding is monotone. -/
theorem roundMag_mono {n1 d1 n2 d2 : Nat} (h1 : 0 < d1) (h2 : 0 < d2) (h : n1 * d2 ≤ n2 * d1) :
    roundMag n1 d1 ≤ roundMag n2 d2 := by
  rw [roundMag_eq, roundMag_eq]
  refine min_le_min_left _ ?_
  have hq : n1 / d1 ≤ n2 / d2 := by
    rw [Nat.le_div_iff_mul_le h2]
    refine Nat.le_of_mul_le_mul_right (c := d1) ?_ h1
    calc n1 / d1 * d2 * d1 = (n1 / d1 * d1) * d2 := by ring
      _ ≤ n1 * d2 := Nat.mul_le_mul_right _ (Nat.div_mul_le_self _ _)
      _ ≤ n2 * d1 := h
  have hk : excessBits (n1 / d1) ≤ excessBits (n2 / d2) := by
    rcases eq_or_ne (n1 / d1) 0 with e | e
    · simp [excessBits, e]
    · have : (n1 / d1).log2 ≤ (n2 / d2).log2 := by
        have e2 : n2 / d2 ≠ 0 := fun h0 => e (Nat.le_zero.1 (h0 ▸ hq))
        rw [Nat.le_log2 e2]
        exact le_trans (Nat.log2_self_le e) hq
      simp only [excessBits]; omega
  obtain ⟨hs1, -, -, -⟩ := roundMag_parts (num := n1) h1
  obtain ⟨-, hk2, -, -⟩ := roundMag_parts (num := n2) h2
  simp only [roundEnc]
  rcases Nat.lt_or_eq_of_le hk with hlt | heq
  · have := hk2 (by omega)
    omega
  · rw [heq] at hs1 ⊢
    refine Nat.add_le_add_left (roundQuotient_mono (by positivity) (by positivity) ?_) _
    calc n1 * (d2 * 2 ^ excessBits (n2 / d2)) = n1 * d2 * 2 ^ excessBits (n2 / d2) := by ring
      _ ≤ n2 * d1 * 2 ^ excessBits (n2 / d2) := Nat.mul_le_mul_right _ h
      _ = n2 * (d1 * 2 ^ excessBits (n2 / d2)) := by ring

/-- A quotient at most what an encoding stands for rounds to at most that encoding. -/
theorem roundMag_le_of_le {num den m : Nat} (hd : 0 < den) (hm : m ≤ infMag) (h : num ≤ magUnits m * den) :
    roundMag num den ≤ m := by
  have := roundMag_mono (n1 := num) (n2 := magUnits m * den) hd hd (Nat.mul_le_mul_right _ h)
  rwa [roundMag_exact hd hm] at this

@[simp] theorem roundMag_zero {den : Nat} (hd : 0 < den) : roundMag 0 den = 0 := by
  have := roundMag_exact (m := 0) hd (Nat.zero_le _)
  simpa using this

/-! ### Values and the order -/

theorem value32_natAbs (x : F32) : (value32 x).natAbs = magUnits (mag32 x) := by
  simp only [value32, units32_eq]; split_ifs <;> simp

theorem value32_pack32 (n : Bool) {m : Nat} (h : m < 2 ^ 31) :
    value32 (pack32 n m) = if n then -(magUnits m : Int) else magUnits m := by
  simp only [value32, units32_eq, neg32_pack32 _ h, mag32_pack32 _ h]

@[simp] theorem value32_negate32 (x : F32) : value32 (negate32 x) = -value32 x := by
  simp only [value32, units32_eq, mag32_negate32, neg32_negate32]
  cases neg32 x <;> simp

/-- The order of R20 is the order of the values. -/
theorem order32_lt_iff (a b : F32) : order32 a < order32 b ↔ value32 a < value32 b := by
  simp only [order32, value32, units32_eq]
  have hab := magUnits_lt_iff (m := mag32 a) (n := mag32 b)
  have hba := magUnits_lt_iff (m := mag32 b) (n := mag32 a)
  have ha := magUnits_lt_iff (m := 0) (n := mag32 a)
  have hb := magUnits_lt_iff (m := 0) (n := mag32 b)
  simp only [magUnits_zero] at ha hb
  cases neg32 a <;> cases neg32 b <;> simp <;> omega

theorem order32_le_iff (a b : F32) : order32 a ≤ order32 b ↔ value32 a ≤ value32 b := by
  rw [← not_lt, ← not_lt, order32_lt_iff]

theorem lt32_iff_value {a b : F32} (ha : isFinite a = true) (hb : isFinite b = true) :
    lt32 a b = true ↔ value32 a < value32 b := by
  rw [lt32_iff, order32_lt_iff]
  simp [isNaN_eq_false_of_isFinite ha, isNaN_eq_false_of_isFinite hb]

theorem le32_iff_value {a b : F32} (ha : isFinite a = true) (hb : isFinite b = true) :
    le32 a b = true ↔ value32 a ≤ value32 b := by
  rw [le32_iff, order32_le_iff]
  simp [isNaN_eq_false_of_isFinite ha, isNaN_eq_false_of_isFinite hb]

/-! ### Sums -/

/-- A finite sum is the exact sum rounded (R19). -/
theorem add32_finite {a b : F32} (d : Nat) (ha : isFinite a = true) (hb : isFinite b = true) :
    add32 d a b = roundSum (value32 a + value32 b) (neg32 a && neg32 b) := by
  simp [add32, isNaN_eq_false_of_isFinite ha, isNaN_eq_false_of_isFinite hb,
    isInf_eq_false_of_isFinite ha, isInf_eq_false_of_isFinite hb]

/-- A difference of finite values is the exact difference rounded (R19). -/
theorem sub32_finite {a b : F32} (d : Nat) (ha : isFinite a = true) (hb : isFinite b = true) :
    sub32 d a b = roundSum (value32 a - value32 b) (neg32 a && !neg32 b) := by
  rw [sub32, add32_finite d ha (by simpa using hb)]
  simp [sub_eq_add_neg]

/-- The encoding of a rounded sum, without its sign. -/
theorem mag32_roundSum (z : Int) (n : Bool) : mag32 (roundSum z n) = roundMag z.natAbs 1 := by
  simp only [roundSum]
  split_ifs with h
  · subst h; simp
  · rw [mag32_pack32 _ (roundMag_lt _ _)]

theorem neg32_roundSum {z : Int} (n : Bool) (h : z ≠ 0) : neg32 (roundSum z n) = decide (z < 0) := by
  rw [roundSum, if_neg h, neg32_pack32 _ (roundMag_lt _ _)]

/-- A sum within the units of an encoding rounds to within that encoding. -/
theorem mag32_roundSum_le {z : Int} {m : Nat} (n : Bool) (hm : m ≤ infMag) (h : z.natAbs ≤ magUnits m) :
    mag32 (roundSum z n) ≤ m := by
  rw [mag32_roundSum]
  exact roundMag_le_of_le (by norm_num) hm (by simpa using h)

theorem isFinite_roundSum {z : Int} {m : Nat} (n : Bool) (hm : m < infMag) (h : z.natAbs ≤ magUnits m) :
    isFinite (roundSum z n) = true := by
  simp only [isFinite, decide_eq_true_eq]
  exact lt_of_le_of_lt (mag32_roundSum_le n hm.le h) hm

/-- A sum that an encoding stands for exactly is that encoding. -/
theorem roundSum_value {x : F32} (n : Bool) (hx : isFinite x = true) (h0 : value32 x ≠ 0) :
    roundSum (value32 x) n = x := by
  have hm : mag32 x ≤ infMag := by simp [isFinite] at hx; omega
  apply eq_of_neg32_of_mag32
  · rw [neg32_roundSum n h0]
    have hp : 0 < magUnits (mag32 x) := by
      rw [← value32_natAbs]; exact Int.natAbs_pos.2 h0
    have hv : value32 x = if neg32 x then -(magUnits (mag32 x) : Int) else magUnits (mag32 x) := rfl
    rw [hv]
    by_cases hn : neg32 x = true
    · rw [if_pos hn, hn]; simp; omega
    · rw [if_neg hn]; simp at hn; simp [hn]
  · rw [mag32_roundSum, value32_natAbs, roundMag_exact_one hm]

/-! ### The units of the constants -/

theorem oneUnits_eq : oneUnits = magUnits (127 * 2 ^ 23) := by norm_num [oneUnits, magUnits]

theorem value32_oneF : value32 oneF = oneUnits := by decide +kernel

theorem value32_zeroF : value32 zeroF = 0 := by decide

theorem mag32_oneF : mag32 oneF = 127 * 2 ^ 23 := by decide

theorem isFinite_oneF : isFinite oneF = true := by decide

theorem isFinite_zeroF : isFinite zeroF = true := by decide

/-- A value from 0 to below 1 is finite. -/
theorem isFinite_of_inUnitInterval {x : F32} (h : inUnitInterval x) : isFinite x = true := by
  obtain ⟨-, hx, h3⟩ := le32_iff.1 h.1
  have h4 := (lt32_iff.1 h.2).2.2
  simp only [isFinite, decide_eq_true_eq]
  have e : order32 oneF = 127 * 2 ^ 23 := by decide
  have e0 : order32 zeroF = 0 := by decide
  rw [e] at h4
  rw [e0] at h3
  simp only [order32] at h3 h4
  simp only [infMag]
  split_ifs at h3 h4 <;> omega

theorem inUnitInterval_iff_value {x : F32} (h : isFinite x = true) :
    inUnitInterval x ↔ 0 ≤ value32 x ∧ value32 x < oneUnits := by
  rw [inUnitInterval, le32_iff_value isFinite_zeroF h, lt32_iff_value h isFinite_oneF, value32_oneF, value32_zeroF]

/-! ### floor32 and Wrap -/

/-- A whole number of ones below infinity's units, or made of few bits, is an encoding's units. -/
theorem exists_magUnits_ones {n : Nat} (h : n ≤ 2 ^ 24) : ∃ m, m ≤ infMag ∧ magUnits m = n * oneUnits := by
  obtain ⟨m, hm⟩ := exists_magUnits h 149
  refine ⟨m, ?_, by rw [hm, oneUnits]⟩
  rw [← magUnits_le_iff, hm]
  calc n * 2 ^ 149 ≤ 2 ^ 24 * 2 ^ 149 := Nat.mul_le_mul_right _ h
    _ ≤ magUnits infMag := by norm_num [magUnits, infMag]

/-- Rounding a finite value's units down or up to whole ones gives units of an encoding. -/
theorem exists_magUnits_whole {m n : Nat} (hm : m < infMag) (hn : n = magUnits m / oneUnits ∨
    n = (magUnits m + (oneUnits - 1)) / oneUnits) : ∃ m', m' ≤ infMag ∧ magUnits m' = n * oneUnits := by
  obtain ⟨k, s, hmk, hs, hk, hu⟩ := magUnits_form m
  rcases Nat.lt_or_ge k 149 with hlt | hge
  · refine exists_magUnits_ones ?_
    have h1 : magUnits m ≤ 2 ^ 24 * oneUnits := by
      rw [hu, oneUnits]
      exact Nat.mul_le_mul hs.le (Nat.pow_le_pow_right (by norm_num) hlt.le)
    have hp : 0 < oneUnits := by norm_num [oneUnits]
    rcases hn with rfl | rfl
    · exact Nat.div_le_of_le_mul (by rw [Nat.mul_comm]; exact h1)
    · refine Nat.le_of_lt_succ ((Nat.div_lt_iff_lt_mul hp).2 ?_)
      have : (2 ^ 24 + 1) * oneUnits = 2 ^ 24 * oneUnits + oneUnits := by ring
      rw [Nat.succ_eq_add_one, this]; omega
  · refine ⟨m, hm.le, ?_⟩
    have hd : magUnits m = s * 2 ^ (k - 149) * oneUnits := by
      rw [hu, oneUnits, Nat.mul_assoc, ← pow_add]; congr 2; omega
    have hp : 0 < oneUnits := by norm_num [oneUnits]
    rcases hn with rfl | rfl
    · rw [hd, Nat.mul_div_cancel _ hp]
    · have : (s * 2 ^ (k - 149) * oneUnits + (oneUnits - 1)) / oneUnits = s * 2 ^ (k - 149) := by
        rw [Nat.add_comm, Nat.add_mul_div_right _ _ hp, Nat.div_eq_of_lt (by omega)]; omega
      rw [hd, this]

theorem oneUnits_pos : 0 < oneUnits := by norm_num [oneUnits]

/-- floor32 of a finite value is not NaN, and its value is the floor in whole ones (R20). -/
theorem value32_floor32 {x : F32} (h : isFinite x = true) :
    isNaN (floor32 x) = false ∧ value32 (floor32 x) = value32 x / oneUnits * oneUnits := by
  have hm : mag32 x < infMag := by simpa [isFinite] using h
  have hp : (0 : Int) < oneUnits := by exact_mod_cast oneUnits_pos
  simp only [floor32, h, Bool.not_true, Bool.false_eq_true, if_false, units32_eq]
  cases hn : neg32 x
  · obtain ⟨m', hm', hu⟩ := exists_magUnits_whole hm (.inl rfl)
    simp only [Bool.false_eq_true, if_false]
    rw [← hu, roundMag_exact_one hm']
    have hlt : m' < 2 ^ 31 := lt_of_le_of_lt hm' infMag_lt
    refine ⟨by simp only [isNaN, mag32_pack32 _ hlt]; simpa using hm', ?_⟩
    rw [value32_pack32 _ hlt]
    simp [hu, value32, hn, units32_eq]
  · obtain ⟨m', hm', hu⟩ := exists_magUnits_whole hm (.inr rfl)
    simp only [if_true]
    rw [← hu, roundMag_exact_one hm']
    have hlt : m' < 2 ^ 31 := lt_of_le_of_lt hm' infMag_lt
    refine ⟨by simp only [isNaN, mag32_pack32 _ hlt]; simpa using hm', ?_⟩
    rw [value32_pack32 _ hlt]
    simp only [if_true, hu, value32, hn, units32_eq]
    push_cast
    generalize magUnits (mag32 x) = u
    have e : ((oneUnits - 1 : Nat) : Int) = (oneUnits : Int) - 1 := by
      rw [Nat.cast_sub oneUnits_pos]; simp
    rw [e, ← Int.neg_mul]
    congr 1
    generalize (oneUnits : Int) = o at hp
    have h1 := Int.emod_add_mul_ediv (u + (o - 1)) o
    have h2 := Int.emod_nonneg (u + (o - 1)) hp.ne'
    have h3 := Int.emod_lt_of_pos (u + (o - 1)) hp
    symm
    rw [Int.ediv_eq_iff_of_pos hp]
    constructor <;> nlinarith

end Sys2Proof.Machine
end

