-- ==== Sys2Proof/Laws/Memory.lean ====
section
/-! SUPPORT. The laws of the sample memory: read after write, what a write leaves alone, the canonical form. -/

namespace Sys2Proof.Machine

theorem Memory.find_setByte (m : Memory) (a b : Nat) (v : Byte) :
    Memory.find (Memory.setByte m a v) b = if b = a then some v else Memory.find m b := by
  induction m with
  | nil => simp [Memory.setByte, Memory.find]
  | cons c rest ih =>
    obtain ⟨c, w⟩ := c
    rcases lt_trichotomy a c with h | h | h
    · simp [Memory.setByte, Memory.find, h]
    · subst h
      by_cases hb : b = a <;> simp [Memory.setByte, Memory.find, hb]
    · have hne : a ≠ c := Nat.ne_of_gt h
      by_cases hb : b = c
      · subst hb
        simp [Memory.setByte, Memory.find, Nat.lt_asymm h, hne, Ne.symm hne]
      · simp [Memory.setByte, Memory.find, Nat.lt_asymm h, hne, hb, ih]

@[simp] theorem Memory.byteAt_setByte (e : Nat) (m : Memory) (a b : Nat) (v : Byte) :
    Memory.byteAt e (Memory.setByte m a v) b = if b = a then v else Memory.byteAt e m b := by
  simp only [Memory.byteAt, Memory.find_setByte]
  split_ifs <;> simp

/-- Every entry after a write is the one written or was there before. -/
theorem Memory.mem_setByte {m : Memory} {a : Nat} {v : Byte} {c : Host.Cell}
    (h : c ∈ Memory.setByte m a v) : c = (a, v) ∨ c ∈ m := by
  induction m with
  | nil => simpa [Memory.setByte] using h
  | cons d rest ih =>
    obtain ⟨d, w⟩ := d
    simp only [Memory.setByte] at h
    split_ifs at h with h1 h2
    · simpa using h
    · rcases List.mem_cons.1 h with h | h
      · exact .inl h
      · exact .inr (List.mem_cons_of_mem _ h)
    · rcases List.mem_cons.1 h with h | h
      · exact .inr (h ▸ List.mem_cons_self)
      · exact (ih h).imp id (List.mem_cons_of_mem _)

/-- A byte write keeps the canonical form. -/
theorem Memory.wf_setByte {m : Memory} (h : Memory.wf m) (a : Nat) (v : Byte) :
    Memory.wf (Memory.setByte m a v) := by
  induction m with
  | nil => simp [Memory.setByte, Memory.wf]
  | cons d rest ih =>
    obtain ⟨d, w⟩ := d
    obtain ⟨hd, hrest⟩ := List.pairwise_cons.1 h
    simp only [Memory.setByte]
    split_ifs with h1 h2
    · refine List.pairwise_cons.2 ⟨?_, h⟩
      intro c hc
      rcases List.mem_cons.1 hc with rfl | hc
      · exact h1
      · exact lt_trans h1 (hd c hc)
    · subst h2
      exact List.pairwise_cons.2 ⟨hd, hrest⟩
    · refine List.pairwise_cons.2 ⟨?_, ih hrest⟩
      intro c hc
      rcases Memory.mem_setByte hc with rfl | hc
      · exact lt_of_le_of_ne (not_lt.1 h1) (Ne.symm h2)
      · exact hd c hc

/-- The byte at an address after `n` bytes were written from `a` on. -/
theorem Memory.byteAt_writeLE (e : Nat) (m : Memory) (a n v b : Nat) :
    Memory.byteAt e (Memory.writeLE m a n v) b =
      if a ≤ b ∧ b < a + n then BitVec.ofNat 8 (v / 256 ^ (b - a)) else Memory.byteAt e m b := by
  induction n generalizing m a v with
  | zero => simp [Memory.writeLE]
  | succ n ih =>
    simp only [Memory.writeLE, ih, Memory.byteAt_setByte]
    by_cases h1 : a + 1 ≤ b ∧ b < a + 1 + n
    · have h2 : a ≤ b ∧ b < a + (n + 1) := by omega
      have h3 : b - a = (b - (a + 1)) + 1 := by omega
      simp only [h1, h2, and_self, if_true, h3, pow_succ]
      rw [Nat.div_div_eq_div_mul, Nat.mul_comm]
    · by_cases h2 : b = a
      · subst h2
        simp
      · have h3 : ¬(a ≤ b ∧ b < a + (n + 1)) := by omega
        rw [if_neg h1, if_neg h2, if_neg h3]

/-- Bytes outside those written are left alone. -/
theorem Memory.byteAt_writeLE_outside (e : Nat) (m : Memory) {a n b : Nat} (v : Nat)
    (h : b < a ∨ a + n ≤ b) : Memory.byteAt e (Memory.writeLE m a n v) b = Memory.byteAt e m b := by
  rw [Memory.byteAt_writeLE, if_neg (by omega)]

/-- What is read depends on the bytes read alone. -/
theorem Memory.readLE_congr {e e' : Nat} {m m' : Memory} {a n : Nat}
    (h : ∀ b, a ≤ b → b < a + n → Memory.byteAt e m b = Memory.byteAt e' m' b) :
    Memory.readLE e m a n = Memory.readLE e' m' a n := by
  induction n generalizing a with
  | zero => rfl
  | succ n ih =>
    simp only [Memory.readLE]
    rw [h a (by omega) (by omega), ih fun b h1 h2 => h b (by omega) (by omega)]

theorem Memory.readLE_writeLE (e : Nat) (m : Memory) (a n v : Nat) :
    Memory.readLE e (Memory.writeLE m a n v) a n = v % 256 ^ n := by
  induction n generalizing m a v with
  | zero => simp [Memory.readLE, Nat.mod_one]
  | succ n ih =>
    simp only [Memory.readLE, Memory.writeLE, ih]
    rw [Memory.byteAt_writeLE_outside _ _ _ (by omega), Memory.byteAt_setByte, if_pos rfl]
    rw [pow_succ, Nat.mul_comm, Nat.mul_comm (256 ^ n), Nat.mod_mul]
    simp [BitVec.toNat_ofNat, Nat.mul_comm]

/-- A word read where a word was written is that word. -/
@[simp] theorem Memory.read32_write32 (e : Nat) (m : Memory) (a : Nat) (v : Word) :
    Memory.read32 e (Memory.write32 m a v) a = v := by
  have hv := v.isLt
  apply BitVec.eq_of_toNat_eq
  simp only [Memory.read32, Memory.write32, Memory.readLE_writeLE, BitVec.toNat_ofNat]
  omega

/-- A word read apart from where a word was written is the old one. -/
theorem Memory.read32_write32_apart (e : Nat) (m : Memory) {a b : Nat} (v : Word)
    (h : b + 4 ≤ a ∨ a + 4 ≤ b) :
    Memory.read32 e (Memory.write32 m a v) b = Memory.read32 e m b := by
  simp only [Memory.read32, Memory.write32]
  rw [Memory.readLE_congr]
  intro c h1 h2
  exact Memory.byteAt_writeLE_outside _ _ _ (by omega)

theorem Memory.byteAt_write32_outside (e : Nat) (m : Memory) {a b : Nat} (v : Word)
    (h : b < a ∨ a + 4 ≤ b) : Memory.byteAt e (Memory.write32 m a v) b = Memory.byteAt e m b :=
  Memory.byteAt_writeLE_outside e m _ h

/-- Equal bytes give equal words. -/
theorem Memory.read32_congr {e e' : Nat} {m m' : Memory} {a : Nat}
    (h : ∀ b, a ≤ b → b < a + 4 → Memory.byteAt e m b = Memory.byteAt e' m' b) :
    Memory.read32 e m a = Memory.read32 e' m' a := by
  simp only [Memory.read32, Memory.readLE_congr h]

/-! ### The canonical form is kept, within the memory's size -/

/-- Canonical, with every written byte below `size`. -/
def Memory.Within (size : Nat) (m : Memory) : Prop := Memory.wf m ∧ ∀ c ∈ m, c.1 < size

theorem Memory.within_nil (size : Nat) : Memory.Within size [] :=
  ⟨List.Pairwise.nil, by simp⟩

theorem Memory.within_writeLE {size : Nat} {m : Memory} (h : Memory.Within size m) (a n v : Nat)
    (hs : a + n ≤ size) : Memory.Within size (Memory.writeLE m a n v) := by
  induction n generalizing m a v with
  | zero => exact h
  | succ n ih =>
    refine ih ⟨Memory.wf_setByte h.1 _ _, fun c hc => ?_⟩ _ _ (by omega)
    rcases Memory.mem_setByte hc with rfl | hc
    · simp only; omega
    · exact h.2 c hc

theorem Memory.wf_writeLE {m : Memory} (h : Memory.wf m) (a n v : Nat) :
    Memory.wf (Memory.writeLE m a n v) := by
  induction n generalizing m a v with
  | zero => exact h
  | succ n ih => exact ih (Memory.wf_setByte h _ _) _ _

theorem Memory.wf_write32 {m : Memory} (h : Memory.wf m) (a : Nat) (v : Word) :
    Memory.wf (Memory.write32 m a v) := Memory.wf_writeLE h _ _ _

theorem Memory.within_write32 {size : Nat} {m : Memory} (h : Memory.Within size m) (a : Nat) (v : Word)
    (hs : a + 4 ≤ size) : Memory.Within size (Memory.write32 m a v) :=
  Memory.within_writeLE h _ _ _ hs

end Sys2Proof.Machine
end

