-- ==== Sys2Proof/Laws/State.lean ====
section
/-! SUPPORT. One lemma per field per named update of the state, so that no later proof unfolds a record update,
and the laws of the five slot arrays. -/

namespace Sys2Proof.Machine

/-! ### State.complete -/

@[simp] theorem State.complete_status (s : State) : (s.complete).status = s.status.completed := rfl
@[simp] theorem State.complete_args (s : State) : (s.complete).args = s.args := rfl
@[simp] theorem State.complete_osc (s : State) : (s.complete).osc = s.osc := rfl
@[simp] theorem State.complete_lfo (s : State) : (s.complete).lfo = s.lfo := rfl
@[simp] theorem State.complete_env (s : State) : (s.complete).env = s.env := rfl
@[simp] theorem State.complete_clk (s : State) : (s.complete).clk = s.clk := rfl
@[simp] theorem State.complete_seq (s : State) : (s.complete).seq = s.seq := rfl
@[simp] theorem State.complete_memBytes (s : State) : (s.complete).memBytes = s.memBytes := rfl
@[simp] theorem State.complete_mem (s : State) : (s.complete).mem = s.mem := rfl
@[simp] theorem State.complete_powerOns (s : State) : (s.complete).powerOns = s.powerOns := rfl
@[simp] theorem State.complete_draws (s : State) : (s.complete).draws = s.draws := rfl
@[simp] theorem State.complete_readData (s : State) : (s.complete).readData = s.readData := rfl
@[simp] theorem State.complete_host (s : State) : (s.complete).host = s.host := rfl
@[simp] theorem State.complete_arg (s : State) (j : Fin 16) : (s.complete).arg j = s.arg j := rfl
@[simp] theorem State.complete_length (s : State) : (s.complete).length = s.length := rfl
@[simp] theorem State.complete_params (s : State) : (s.complete).params = s.params := rfl
@[simp] theorem State.complete_readByte (s : State) (a : Nat) : s.complete.readByte a = s.readByte a := rfl

/-! ### State.refuse -/

@[simp] theorem State.refuse_status (s : State) (c : Cause) (k : Nat) : (s.refuse c k).status = s.status.refused c k := rfl
@[simp] theorem State.refuse_args (s : State) (c : Cause) (k : Nat) : (s.refuse c k).args = s.args := rfl
@[simp] theorem State.refuse_osc (s : State) (c : Cause) (k : Nat) : (s.refuse c k).osc = s.osc := rfl
@[simp] theorem State.refuse_lfo (s : State) (c : Cause) (k : Nat) : (s.refuse c k).lfo = s.lfo := rfl
@[simp] theorem State.refuse_env (s : State) (c : Cause) (k : Nat) : (s.refuse c k).env = s.env := rfl
@[simp] theorem State.refuse_clk (s : State) (c : Cause) (k : Nat) : (s.refuse c k).clk = s.clk := rfl
@[simp] theorem State.refuse_seq (s : State) (c : Cause) (k : Nat) : (s.refuse c k).seq = s.seq := rfl
@[simp] theorem State.refuse_memBytes (s : State) (c : Cause) (k : Nat) : (s.refuse c k).memBytes = s.memBytes := rfl
@[simp] theorem State.refuse_mem (s : State) (c : Cause) (k : Nat) : (s.refuse c k).mem = s.mem := rfl
@[simp] theorem State.refuse_powerOns (s : State) (c : Cause) (k : Nat) : (s.refuse c k).powerOns = s.powerOns := rfl
@[simp] theorem State.refuse_draws (s : State) (c : Cause) (k : Nat) : (s.refuse c k).draws = s.draws := rfl
@[simp] theorem State.refuse_readData (s : State) (c : Cause) (k : Nat) : (s.refuse c k).readData = s.readData := rfl
@[simp] theorem State.refuse_host (s : State) (c : Cause) (k : Nat) : (s.refuse c k).host = s.host := rfl
@[simp] theorem State.refuse_arg (s : State) (c : Cause) (k : Nat) (j : Fin 16) : (s.refuse c k).arg j = s.arg j := rfl
@[simp] theorem State.refuse_length (s : State) (c : Cause) (k : Nat) : (s.refuse c k).length = s.length := rfl
@[simp] theorem State.refuse_params (s : State) (c : Cause) (k : Nat) : (s.refuse c k).params = s.params := rfl
@[simp] theorem State.refuse_readByte (s : State) (c : Cause) (k a : Nat) : (s.refuse c k).readByte a = s.readByte a := rfl

/-! ### State.setArg -/

@[simp] theorem State.setArg_status (s : State) (k : Fin 16) (v : Word) : (s.setArg k v).status = s.status := rfl
@[simp] theorem State.setArg_args (s : State) (k : Fin 16) (v : Word) : (s.setArg k v).args = s.args.set k v := rfl
@[simp] theorem State.setArg_osc (s : State) (k : Fin 16) (v : Word) : (s.setArg k v).osc = s.osc := rfl
@[simp] theorem State.setArg_lfo (s : State) (k : Fin 16) (v : Word) : (s.setArg k v).lfo = s.lfo := rfl
@[simp] theorem State.setArg_env (s : State) (k : Fin 16) (v : Word) : (s.setArg k v).env = s.env := rfl
@[simp] theorem State.setArg_clk (s : State) (k : Fin 16) (v : Word) : (s.setArg k v).clk = s.clk := rfl
@[simp] theorem State.setArg_seq (s : State) (k : Fin 16) (v : Word) : (s.setArg k v).seq = s.seq := rfl
@[simp] theorem State.setArg_memBytes (s : State) (k : Fin 16) (v : Word) : (s.setArg k v).memBytes = s.memBytes := rfl
@[simp] theorem State.setArg_mem (s : State) (k : Fin 16) (v : Word) : (s.setArg k v).mem = s.mem := rfl
@[simp] theorem State.setArg_powerOns (s : State) (k : Fin 16) (v : Word) : (s.setArg k v).powerOns = s.powerOns := rfl
@[simp] theorem State.setArg_draws (s : State) (k : Fin 16) (v : Word) : (s.setArg k v).draws = s.draws := rfl
@[simp] theorem State.setArg_readData (s : State) (k : Fin 16) (v : Word) : (s.setArg k v).readData = s.readData := rfl
@[simp] theorem State.setArg_host (s : State) (k : Fin 16) (v : Word) : (s.setArg k v).host = s.host := rfl
@[simp] theorem State.setArg_params (s : State) (k : Fin 16) (v : Word) : (s.setArg k v).params = s.params := rfl
@[simp] theorem State.setArg_readByte (s : State) (k : Fin 16) (v : Word) (a : Nat) : (s.setArg k v).readByte a = s.readByte a := rfl

/-! ### oscArray_set -/

@[simp] theorem oscArray_set_status (s : State) (l : List (Slot OscState)) : (oscArray.set s l).status = s.status := rfl
@[simp] theorem oscArray_set_args (s : State) (l : List (Slot OscState)) : (oscArray.set s l).args = s.args := rfl
@[simp] theorem oscArray_set_osc (s : State) (l : List (Slot OscState)) : (oscArray.set s l).osc = l := rfl
@[simp] theorem oscArray_set_lfo (s : State) (l : List (Slot OscState)) : (oscArray.set s l).lfo = s.lfo := rfl
@[simp] theorem oscArray_set_env (s : State) (l : List (Slot OscState)) : (oscArray.set s l).env = s.env := rfl
@[simp] theorem oscArray_set_clk (s : State) (l : List (Slot OscState)) : (oscArray.set s l).clk = s.clk := rfl
@[simp] theorem oscArray_set_seq (s : State) (l : List (Slot OscState)) : (oscArray.set s l).seq = s.seq := rfl
@[simp] theorem oscArray_set_memBytes (s : State) (l : List (Slot OscState)) : (oscArray.set s l).memBytes = s.memBytes := rfl
@[simp] theorem oscArray_set_mem (s : State) (l : List (Slot OscState)) : (oscArray.set s l).mem = s.mem := rfl
@[simp] theorem oscArray_set_powerOns (s : State) (l : List (Slot OscState)) : (oscArray.set s l).powerOns = s.powerOns := rfl
@[simp] theorem oscArray_set_draws (s : State) (l : List (Slot OscState)) : (oscArray.set s l).draws = s.draws := rfl
@[simp] theorem oscArray_set_readData (s : State) (l : List (Slot OscState)) : (oscArray.set s l).readData = s.readData := rfl
@[simp] theorem oscArray_set_host (s : State) (l : List (Slot OscState)) : (oscArray.set s l).host = s.host := rfl
@[simp] theorem oscArray_get (s : State) : oscArray.get s = s.osc := rfl
@[simp] theorem oscArray_set_arg (s : State) (l : List (Slot OscState)) (j : Fin 16) : (oscArray.set s l).arg j = s.arg j := rfl
@[simp] theorem oscArray_set_readByte (s : State) (l : List (Slot OscState)) (a : Nat) : (oscArray.set s l).readByte a = s.readByte a := rfl

/-! ### lfoArray_set -/

@[simp] theorem lfoArray_set_status (s : State) (l : List (Slot LfoState)) : (lfoArray.set s l).status = s.status := rfl
@[simp] theorem lfoArray_set_args (s : State) (l : List (Slot LfoState)) : (lfoArray.set s l).args = s.args := rfl
@[simp] theorem lfoArray_set_osc (s : State) (l : List (Slot LfoState)) : (lfoArray.set s l).osc = s.osc := rfl
@[simp] theorem lfoArray_set_lfo (s : State) (l : List (Slot LfoState)) : (lfoArray.set s l).lfo = l := rfl
@[simp] theorem lfoArray_set_env (s : State) (l : List (Slot LfoState)) : (lfoArray.set s l).env = s.env := rfl
@[simp] theorem lfoArray_set_clk (s : State) (l : List (Slot LfoState)) : (lfoArray.set s l).clk = s.clk := rfl
@[simp] theorem lfoArray_set_seq (s : State) (l : List (Slot LfoState)) : (lfoArray.set s l).seq = s.seq := rfl
@[simp] theorem lfoArray_set_memBytes (s : State) (l : List (Slot LfoState)) : (lfoArray.set s l).memBytes = s.memBytes := rfl
@[simp] theorem lfoArray_set_mem (s : State) (l : List (Slot LfoState)) : (lfoArray.set s l).mem = s.mem := rfl
@[simp] theorem lfoArray_set_powerOns (s : State) (l : List (Slot LfoState)) : (lfoArray.set s l).powerOns = s.powerOns := rfl
@[simp] theorem lfoArray_set_draws (s : State) (l : List (Slot LfoState)) : (lfoArray.set s l).draws = s.draws := rfl
@[simp] theorem lfoArray_set_readData (s : State) (l : List (Slot LfoState)) : (lfoArray.set s l).readData = s.readData := rfl
@[simp] theorem lfoArray_set_host (s : State) (l : List (Slot LfoState)) : (lfoArray.set s l).host = s.host := rfl
@[simp] theorem lfoArray_get (s : State) : lfoArray.get s = s.lfo := rfl
@[simp] theorem lfoArray_set_arg (s : State) (l : List (Slot LfoState)) (j : Fin 16) : (lfoArray.set s l).arg j = s.arg j := rfl
@[simp] theorem lfoArray_set_readByte (s : State) (l : List (Slot LfoState)) (a : Nat) : (lfoArray.set s l).readByte a = s.readByte a := rfl

/-! ### envArray_set -/

@[simp] theorem envArray_set_status (s : State) (l : List (Slot EnvState)) : (envArray.set s l).status = s.status := rfl
@[simp] theorem envArray_set_args (s : State) (l : List (Slot EnvState)) : (envArray.set s l).args = s.args := rfl
@[simp] theorem envArray_set_osc (s : State) (l : List (Slot EnvState)) : (envArray.set s l).osc = s.osc := rfl
@[simp] theorem envArray_set_lfo (s : State) (l : List (Slot EnvState)) : (envArray.set s l).lfo = s.lfo := rfl
@[simp] theorem envArray_set_env (s : State) (l : List (Slot EnvState)) : (envArray.set s l).env = l := rfl
@[simp] theorem envArray_set_clk (s : State) (l : List (Slot EnvState)) : (envArray.set s l).clk = s.clk := rfl
@[simp] theorem envArray_set_seq (s : State) (l : List (Slot EnvState)) : (envArray.set s l).seq = s.seq := rfl
@[simp] theorem envArray_set_memBytes (s : State) (l : List (Slot EnvState)) : (envArray.set s l).memBytes = s.memBytes := rfl
@[simp] theorem envArray_set_mem (s : State) (l : List (Slot EnvState)) : (envArray.set s l).mem = s.mem := rfl
@[simp] theorem envArray_set_powerOns (s : State) (l : List (Slot EnvState)) : (envArray.set s l).powerOns = s.powerOns := rfl
@[simp] theorem envArray_set_draws (s : State) (l : List (Slot EnvState)) : (envArray.set s l).draws = s.draws := rfl
@[simp] theorem envArray_set_readData (s : State) (l : List (Slot EnvState)) : (envArray.set s l).readData = s.readData := rfl
@[simp] theorem envArray_set_host (s : State) (l : List (Slot EnvState)) : (envArray.set s l).host = s.host := rfl
@[simp] theorem envArray_get (s : State) : envArray.get s = s.env := rfl
@[simp] theorem envArray_set_arg (s : State) (l : List (Slot EnvState)) (j : Fin 16) : (envArray.set s l).arg j = s.arg j := rfl
@[simp] theorem envArray_set_readByte (s : State) (l : List (Slot EnvState)) (a : Nat) : (envArray.set s l).readByte a = s.readByte a := rfl

/-! ### clkArray_set -/

@[simp] theorem clkArray_set_status (s : State) (l : List (Slot ClkState)) : (clkArray.set s l).status = s.status := rfl
@[simp] theorem clkArray_set_args (s : State) (l : List (Slot ClkState)) : (clkArray.set s l).args = s.args := rfl
@[simp] theorem clkArray_set_osc (s : State) (l : List (Slot ClkState)) : (clkArray.set s l).osc = s.osc := rfl
@[simp] theorem clkArray_set_lfo (s : State) (l : List (Slot ClkState)) : (clkArray.set s l).lfo = s.lfo := rfl
@[simp] theorem clkArray_set_env (s : State) (l : List (Slot ClkState)) : (clkArray.set s l).env = s.env := rfl
@[simp] theorem clkArray_set_clk (s : State) (l : List (Slot ClkState)) : (clkArray.set s l).clk = l := rfl
@[simp] theorem clkArray_set_seq (s : State) (l : List (Slot ClkState)) : (clkArray.set s l).seq = s.seq := rfl
@[simp] theorem clkArray_set_memBytes (s : State) (l : List (Slot ClkState)) : (clkArray.set s l).memBytes = s.memBytes := rfl
@[simp] theorem clkArray_set_mem (s : State) (l : List (Slot ClkState)) : (clkArray.set s l).mem = s.mem := rfl
@[simp] theorem clkArray_set_powerOns (s : State) (l : List (Slot ClkState)) : (clkArray.set s l).powerOns = s.powerOns := rfl
@[simp] theorem clkArray_set_draws (s : State) (l : List (Slot ClkState)) : (clkArray.set s l).draws = s.draws := rfl
@[simp] theorem clkArray_set_readData (s : State) (l : List (Slot ClkState)) : (clkArray.set s l).readData = s.readData := rfl
@[simp] theorem clkArray_set_host (s : State) (l : List (Slot ClkState)) : (clkArray.set s l).host = s.host := rfl
@[simp] theorem clkArray_get (s : State) : clkArray.get s = s.clk := rfl
@[simp] theorem clkArray_set_arg (s : State) (l : List (Slot ClkState)) (j : Fin 16) : (clkArray.set s l).arg j = s.arg j := rfl
@[simp] theorem clkArray_set_readByte (s : State) (l : List (Slot ClkState)) (a : Nat) : (clkArray.set s l).readByte a = s.readByte a := rfl

/-! ### seqArray_set -/

@[simp] theorem seqArray_set_status (s : State) (l : List (Slot SeqState)) : (seqArray.set s l).status = s.status := rfl
@[simp] theorem seqArray_set_args (s : State) (l : List (Slot SeqState)) : (seqArray.set s l).args = s.args := rfl
@[simp] theorem seqArray_set_osc (s : State) (l : List (Slot SeqState)) : (seqArray.set s l).osc = s.osc := rfl
@[simp] theorem seqArray_set_lfo (s : State) (l : List (Slot SeqState)) : (seqArray.set s l).lfo = s.lfo := rfl
@[simp] theorem seqArray_set_env (s : State) (l : List (Slot SeqState)) : (seqArray.set s l).env = s.env := rfl
@[simp] theorem seqArray_set_clk (s : State) (l : List (Slot SeqState)) : (seqArray.set s l).clk = s.clk := rfl
@[simp] theorem seqArray_set_seq (s : State) (l : List (Slot SeqState)) : (seqArray.set s l).seq = l := rfl
@[simp] theorem seqArray_set_memBytes (s : State) (l : List (Slot SeqState)) : (seqArray.set s l).memBytes = s.memBytes := rfl
@[simp] theorem seqArray_set_mem (s : State) (l : List (Slot SeqState)) : (seqArray.set s l).mem = s.mem := rfl
@[simp] theorem seqArray_set_powerOns (s : State) (l : List (Slot SeqState)) : (seqArray.set s l).powerOns = s.powerOns := rfl
@[simp] theorem seqArray_set_draws (s : State) (l : List (Slot SeqState)) : (seqArray.set s l).draws = s.draws := rfl
@[simp] theorem seqArray_set_readData (s : State) (l : List (Slot SeqState)) : (seqArray.set s l).readData = s.readData := rfl
@[simp] theorem seqArray_set_host (s : State) (l : List (Slot SeqState)) : (seqArray.set s l).host = s.host := rfl
@[simp] theorem seqArray_get (s : State) : seqArray.get s = s.seq := rfl
@[simp] theorem seqArray_set_arg (s : State) (l : List (Slot SeqState)) (j : Fin 16) : (seqArray.set s l).arg j = s.arg j := rfl
@[simp] theorem seqArray_set_readByte (s : State) (l : List (Slot SeqState)) (a : Nat) : (seqArray.set s l).readByte a = s.readByte a := rfl

/-! ### ARG registers after a write -/

@[simp] theorem State.setArg_arg_self (s : State) (k : Fin 16) (v : Word) : (s.setArg k v).arg k = v := by
  simp [State.arg, State.setArg]

theorem State.setArg_arg_ne (s : State) {k j : Fin 16} (v : Word) (h : k ≠ j) : (s.setArg k v).arg j = s.arg j := by
  have : k.val ≠ j.val := fun e => h (Fin.ext e)
  simp [State.arg, State.setArg, this]

/-! ### What the five slot arrays have in common -/

/-- A slot array reads what it wrote, and its write changes no field but the array's own. -/
structure SlotArray.Lawful {α : Type} (A : SlotArray α) : Prop where
  get_set : ∀ s l, A.get (A.set s l) = l
  get_status : ∀ (s : State) t, A.get { s with status := t } = A.get s
  get_mem : ∀ (s : State) m d, A.get { s with mem := m, draws := d } = A.get s
  set_status : ∀ s l, (A.set s l).status = s.status
  set_args : ∀ s l, (A.set s l).args = s.args
  set_memBytes : ∀ s l, (A.set s l).memBytes = s.memBytes
  set_mem : ∀ s l, (A.set s l).mem = s.mem
  set_powerOns : ∀ s l, (A.set s l).powerOns = s.powerOns
  set_draws : ∀ s l, (A.set s l).draws = s.draws
  set_readData : ∀ s l, (A.set s l).readData = s.readData
  set_host : ∀ s l, (A.set s l).host = s.host
  /-- Writing an array as long as the one there keeps the parameters. -/
  set_params : ∀ s l, l.length = (A.get s).length → (A.set s l).params = s.params

theorem oscArray_lawful : oscArray.Lawful where
  get_set _ _ := rfl
  get_status _ _ := rfl
  get_mem _ _ _ := rfl
  set_status _ _ := rfl
  set_args _ _ := rfl
  set_memBytes _ _ := rfl
  set_mem _ _ := rfl
  set_powerOns _ _ := rfl
  set_draws _ _ := rfl
  set_readData _ _ := rfl
  set_host _ _ := rfl
  set_params s l h := by simp [State.params]; exact h

theorem lfoArray_lawful : lfoArray.Lawful where
  get_set _ _ := rfl
  get_status _ _ := rfl
  get_mem _ _ _ := rfl
  set_status _ _ := rfl
  set_args _ _ := rfl
  set_memBytes _ _ := rfl
  set_mem _ _ := rfl
  set_powerOns _ _ := rfl
  set_draws _ _ := rfl
  set_readData _ _ := rfl
  set_host _ _ := rfl
  set_params s l h := by simp [State.params]; exact h

theorem envArray_lawful : envArray.Lawful where
  get_set _ _ := rfl
  get_status _ _ := rfl
  get_mem _ _ _ := rfl
  set_status _ _ := rfl
  set_args _ _ := rfl
  set_memBytes _ _ := rfl
  set_mem _ _ := rfl
  set_powerOns _ _ := rfl
  set_draws _ _ := rfl
  set_readData _ _ := rfl
  set_host _ _ := rfl
  set_params s l h := by simp [State.params]; exact h

theorem clkArray_lawful : clkArray.Lawful where
  get_set _ _ := rfl
  get_status _ _ := rfl
  get_mem _ _ _ := rfl
  set_status _ _ := rfl
  set_args _ _ := rfl
  set_memBytes _ _ := rfl
  set_mem _ _ := rfl
  set_powerOns _ _ := rfl
  set_draws _ _ := rfl
  set_readData _ _ := rfl
  set_host _ _ := rfl
  set_params s l h := by simp [State.params]; exact h

theorem seqArray_lawful : seqArray.Lawful where
  get_set _ _ := rfl
  get_status _ _ := rfl
  get_mem _ _ _ := rfl
  set_status _ _ := rfl
  set_args _ _ := rfl
  set_memBytes _ _ := rfl
  set_mem _ _ := rfl
  set_powerOns _ _ := rfl
  set_draws _ _ := rfl
  set_readData _ _ := rfl
  set_host _ _ := rfl
  set_params s l h := by simp [State.params]; exact h

end Sys2Proof.Machine
end

