-- ==== Sys2Proof/Laws/Ops.lean ====
section
/-! SUPPORT. What each shared operation can do, said once: the slot commands, the buffer checks, PROCESS. -/

namespace Sys2Proof.Machine

/-! ### Slots -/

theorem SlotArray.allocated_ok {α : Type} {A : SlotArray α} {s : State} {k : Nat} {r : α} :
    A.allocated s k = .ok r ↔ (A.get s)[k]? = some { alloc := true, data := r } := by
  simp only [SlotArray.allocated]
  split
  · next h => simp [h]
  · next sl h =>
    obtain ⟨a, d⟩ := sl
    cases a <;> simp [h]

theorem SlotArray.allocated_badSlot {α : Type} {A : SlotArray α} {s : State} {k : Nat}
    (h : (A.get s).length ≤ k) : A.allocated s k = .error .badSlot := by
  simp [SlotArray.allocated, List.getElem?_eq_none h]

theorem SlotArray.allocated_slotFree {α : Type} {A : SlotArray α} {s : State} {k : Nat} {d : α}
    (h : (A.get s)[k]? = some { alloc := false, data := d }) : A.allocated s k = .error .slotFree := by
  simp [SlotArray.allocated, h]

/-- A slot check fails with cause 4 or cause 5 and no other. -/
theorem SlotArray.allocated_error {α : Type} {A : SlotArray α} {s : State} {k : Nat} {c : Cause}
    (h : A.allocated s k = .error c) : c = .badSlot ∨ c = .slotFree := by
  simp only [SlotArray.allocated] at h
  split at h
  · exact .inl (by injection h with h; exact h.symm)
  · split at h
    · simp at h
    · exact .inr (by injection h with h; exact h.symm)

theorem SlotArray.createRefusal_none {α : Type} {A : SlotArray α} {s : State} {k : Nat} :
    A.createRefusal s k = none ↔ ∃ d, (A.get s)[k]? = some { alloc := false, data := d } := by
  simp only [SlotArray.createRefusal]
  split
  · next h => simp [h]
  · next sl h =>
    obtain ⟨a, d⟩ := sl
    cases a <;> simp [h]

/-- CREATE is refused with cause 4 or cause 6 and no other. -/
theorem SlotArray.createRefusal_some {α : Type} {A : SlotArray α} {s : State} {k : Nat} {c : Cause}
    (h : A.createRefusal s k = some c) : c = .badSlot ∨ c = .slotBusy := by
  simp only [SlotArray.createRefusal] at h
  split at h
  · exact .inl (by injection h with h; exact h.symm)
  · split at h
    · exact .inr (by injection h with h; exact h.symm)
    · simp at h

/-- CREATE is refused, or the slot becomes allocated with its initial record. -/
theorem createSlot_cases {α : Type} (A : SlotArray α) (init : α) (k : Nat) (s : State) :
    (∃ c, A.createRefusal s k = some c ∧ createSlot A init k s = s.refuse c 0) ∨
    (∃ d, (A.get s)[k]? = some { alloc := false, data := d } ∧
      createSlot A init k s = (A.put s k { alloc := true, data := init }).complete) := by
  simp only [createSlot]
  cases h : A.createRefusal s k with
  | some c => exact .inl ⟨c, rfl, rfl⟩
  | none =>
    obtain ⟨d, hd⟩ := SlotArray.createRefusal_none.1 h
    exact .inr ⟨d, hd, rfl⟩

/-- DESTROY is refused, or the slot becomes free and keeps its record. -/
theorem destroySlot_cases {α : Type} (A : SlotArray α) (k : Nat) (s : State) :
    (∃ c, A.allocated s k = .error c ∧ destroySlot A k s = s.refuse c 0) ∨
    (∃ r, (A.get s)[k]? = some { alloc := true, data := r } ∧
      destroySlot A k s = (A.put s k { alloc := false, data := r }).complete) := by
  simp only [destroySlot]
  cases h : A.allocated s k with
  | error c => exact .inl ⟨c, rfl, rfl⟩
  | ok r => exact .inr ⟨r, SlotArray.allocated_ok.1 h, rfl⟩

/-- SET_TYPE is refused, or only the record of the slot changes. -/
theorem updateSlot_cases {α : Type} (A : SlotArray α) (f : α → α) (k : Nat) (s : State) :
    (∃ c, A.allocated s k = .error c ∧ updateSlot A f k s = s.refuse c 0) ∨
    (∃ r, (A.get s)[k]? = some { alloc := true, data := r } ∧
      updateSlot A f k s = (A.put s k { alloc := true, data := f r }).complete) := by
  simp only [updateSlot]
  cases h : A.allocated s k with
  | error c => exact .inl ⟨c, rfl, rfl⟩
  | ok r => exact .inr ⟨r, SlotArray.allocated_ok.1 h, rfl⟩

/-! ### Buffers -/

/-- A buffer passes its checks exactly when it is absent and optional, or aligned and within the memory. -/
theorem checkBuffer_none {memBytes n a : Nat} {r : BufferRole} :
    checkBuffer memBytes n a r = none ↔
      (a = 0 ∧ r.required = false) ∨ (a ≠ 0 ∧ a % 4 = 0 ∧ a + r.size n ≤ memBytes) := by
  simp only [checkBuffer]
  by_cases ha : a = 0
  · simp [ha]
  · by_cases h4 : a % 4 = 0
    · simp [ha, h4]
    · simp [ha, h4]

/-- The causes a buffer check reports (60_exceptions.md R270). -/
theorem checkBuffer_some {memBytes n a : Nat} {r : BufferRole} {c : Cause}
    (h : checkBuffer memBytes n a r = some c) : c = .nullBuffer ∨ c = .misaligned ∨ c = .outOfRange := by
  simp only [checkBuffer] at h
  split_ifs at h <;> simp at h <;> simp [← h]

theorem checkBuffers_none {s : State} {n : Nat} {bufs : List BufferOperand} :
    checkBuffers s n bufs = none ↔ ∀ b ∈ bufs, checkBuffer s.memBytes n (s.argAddr b.arg) b.role = none := by
  induction bufs with
  | nil => simp [checkBuffers]
  | cons b rest ih =>
    simp only [checkBuffers, List.forall_mem_cons]
    cases h : checkBuffer s.memBytes n (s.argAddr b.arg) b.role with
    | none => simp [ih]
    | some c => simp

/-- The first buffer that fails a check is the one reported (R271). -/
theorem checkBuffers_append {s : State} {n : Nat} {before after : List BufferOperand} {b : BufferOperand} {c : Cause}
    (hok : ∀ x ∈ before, checkBuffer s.memBytes n (s.argAddr x.arg) x.role = none)
    (hc : checkBuffer s.memBytes n (s.argAddr b.arg) b.role = some c) :
    checkBuffers s n (before ++ b :: after) = some (c, b.arg.val) := by
  induction before with
  | nil => simp [checkBuffers, hc]
  | cons x rest ih =>
    simp only [List.cons_append, checkBuffers, hok x (by simp)]
    exact ih fun y hy => hok y (List.mem_cons_of_mem _ hy)

/-- A reported failure is that of a buffer of the list. -/
theorem checkBuffers_some {s : State} {n : Nat} {bufs : List BufferOperand} {c : Cause} {k : Nat}
    (h : checkBuffers s n bufs = some (c, k)) :
    (∃ b ∈ bufs, b.arg.val = k) ∧ (c = .nullBuffer ∨ c = .misaligned ∨ c = .outOfRange) := by
  induction bufs with
  | nil => simp [checkBuffers] at h
  | cons b rest ih =>
    simp only [checkBuffers] at h
    split at h
    · next c' hc =>
      simp only [Option.some.injEq, Prod.mk.injEq] at h
      obtain ⟨rfl, rfl⟩ := h
      exact ⟨⟨b, by simp, rfl⟩, checkBuffer_some hc⟩
    · obtain ⟨⟨b', hb', e⟩, hc⟩ := ih h
      exact ⟨⟨b', List.mem_cons_of_mem _ hb', e⟩, hc⟩

/-! ### PROCESS -/

/-- The four ways a PROCESS command ends (41_lifecycle_commands.md R154). -/
theorem processSlot_cases {α : Type} (A : SlotArray α) (bufs : List BufferOperand) (step : UnitStep α)
    (k : Nat) (s : State) :
    (∃ c, A.allocated s k = .error c ∧ processSlot A bufs step k s = s.refuse c 0) ∨
    (∃ r, (A.get s)[k]? = some { alloc := true, data := r } ∧ s.length ≤ 0 ∧
      processSlot A bufs step k s = s.complete) ∨
    (∃ c a, 0 < s.length ∧ checkBuffers s s.length.toNat bufs = some (c, a) ∧
      processSlot A bufs step k s = s.refuse c a) ∨
    (∃ r, (A.get s)[k]? = some { alloc := true, data := r } ∧ 0 < s.length ∧
      checkBuffers s s.length.toNat bufs = none ∧
      processSlot A bufs step k s = processEffect A bufs step k s.length.toNat r s) := by
  simp only [processSlot]
  cases h : A.allocated s k with
  | error c => exact .inl ⟨c, rfl, rfl⟩
  | ok r =>
    have hr := SlotArray.allocated_ok.1 h
    by_cases hl : s.length ≤ 0
    · exact .inr (.inl ⟨r, hr, hl, by simp [hl]⟩)
    · cases hb : checkBuffers s s.length.toNat bufs with
      | some x => exact .inr (.inr (.inl ⟨x.1, x.2, by omega, rfl, by simp [hl]⟩))
      | none => exact .inr (.inr (.inr ⟨r, hr, by omega, rfl, by simp [hl]⟩))

end Sys2Proof.Machine
end

