-- ==== Sys2Proof/Laws/Block.lean ====
section
/-! SUPPORT. The sample loop of PROCESS: runs compose, what a run leaves alone, and how it depends on where its
buffers start. -/

namespace Sys2Proof.Machine

/-! ### Samples -/

@[simp] theorem inputSample_absent (e : Nat) (m : Memory) (i : Nat) : inputSample e m 0 i = zeroF := by
  simp [inputSample]

@[simp] theorem outputSample_absent (m : Memory) (i : Nat) (y : F32) : outputSample m 0 i y = m := by
  simp [outputSample]

/-- A byte outside the word an output sample goes to is left alone. -/
theorem byteAt_outputSample_outside (e : Nat) (m : Memory) (base i : Nat) (y : F32) {a : Nat}
    (h : base ≠ 0 → a < base + 4 * i ∨ base + 4 * i + 4 ≤ a) :
    Memory.byteAt e (outputSample m base i y) a = Memory.byteAt e m a := by
  simp only [outputSample]
  split_ifs with h0
  · rfl
  · exact Memory.byteAt_write32_outside e m y (h h0)

/-- A buffer's words lie within the memory: the buffer is absent, or `n` words fit. -/
def Fits (size base n : Nat) : Prop := base = 0 ∨ base + 4 * n ≤ size

theorem within_outputSample {size : Nat} {m : Memory} (h : Memory.Within size m) {base n i : Nat} (y : F32)
    (hf : Fits size base n) (hi : i < n) : Memory.Within size (outputSample m base i y) := by
  simp only [outputSample]
  split_ifs with h0
  · exact h
  · exact Memory.within_write32 h _ _ (by rcases hf with h1 | h1 <;> omega)

/-! ### Runs -/

/-- Every property of the loop's state that each sample keeps holds at the end of a run. -/
theorem runBlock_induction {α : Type} {e : Nat} {p : Ports} {step : UnitStep α} (P : BlockState α → Prop)
    (n i : Nat) (hstep : ∀ j b, i ≤ j → j < i + n → P b → P (runSample e p step j b)) (b : BlockState α) (hb : P b) :
    P (runBlock e p step n i b) := by
  induction n generalizing i b with
  | zero => exact hb
  | succ n ih =>
    exact ih (i + 1) (fun j c h1 h2 => hstep j c (by omega) (by omega)) _ (hstep i b (by omega) (by omega) hb)

/-- A run of n1 + n2 samples is a run of n1 and then a run of n2. -/
theorem runBlock_add {α : Type} (e : Nat) (p : Ports) (step : UnitStep α) (n1 n2 i : Nat) (b : BlockState α) :
    runBlock e p step (n1 + n2) i b = runBlock e p step n2 (i + n1) (runBlock e p step n1 i b) := by
  induction n1 generalizing i b with
  | zero => simp [runBlock]
  | succ n ih =>
    rw [show n + 1 + n2 = (n + n2) + 1 by omega]
    simp only [runBlock, ih]
    rw [show i + 1 + n = i + (n + 1) by omega]

/-- The base address of a buffer whose first `n` samples are left out; an absent buffer stays absent. -/
def shiftBase (base n : Nat) : Nat := if base = 0 then 0 else base + 4 * n

@[simp] theorem shiftBase_zero (n : Nat) : shiftBase 0 n = 0 := by simp [shiftBase]

theorem shiftBase_ne {base : Nat} (h : base ≠ 0) (n : Nat) : shiftBase base n = base + 4 * n := by
  simp [shiftBase, h]

/-- The buffers with their first `n` samples left out. -/
def shiftPorts (p : Ports) (n : Nat) : Ports :=
  { out8 := shiftBase p.out8 n, out9 := shiftBase p.out9 n, in12 := shiftBase p.in12 n, in13 := shiftBase p.in13 n }

theorem inputSample_shift (e : Nat) (m : Memory) (base n i : Nat) :
    inputSample e m (shiftBase base n) i = inputSample e m base (n + i) := by
  rcases eq_or_ne base 0 with h | h
  · simp [h]
  · rw [shiftBase_ne h, inputSample, inputSample, if_neg (by omega), if_neg h]
    congr 1; omega

theorem outputSample_shift (m : Memory) (base n i : Nat) (y : F32) :
    outputSample m (shiftBase base n) i y = outputSample m base (n + i) y := by
  rcases eq_or_ne base 0 with h | h
  · simp [h]
  · rw [shiftBase_ne h, outputSample, outputSample, if_neg (by omega), if_neg h]
    congr 1; omega

theorem runSample_shift {α : Type} (e : Nat) (p : Ports) (step : UnitStep α) (n i : Nat) (b : BlockState α) :
    runSample e (shiftPorts p n) step i b = runSample e p step (n + i) b := by
  simp only [runSample, shiftPorts, inputSample_shift, outputSample_shift]

/-- A run from sample n on is a run from sample 0 on the shifted buffers. -/
theorem runBlock_shift {α : Type} (e : Nat) (p : Ports) (step : UnitStep α) (m n i : Nat) (b : BlockState α) :
    runBlock e (shiftPorts p n) step m i b = runBlock e p step m (n + i) b := by
  induction m generalizing i b with
  | zero => rfl
  | succ m ih => simp only [runBlock, runSample_shift, ih, Nat.add_assoc]

/-- Equal steps give equal runs. -/
theorem runBlock_congr {α : Type} (e : Nat) (p : Ports) {step step' : UnitStep α}
    (h : ∀ d r x y, step d r x y = step' d r x y) (n i : Nat) (b : BlockState α) :
    runBlock e p step n i b = runBlock e p step' n i b := by
  have : step = step' := by funext d r x y; exact h d r x y
  rw [this]

@[simp] theorem runBlock_draws {α : Type} (e : Nat) (p : Ports) (step : UnitStep α) (n i : Nat) (b : BlockState α) :
    (runBlock e p step n i b).draws = b.draws + n * drawsPerSample := by
  induction n generalizing i b with
  | zero => simp [runBlock]
  | succ n ih => simp only [runBlock, ih, runSample]; ring

/-- A property of the record that Step keeps holds at the end of a run. -/
theorem runBlock_data {α : Type} {e : Nat} {p : Ports} {step : UnitStep α} (P : α → Prop)
    (hstep : ∀ d r x y, P r → P (step d r x y).data) (n i : Nat) (b : BlockState α) (hb : P b.data) :
    P (runBlock e p step n i b).data :=
  runBlock_induction (fun c => P c.data) n i (fun _ _ _ _ hc => hstep _ _ _ _ hc) b hb

/-- A byte outside both output buffers is left alone by a run (41_lifecycle_commands.md R159). -/
theorem byteAt_runBlock_outside {α : Type} (e e' : Nat) (p : Ports) (step : UnitStep α) (n : Nat)
    (b : BlockState α) {a : Nat}
    (h8 : p.out8 ≠ 0 → a < p.out8 ∨ p.out8 + 4 * n ≤ a)
    (h9 : p.out9 ≠ 0 → a < p.out9 ∨ p.out9 + 4 * n ≤ a) :
    Memory.byteAt e (runBlock e' p step n 0 b).mem a = Memory.byteAt e b.mem a := by
  refine runBlock_induction (fun c => Memory.byteAt e c.mem a = Memory.byteAt e b.mem a) n 0 ?_ b rfl
  intro j c _ hj hc
  simp only [runSample]
  rw [byteAt_outputSample_outside, byteAt_outputSample_outside, hc]
  · intro h0; have := h8 h0; omega
  · intro h0; have := h9 h0; omega

/-- A run keeps the memory canonical and within its size. -/
theorem within_runBlock {α : Type} {size e : Nat} {p : Ports} {step : UnitStep α} {n : Nat} {b : BlockState α}
    (h : Memory.Within size b.mem) (h8 : Fits size p.out8 n) (h9 : Fits size p.out9 n) :
    Memory.Within size (runBlock e p step n 0 b).mem := by
  refine runBlock_induction (fun c => Memory.Within size c.mem) n 0 ?_ b h
  intro j c _ hj hc
  exact within_outputSample (within_outputSample hc _ h8 (by omega)) _ h9 (by omega)

/-! ### The buffers of a command that has passed its checks -/

/-- A buffer that is an operand and has passed its checks fits; one that is no operand is absent. -/
theorem fits_portOf {s : State} {bufs : List BufferOperand} {n : Nat} (k : Fin 16)
    (h : checkBuffers s n bufs = none)
    (hsize : ∀ b ∈ bufs, b.arg = k → b.role.size n = 4 * n) :
    Fits s.memBytes (portOf s bufs k) n := by
  simp only [portOf]
  split_ifs with hk
  · obtain ⟨b, hb, e⟩ := List.any_eq_true.1 hk
    have e := of_decide_eq_true e
    have h1 := checkBuffer_none.1 (checkBuffers_none.1 h b hb)
    rw [hsize b hb e, e] at h1
    rcases h1 with h1 | h1
    · exact .inl h1.1
    · exact .inr h1.2.2
  · exact .inl rfl

end Sys2Proof.Machine
end

