-- ==== Sys2Proof/Laws/PerInstr.lean ====
section
/-! SUPPORT. Facts about every command as syntax, one lemma per constructor.
Family `Sys2Proof.Laws.Fields`: the encoded word of a well-formed command holds the command's fields in the bits
30_encoding.md R90 gives them, with RSV = 0. -/

namespace Sys2Proof.Laws

/-- The fields of a word made by the formula of R110 from fields that fit their bits. -/
theorem fields_of_sum {s u o : Nat} (hs : s < 256) (hu : u < 16) (ho : o < 16) :
    rsvField (BitVec.ofNat 32 (s * 256 + u * 16 + o)) = 0 ∧
    slotField (BitVec.ofNat 32 (s * 256 + u * 16 + o)) = s ∧
    unitField (BitVec.ofNat 32 (s * 256 + u * 16 + o)) = u ∧
    opField (BitVec.ofNat 32 (s * 256 + u * 16 + o)) = o := by
  simp only [rsvField, slotField, unitField, opField, BitVec.toNat_ofNat]
  omega

/-- The fields of the encoded word are those of the command. -/
def Fields.Statement (i : Instr) : Prop :=
  i.wellFormed = true →
    rsvField (encode i) = 0 ∧ slotField (encode i) = i.slot ∧
    unitField (encode i) = i.unit ∧ opField (encode i) = i.op

theorem Fields.nop (u s : Nat) : Fields.Statement (.nop u s) := by
  intro h
  simp only [Instr.wellFormed, Bool.and_eq_true, decide_eq_true_eq] at h
  exact fields_of_sum h.2 h.1 (by simp [Instr.op])

theorem Fields.createOsc (s : Nat) : Fields.Statement (.createOsc s) := fun h =>
  fields_of_sum (of_decide_eq_true h) (by simp [Instr.unit]) (by simp [Instr.op])

theorem Fields.createLfo (s : Nat) : Fields.Statement (.createLfo s) := fun h =>
  fields_of_sum (of_decide_eq_true h) (by simp [Instr.unit]) (by simp [Instr.op])

theorem Fields.createEnv (s : Nat) : Fields.Statement (.createEnv s) := fun h =>
  fields_of_sum (of_decide_eq_true h) (by simp [Instr.unit]) (by simp [Instr.op])

theorem Fields.createClk (s : Nat) : Fields.Statement (.createClk s) := fun h =>
  fields_of_sum (of_decide_eq_true h) (by simp [Instr.unit]) (by simp [Instr.op])

theorem Fields.createSeq (s : Nat) : Fields.Statement (.createSeq s) := fun h =>
  fields_of_sum (of_decide_eq_true h) (by simp [Instr.unit]) (by simp [Instr.op])

theorem Fields.destroyOsc (s : Nat) : Fields.Statement (.destroyOsc s) := fun h =>
  fields_of_sum (of_decide_eq_true h) (by simp [Instr.unit]) (by simp [Instr.op])

theorem Fields.destroyLfo (s : Nat) : Fields.Statement (.destroyLfo s) := fun h =>
  fields_of_sum (of_decide_eq_true h) (by simp [Instr.unit]) (by simp [Instr.op])

theorem Fields.destroyEnv (s : Nat) : Fields.Statement (.destroyEnv s) := fun h =>
  fields_of_sum (of_decide_eq_true h) (by simp [Instr.unit]) (by simp [Instr.op])

theorem Fields.destroyClk (s : Nat) : Fields.Statement (.destroyClk s) := fun h =>
  fields_of_sum (of_decide_eq_true h) (by simp [Instr.unit]) (by simp [Instr.op])

theorem Fields.destroySeq (s : Nat) : Fields.Statement (.destroySeq s) := fun h =>
  fields_of_sum (of_decide_eq_true h) (by simp [Instr.unit]) (by simp [Instr.op])

theorem Fields.setTypeOsc (s : Nat) : Fields.Statement (.setTypeOsc s) := fun h =>
  fields_of_sum (of_decide_eq_true h) (by simp [Instr.unit]) (by simp [Instr.op])

theorem Fields.setTypeLfo (s : Nat) : Fields.Statement (.setTypeLfo s) := fun h =>
  fields_of_sum (of_decide_eq_true h) (by simp [Instr.unit]) (by simp [Instr.op])

theorem Fields.processOsc (s : Nat) : Fields.Statement (.processOsc s) := fun h =>
  fields_of_sum (of_decide_eq_true h) (by simp [Instr.unit]) (by simp [Instr.op])

theorem Fields.processLfo (s : Nat) : Fields.Statement (.processLfo s) := fun h =>
  fields_of_sum (of_decide_eq_true h) (by simp [Instr.unit]) (by simp [Instr.op])

theorem Fields.processEnv (s : Nat) : Fields.Statement (.processEnv s) := fun h =>
  fields_of_sum (of_decide_eq_true h) (by simp [Instr.unit]) (by simp [Instr.op])

theorem Fields.processClk (s : Nat) : Fields.Statement (.processClk s) := fun h =>
  fields_of_sum (of_decide_eq_true h) (by simp [Instr.unit]) (by simp [Instr.op])

theorem Fields.processSeq (s : Nat) : Fields.Statement (.processSeq s) := fun h =>
  fields_of_sum (of_decide_eq_true h) (by simp [Instr.unit]) (by simp [Instr.op])

end Sys2Proof.Laws
end

