-- ==== Sys2Proof/Laws/Units.lean ====
section
/-! SUPPORT. The fields of one sample's record, for the units whose Step is long: what each is, said once. -/

namespace Sys2Proof.Machine

/-- R173 to R175: the slave phase after a sample, from whether the master wraps in it. -/
theorem oscStep_slavePhase (p : OscParams) (d : Nat) (r : OscState) (f sh : F32) :
    (oscStep p d r f sh).data.slavePhase =
      oscSlaveAdvance (d + 9) p (mul32 (d + 5) (oscFinalFreq d p f sh) p.sync)
        (if ge32 (oscMasterAdvance (d + 6) p (oscFinalFreq d p f sh) r.masterPhase) oneF then zeroF
         else r.slavePhase) := by
  simp only [oscStep]

theorem oscStep_masterPhase (p : OscParams) (d : Nat) (r : OscState) (f sh : F32) :
    (oscStep p d r f sh).data.masterPhase =
      if ge32 (oscMasterAdvance (d + 6) p (oscFinalFreq d p f sh) r.masterPhase) oneF then
        wrap32 (d + 8) (oscMasterAdvance (d + 6) p (oscFinalFreq d p f sh) r.masterPhase)
      else oscMasterAdvance (d + 6) p (oscFinalFreq d p f sh) r.masterPhase := by
  simp only [oscStep]

@[simp] theorem oscStep_type (p : OscParams) (d : Nat) (r : OscState) (f sh : F32) :
    (oscStep p d r f sh).data.type = r.type := rfl

theorem lfoStep_phase (p : LfoParams) (d : Nat) (r : LfoState) (q x : F32) :
    (lfoStep p d r q x).data.phase =
      lfoAdvance (d + 4) p (lfoFreq d p q) (if risingEdge r.lastReset x then zeroF else r.phase) := by
  simp only [lfoStep]

@[simp] theorem lfoStep_lastReset (p : LfoParams) (d : Nat) (r : LfoState) (q x : F32) :
    (lfoStep p d r q x).data.lastReset = level x := rfl

@[simp] theorem lfoStep_type (p : LfoParams) (d : Nat) (r : LfoState) (q x : F32) :
    (lfoStep p d r q x).data.type = r.type := rfl

end Sys2Proof.Machine
end

