-- ==== Sys2Proof/Tests/Slice0.lean ====
section
/-! SUPPORT. Small tests of one step each, with results taken from the spec, and for every statement with hypotheses a
named witness that something meets them. The vectors W-, K-, E-, V-, OSC-, LFO-, ENV-, CLK-, SEQ- and X- are those of
95_test_vectors.md; the words are written out from 30_encoding.md R90, R91, R92 and R110. -/

open Sys2Proof Sys2Proof.Machine Sys2Proof.Claims

namespace Sys2Proof.Tests

/-! ## Decoding: one word for every constructor -/

theorem test_decode_nop : decodeWord 0b00000000000000000000000100110000#32 = .ok (.nop 3 1) := by decide
theorem test_decode_createOsc : decodeWord 0b00000000000000000000010100000001#32 = .ok (.createOsc 5) := by decide
theorem test_decode_createLfo : decodeWord 0b00000000000000000000010100010001#32 = .ok (.createLfo 5) := by decide
theorem test_decode_createEnv : decodeWord 0b00000000000000000000010100100001#32 = .ok (.createEnv 5) := by decide
theorem test_decode_createClk : decodeWord 0b00000000000000000000010100110001#32 = .ok (.createClk 5) := by decide
theorem test_decode_createSeq : decodeWord 0b00000000000000000000010101000001#32 = .ok (.createSeq 5) := by decide
theorem test_decode_destroyOsc : decodeWord 0b00000000000000001111111100000010#32 = .ok (.destroyOsc 255) := by decide
theorem test_decode_destroyLfo : decodeWord 0b00000000000000001000000000010010#32 = .ok (.destroyLfo 128) := by decide
theorem test_decode_destroyEnv : decodeWord 0b00000000000000000000000100100010#32 = .ok (.destroyEnv 1) := by decide
theorem test_decode_destroyClk : decodeWord 0b00000000000000000000000100110010#32 = .ok (.destroyClk 1) := by decide
theorem test_decode_destroySeq : decodeWord 0b00000000000000000000000101000010#32 = .ok (.destroySeq 1) := by decide
theorem test_decode_setTypeOsc : decodeWord 0b00000000000000000000001000000011#32 = .ok (.setTypeOsc 2) := by decide
theorem test_decode_setTypeLfo : decodeWord 0b00000000000000000000001000010011#32 = .ok (.setTypeLfo 2) := by decide
theorem test_decode_processOsc : decodeWord 0b00000000000000000000001100000100#32 = .ok (.processOsc 3) := by decide
theorem test_decode_processLfo : decodeWord 0b00000000000000000000001100010100#32 = .ok (.processLfo 3) := by decide
theorem test_decode_processEnv : decodeWord 0b00000000000000000000001100100100#32 = .ok (.processEnv 3) := by decide
theorem test_decode_processClk : decodeWord 0b00000000000000000000001100110100#32 = .ok (.processClk 3) := by decide
theorem test_decode_processSeq : decodeWord 0b00000000000000000000001101000100#32 = .ok (.processSeq 3) := by decide

/-- X-1, X-3: a reserved bit, an unused OP. -/
theorem test_decode_illegalOp :
    decodeWord 0x00010000#32 = .error .illegalOp ∧ decodeWord 0x00000005#32 = .error .illegalOp := by decide
/-- X-4. -/
theorem test_decode_illegalUnit : decodeWord 0x00000051#32 = .error .illegalUnit := by decide
/-- X-5. -/
theorem test_decode_unsupported : decodeWord 0x00000923#32 = .error .unsupported := by decide
/-- R90: RSV starts at bit 16 and ends at bit 31. -/
theorem test_decode_rsv_edges :
    decodeWord 0x00010001#32 = .error .illegalOp ∧ decodeWord 0x80000001#32 = .error .illegalOp := by decide
theorem test_decodeTableWord : decodeTableWord 32 0x00000314 = some (.processLfo 3) ∧
    decodeTableWord 32 0x00000005 = none ∧ decodeTableWord 40 0x00000314 = none := by decide

/-! ## WellFormed refuses what has no word -/

theorem test_illFormed_slot : (Instr.createOsc 256).wellFormed = false := by decide
theorem test_illFormed_process_slot : (Instr.processSeq 256).wellFormed = false := by decide
theorem test_illFormed_nop_unit : (Instr.nop 16 0).wellFormed = false := by decide
theorem test_illFormed_nop_slot : (Instr.nop 0 256).wellFormed = false := by decide
theorem test_wellFormed_edges :
    (Instr.nop 15 255).wellFormed = true ∧ (Instr.destroyClk 255).wellFormed = true := by decide

/-! ## Small states -/

/-- A machine with one slot of each unit and 256 bytes of sample memory. -/
def small : State :=
  State.powerOn { nOsc := 1, nLfo := 1, nEnv := 1, nClk := 1, nSeq := 1, memBytes := 256 }

/-- The same with every slot allocated and fresh. -/
def fresh : State :=
  { small with
    osc := [⟨true, OscState.init⟩], lfo := [⟨true, LfoState.init⟩], env := [⟨true, EnvState.init⟩],
    clk := [⟨true, ClkState.init⟩], seq := [⟨true, SeqState.init⟩] }

/-- A state with some ARG registers written. -/
def withArgs (s : State) : List (Fin 16 × Word) → State
  | [] => s
  | (k, v) :: rest => withArgs (s.setArg k v) rest

/-- A state with some words of sample memory written. -/
def withWords (s : State) : List (Nat × Word) → State
  | [] => s
  | (a, v) :: rest => withWords { s with mem := Memory.write32 s.mem a v } rest

/-- The next state, if the outcome is one. -/
def reached : Host.Outcome State Fault Refusal → Option State
  | .next t => some t
  | .fault _ => none
  | .refused _ => none

/-- One step with a command word written to CMD, and what is looked at after it. -/
def after {α : Type} (s : State) (w : Nat) (look : State → α) : Option α :=
  (reached (step (s.withFetchWord 32 w))).map look

/-! ## One step of every command -/

/-- X-2. -/
theorem test_nop_ignores_unit_and_slot : after small 0x0000FFF0 (·.status.word) = some 0x00000002#32 := by decide

/-- R142; the LFO's default type is 2 (R60). -/
theorem test_createOsc : after small 0x00000001 (·.osc) = some [⟨true, ⟨0, 0, 0⟩⟩] := by decide
theorem test_createLfo : after small 0x00000011 (·.lfo) = some [⟨true, ⟨0, false, 2⟩⟩] := by decide
theorem test_createEnv : after small 0x00000021 (·.env) = some [⟨true, ⟨.idle, 0, false, 0⟩⟩] := by decide
theorem test_createClk : after small 0x00000031 (·.clk) = some [⟨true, ⟨0, 0, false⟩⟩] := by decide
theorem test_createSeq : after small 0x00000041 (·.seq) = some [⟨true, ⟨0, false, false⟩⟩] := by decide
/-- X-8: the second CREATE of a slot. -/
theorem test_create_busy : after fresh 0x00000001 (·.status.word) = some 0x00000601#32 := by decide
/-- X-6: the slot the unit does not have. -/
theorem test_create_badSlot : after small 0x00000101 (·.status.word) = some 0x00000401#32 := by decide

/-- R146. -/
theorem test_destroyOsc : after fresh 0x00000002 (fun t => (t.osc.map Slot.alloc, t.lfo.map Slot.alloc)) =
    some ([false], [true]) := by decide
theorem test_destroyLfo : after fresh 0x00000012 (fun t => (t.lfo.map Slot.alloc, t.env.map Slot.alloc)) =
    some ([false], [true]) := by decide
theorem test_destroyEnv : after fresh 0x00000022 (fun t => (t.env.map Slot.alloc, t.clk.map Slot.alloc)) =
    some ([false], [true]) := by decide
theorem test_destroyClk : after fresh 0x00000032 (fun t => (t.clk.map Slot.alloc, t.seq.map Slot.alloc)) =
    some ([false], [true]) := by decide
theorem test_destroySeq : after fresh 0x00000042 (fun t => (t.seq.map Slot.alloc, t.osc.map Slot.alloc)) =
    some ([false], [true]) := by decide
theorem test_destroy_free : after small 0x00000042 (·.status.word) = some 0x00000501#32 := by decide

/-- R149, R150: every 32-bit value is stored. -/
theorem test_setTypeOsc : after (withArgs fresh [(0, 0xFFFFFFFF#32)]) 0x00000003 (·.osc) =
    some [⟨true, ⟨0, 0, 0xFFFFFFFF#32⟩⟩] := by decide
theorem test_setTypeLfo : after (withArgs fresh [(0, 7#32)]) 0x00000013 (·.lfo) =
    some [⟨true, ⟨0, false, 7#32⟩⟩] := by decide

/-- The arguments of the OSC vectors: sampleRate 8.0, pitch 12.0, pwm 0.5, sync 1.0, output at 0x80. -/
def oscArgs (n : Word) : State :=
  withArgs fresh [(0, n), (1, 0x41000000#32), (2, 0x41400000#32), (3, 0x3F000000#32), (4, 0x3F800000#32), (8, 0x80#32)]

/-- OSC-1, samples 0 to 3: the master wraps in sample 3 and restarts the slave. -/
theorem test_processOsc : after (oscArgs 4) 0x00000004
    (fun t => (t.osc, t.readWord 0x80, t.readWord 0x84, t.readWord 0x88, t.readWord 0x8C)) =
    some ([⟨true, ⟨0, 0x3E800000#32, 0⟩⟩], 0xBF000000#32, 0x00000000#32, 0x3F000000#32, 0xBF000000#32) := by
  decide +kernel
/-- OSC-6: sync -1 runs the slave backwards. -/
theorem test_processOsc_backwards : after (withArgs (oscArgs 1) [(4, 0xBF800000#32)]) 0x00000004
    (fun t => (t.osc, t.readWord 0x80)) =
    some ([⟨true, ⟨0x3E800000#32, 0x3F400000#32, 0⟩⟩], 0x3F000000#32) := by decide +kernel

/-- The arguments of the LFO vectors: type Saw, sampleRate 16.0, freqParam 20.0, gainParam 1000.0. -/
def lfoArgs (n : Word) : State :=
  withArgs { fresh with lfo := [⟨true, ⟨0, false, 0⟩⟩] }
    [(0, n), (1, 0x41800000#32), (2, 0x41A00000#32), (3, 0x447A0000#32), (8, 0x80#32), (9, 0xC0#32)]

/-- LFO-2, samples 1 to 3 of resetIn 0, 1, 1 after one sample: the held input gives one edge. -/
theorem test_processLfo : after (withWords (withArgs (lfoArgs 3) [(13, 0x40#32)])
    [(0x40, 0#32), (0x44, 0x3F800000#32), (0x48, 0x3F800000#32)]) 0x00000014
    (fun t => (t.lfo, t.readWord 0xC0, t.readWord 0xC4, t.readWord 0x80, t.readWord 0x84, t.readWord 0x88)) =
    some ([⟨true, ⟨0x3F000000#32, true, 0⟩⟩], 0x3E800000#32, 0x3E800000#32,
      0xBF000000#32, 0xBF000000#32, 0x00000000#32) := by decide +kernel
/-- LFO-7b: a negative gain. -/
theorem test_processLfo_negative_gain : after (withArgs (lfoArgs 2) [(3, 0xC47A0000#32)]) 0x00000014
    (fun t => (t.readWord 0x80, t.readWord 0x84)) = some (0x3F000000#32, 0x80000000#32) := by decide +kernel

/-- The arguments of ENV-1: sampleRate 4, attack 0.5, decay 0.5, trigIn 1, 1, 0, 0. -/
def envArgs (n : Word) : State :=
  withWords (withArgs fresh [(0, n), (1, 0x40800000#32), (2, 0x3F000000#32), (3, 0x3F000000#32), (8, 0x80#32),
    (9, 0xC0#32), (12, 0x40#32)])
    [(0x40, 0x3F800000#32), (0x44, 0x3F800000#32), (0x48, 0#32), (0x4C, 0#32)]

/-- ENV-1, samples 0 to 3. -/
theorem test_processEnv : after (envArgs 4) 0x00000024
    (fun t => (t.env.map (·.data.stage), t.readWord 0x80, t.readWord 0x84, t.readWord 0x88, t.readWord 0x8C,
      t.readWord 0xC8)) =
    some ([.idle], 0x3F000000#32, 0x3F800000#32, 0x3E000000#32, 0x00000000#32, 0x3F400000#32) := by decide +kernel
/-- ENV-4, sample 0: attack 0 completes in the sample of its edge. -/
theorem test_processEnv_zero_attack : after (withArgs (envArgs 1) [(2, 0#32)]) 0x00000024
    (fun t => (t.env.map (·.data.stage), t.readWord 0x80, t.readWord 0xC0)) =
    some ([.decay], 0x3F800000#32, 0x00000000#32) := by decide +kernel

/-- CLK-1, samples 0 to 10: sampleRate 400, bpm 600, so N = 10 and pw = 4.0. -/
theorem test_processClk : after (withArgs fresh [(0, 11#32), (1, 0x43C80000#32), (2, 0x44160000#32), (8, 0x80#32)])
    0x00000034 (fun t => (t.clk, t.readWord 0xA0, t.readWord 0xA4, t.readWord 0xA8)) =
    some ([⟨true, ⟨1, 1, true⟩⟩], 0x00000000#32, 0x3F800000#32, 0x3F800000#32) := by decide +kernel
/-- CLK-3: bpm 1e9, so N = 0: the downbeat is in sample 7. -/
theorem test_processClk_period_zero : after (withArgs fresh [(0, 8#32), (1, 0x43C80000#32), (2, 0x4E6E6B28#32),
    (8, 0x80#32), (9, 0xC0#32)]) 0x00000034 (fun t => (t.clk, t.readWord 0x80, t.readWord 0xD8, t.readWord 0xDC)) =
    some ([⟨true, ⟨0, 0, true⟩⟩], 0x3F800000#32, 0x00000000#32, 0x3F800000#32) := by decide +kernel

/-- The step table 0, 1000, ... of the SEQ vectors at 0x20, and the arguments. -/
def seqArgs (n : Word) : State :=
  withWords (withArgs fresh [(0, n), (8, 0x80#32), (12, 0x40#32), (13, 0x60#32), (14, 0x20#32)])
    [(0x20, 0x00000000#32), (0x24, 0x447A0000#32), (0x28, 0x44FA0000#32), (0x2C, 0x453B8000#32),
     (0x30, 0x457A0000#32), (0x34, 0x459C4000#32), (0x38, 0x45BB8000#32), (0x3C, 0x45DAC000#32)]

/-- SEQ-3: (trigIn, resetIn) = (1, 0), (1, 0), (1, 1), (0, 0), (1, 0). -/
theorem test_processSeq : after (withWords (seqArgs 5)
    [(0x40, 0x3F800000#32), (0x44, 0x3F800000#32), (0x48, 0x3F800000#32), (0x4C, 0#32), (0x50, 0x3F800000#32),
     (0x60, 0#32), (0x64, 0#32), (0x68, 0x3F800000#32), (0x6C, 0#32), (0x70, 0#32)]) 0x00000044
    (fun t => (t.seq, t.readWord 0x80, t.readWord 0x84, t.readWord 0x88, t.readWord 0x8C, t.readWord 0x90)) =
    some ([⟨true, ⟨1, true, false⟩⟩], 0x3F800000#32, 0x3F800000#32, 0x00000000#32, 0x00000000#32, 0x3F800000#32) := by
  decide +kernel
/-- X-10: the table is misaligned; FAULT_ARG names ARG[14]. -/
theorem test_processSeq_misaligned_table :
    after (withArgs (seqArgs 4) [(14, 0x22#32)]) 0x00000044 (·.status.word) = some 0x000E0801#32 := by decide

/-! ## The host's side -/

/-- X-5, then R32: the host clears ERR. -/
theorem test_unsupported_refused : after small 0x00000923 (·.status.word) = some 0x00000301#32 := by decide
theorem test_clear_err : (reached (step { small with
    status := ⟨true, false, 8, 8⟩, host := [.regWrite 0x04#8 .word 0x00000001#32] })).map (·.status.word) =
    some 0x00080800#32 := by decide
theorem test_config_reads : (reached (step { State.reset with host := [.regRead 0x10#8 .word] })).map (·.readData) =
    some 0x00003FFF#32 := by decide
theorem test_host_bytes_little_endian : (reached (step { withWords small [(0x10, 0x44332211#32)] with
    host := [.memRead 0x11 .half] })).map (·.readData) = some 0x00003322#32 := by decide
/-- P4, its SET_TYPE line. -/
theorem test_assemble_setType : assembleLine "SET_TYPE LFO, 0, 0   ; Saw".toList =
    some [.regWrite 0x40#8 .word 0x00000000#32, .regWrite 0x00#8 .word 0x00000013#32] := by decide +kernel
theorem test_assemble_float : assembleLine "WRARG 2, 0.01f".toList =
    some [.regWrite 0x48#8 .word 0x3C23D70A#32] := by decide +kernel

/-! ## Leaf utilities and binary32: the vectors of section 2 -/

/-- W-2, W-5. -/
theorem test_wrap : wrap32 0 0xBE800000#32 = 0x3F400000#32 ∧ wrap32 0 0xB0800000#32 = 0x00000000#32 := by decide +kernel
/-- K-1, K-2. -/
theorem test_clamps : clampnn 0x80000000#32 = 0x00000000#32 ∧ clampnn 0x7FC00000#32 = 0x00000000#32 ∧
    clamp01 0x3FC00000#32 = 0x3F800000#32 ∧ clamp01 0xBDCCCCCD#32 = 0x00000000#32 := by decide +kernel
/-- E-1, E-2. -/
theorem test_edges : level 0x3EFAE148#32 = false ∧ level 0x3F000000#32 = true ∧ level 0x7FC00000#32 = false ∧
    risingEdge false 0x3F000000#32 = true ∧ risingEdge true 0x3F333333#32 = false := by decide +kernel
/-- V-1, V-2, V-4, V-5. -/
theorem test_waves : wave 0 0 0x3E800000#32 0 = 0xBF000000#32 ∧ wave 0 1 0x3F000000#32 0x3F000000#32 = 0xBF800000#32 ∧
    wave 0 3 0x3E800000#32 0 = 0x00000000#32 ∧ wave 0 4 0x3E800000#32 0 = 0x00000000#32 := by decide +kernel
/-- OSC-3: 0.2 + 0.8 rounds to exactly 1.0. -/
theorem test_add_rounds : add32 0 0x3F4CCCCD#32 0x3E4CCCCD#32 = 0x3F800000#32 := by decide +kernel
/-- CLK-6, CLK-7: bpm 0 and bpm 120 at sampleRate 44100. -/
theorem test_clk_constants : (clkConsts 0 0x473B8000#32 0x00000000#32).period = 4294967295 ∧
    (clkConsts 0 0x472C4400#32 0x42F00000#32).period = 5512 := by decide +kernel

/-! ## Witnesses: the hypotheses of every statement, met -/

theorem witness_PowerOnReset : ({ fresh with host := [.powerOnReset, .regRead 0x04#8 .word] } : State).host =
    .powerOnReset :: [.regRead 0x04#8 .word] := rfl

/-- A word for the first clause of `StepRunsTheDecodedCommand`, and a read of CMD for the second. -/
theorem witness_StepRuns : decodeWord 0x0000FF44#32 = .ok (.processSeq 255) ∧
    ({ fresh with host := [.regWrite 0x00#8 .word 0x0000FF44#32] } : State).host =
      .regWrite 0x00#8 .word 0x0000FF44#32 :: [] ∧
    ({ fresh with host := [.regRead 0x00#8 .word] } : State).host = .regRead 0x00#8 .word :: [] := by decide

theorem witness_Idle : State.reset.host = [] := rfl

/-- Words at the edges of the clauses of R94, R97 and R98, as the statement's conditions read them. -/
theorem witness_ReservedWords :
    ((0x00010000#32).extractLsb' 16 16 ≠ 0) ∧ ((0x80000000#32).extractLsb' 16 16 ≠ 0) ∧
    (5 ≤ ((0x00000005#32).extractLsb' 0 4).toNat) ∧ (5 ≤ ((0x0000000F#32).extractLsb' 0 4).toNat) ∧
    ((0x00000051#32).extractLsb' 16 16 = 0 ∧ 1 ≤ ((0x00000051#32).extractLsb' 0 4).toNat ∧
      ((0x000000F4#32).extractLsb' 0 4).toNat ≤ 4 ∧ 5 ≤ ((0x00000051#32).extractLsb' 4 4).toNat ∧
      5 ≤ ((0x000000F4#32).extractLsb' 4 4).toNat) ∧
    ((0x00000023#32).extractLsb' 0 4).toNat = 3 ∧ ((0x00000023#32).extractLsb' 4 4).toNat = 2 ∧
    ((0x00000043#32).extractLsb' 0 4).toNat = 3 ∧ ((0x00000043#32).extractLsb' 4 4).toNat = 4 := by decide

theorem witness_OpcodeMap : opcodeMap[0].matches 0x0000FFF0#32 = true ∧ opcodeMap[17].matches 0x0000FF44#32 = true ∧
    (∀ r ∈ opcodeMap, r.matches 0x00000005#32 = false) ∧ (∀ r ∈ opcodeMap, r.matches 0x80000000#32 = false) := by
  decide

theorem witness_DecodeOfEncode : (Instr.nop 15 255).wellFormed = true ∧ (Instr.setTypeLfo 255).wellFormed = true := by
  decide

theorem witness_EncodeOfDecode : decodeWord 0x0000FFF0#32 = .ok (.nop 15 255) := by decide

/-- Legal parameters, and an offset for each clause of `RegisterReadsReturnTheWindow` at the edges of its range. -/
theorem witness_RegisterReads : small.params.legal ∧
    ({ small with host := [.regRead 0x40#8 .word] } : State).params.legal ∧
    (0x40#8).toNat = 0x40 + 4 * (0 : Fin 16).val ∧ (0x7C#8).toNat = 0x40 + 4 * (15 : Fin 16).val ∧
    ((0x14#8).toNat % 4 = 0 ∧ 0x14 ≤ (0x14#8).toNat ∧ (0x14#8).toNat < 0x40) ∧
    ((0x3C#8).toNat % 4 = 0 ∧ 0x14 ≤ (0x3C#8).toNat ∧ (0x3C#8).toNat < 0x40) ∧
    ((0x80#8).toNat % 4 = 0 ∧ 0x14 ≤ (0x80#8).toNat ∧ 0x80 ≤ (0x80#8).toNat) ∧
    ((0xFC#8).toNat % 4 = 0 ∧ 0x14 ≤ (0xFC#8).toNat ∧ 0x80 ≤ (0xFC#8).toNat) := by decide

theorem witness_StatusWrite : ({ small with host := [.regWrite 0x04#8 .word 0x00000001#32] } : State).host =
      .regWrite 0x04#8 .word 0x00000001#32 :: [] ∧
    (0x00000001#32).getLsbD 0 = true ∧ (0xFFFFFFFE#32).getLsbD 0 = false := by decide

/-- A write with nothing after it, and one with a read of the same register next. -/
theorem witness_ArgRegisters : (0x40#8).toNat = 0x40 + 4 * (0 : Fin 16).val ∧
    (0x7C#8).toNat = 0x40 + 4 * (15 : Fin 16).val ∧
    ({ small with host := [.regWrite 0x40#8 .word 9#32] } : State).host = .regWrite 0x40#8 .word 9#32 :: [] ∧
    ({ small with host := [.regWrite 0x7C#8 .word 9#32, .regRead 0x7C#8 .word] } : State).host =
      .regWrite 0x7C#8 .word 9#32 :: [.regRead 0x7C#8 .word] ∧
    ([.regRead 0x7C#8 .word] : List HostOp) = .regRead 0x7C#8 .word :: [] := by decide

theorem witness_IgnoredWrites : (0x08#8).toNat % 4 = 0 ∧ (0x0C#8).toNat % 4 = 0 ∧ (0x10#8).toNat % 4 = 0 ∧
    ((0x14#8).toNat % 4 = 0 ∧ 0x14 ≤ (0x14#8).toNat ∧ (0x3C#8).toNat % 4 = 0 ∧ (0x3C#8).toNat < 0x40) ∧
    ((0x80#8).toNat % 4 = 0 ∧ 0x80 ≤ (0x80#8).toNat) ∧ ((0xFC#8).toNat % 4 = 0 ∧ 0x80 ≤ (0xFC#8).toNat) ∧
    ({ small with host := [.regWrite 0xFC#8 .word 9#32] } : State).host = .regWrite 0xFC#8 .word 9#32 :: [] := by
  decide

theorem witness_UndefinedAccess : Width.byte ≠ .word ∧ Width.half ≠ .word ∧ (0x01#8).toNat % 4 ≠ 0 ∧
    (0xFF#8).toNat % 4 ≠ 0 ∧ ({ small with host := [.regRead 0x01#8 .word] } : State).host = .regRead 0x01#8 .word :: [] ∧
    ({ small with host := [.regWrite 0x00#8 .byte 1#32] } : State).host = .regWrite 0x00#8 .byte 1#32 :: [] := by decide

/-- The last word and the last byte of 256 bytes of memory, and the first accesses past them. -/
theorem witness_HostMemory : 252 + Width.word.bytes ≤ small.memBytes ∧ 254 + Width.half.bytes ≤ small.memBytes ∧
    255 + Width.byte.bytes ≤ small.memBytes ∧
    small.memBytes < 253 + Width.word.bytes ∧ small.memBytes < 255 + Width.half.bytes ∧
    small.memBytes < 256 + Width.byte.bytes ∧
    ({ small with host := [.memWrite 252 .word 9#32] } : State).host = .memWrite 252 .word 9#32 :: [] ∧
    ({ small with host := [.memRead 255 .byte] } : State).host = .memRead 255 .byte :: [] ∧
    ({ small with host := [.memRead 252 .word] } : State).host = .memRead 252 .word :: [] := by decide

theorem witness_HostAddresses : 0 < small.memBytes ∧ 255 < small.memBytes := by decide

/-- Free and allocated slots, and a slot no unit has. -/
theorem witness_slots : ∀ u : UnitKind, allocBit u small 0 = some false ∧ allocBit u fresh 0 = some true ∧
    allocBit u small 1 = none := by
  intro u; cases u <;> decide

theorem witness_allocated_records : fresh.osc[0]? = some { alloc := true, data := OscState.init } ∧
    fresh.lfo[0]? = some { alloc := true, data := LfoState.init } ∧
    fresh.env[0]? = some { alloc := true, data := EnvState.init } ∧
    fresh.clk[0]? = some { alloc := true, data := ClkState.init } ∧
    fresh.seq[0]? = some { alloc := true, data := SeqState.init } := by decide

theorem witness_SetTypeOf : setTypeOf .osc 0 = .ok (.setTypeOsc 0) ∧ setTypeOf .lfo 0 = .ok (.setTypeLfo 0) := by decide

theorem witness_Recreate : 0 < fresh.osc.length ∧ 0 < fresh.lfo.length ∧ 0 < fresh.env.length ∧
    0 < fresh.clk.length ∧ 0 < fresh.seq.length := by decide

/-- Lengths 0, -1 and -2^31. -/
theorem witness_ZeroLength : ∀ u : UnitKind, allocBit u fresh 0 = some true ∧ (fresh.arg 0).toInt ≤ 0 ∧
    ((withArgs fresh [(0, 0xFFFFFFFF#32)]).arg 0).toInt ≤ 0 ∧
    ((withArgs fresh [(0, 0x80000000#32)]).arg 0).toInt ≤ 0 := by
  intro u; cases u <;> decide

/-- A SEQ command of one sample with these buffer registers. -/
def seqWith (l : List (Fin 16 × Word)) : State := withArgs fresh ((0, 1#32) :: l)

theorem witness_FirstBadBuffer_lists :
    unitBuffers .seq = [] ++ ⟨8, true, false⟩ :: [⟨12, false, false⟩, ⟨13, false, false⟩, ⟨14, true, true⟩] ∧
    unitBuffers .seq = [⟨8, true, false⟩, ⟨12, false, false⟩, ⟨13, false, false⟩] ++ ⟨14, true, true⟩ :: [] :=
  ⟨rfl, rfl⟩

theorem witness_FirstBadBuffer_states :
    allocBit .seq (seqWith []) 0 = some true ∧ ((seqWith []).arg 0).toInt = (1 : Nat) ∧
    allocBit .seq (seqWith [(8, 0x82#32)]) 0 = some true ∧ ((seqWith [(8, 0x82#32)]).arg 0).toInt = (1 : Nat) ∧
    allocBit .seq (seqWith [(8, 0x100#32)]) 0 = some true ∧ ((seqWith [(8, 0x100#32)]).arg 0).toInt = (1 : Nat) ∧
    allocBit .seq (seqWith [(8, 0xFC#32), (14, 0xE4#32)]) 0 = some true ∧
    ((seqWith [(8, 0xFC#32), (14, 0xE4#32)]).arg 0).toInt = (1 : Nat) := by decide

/-- The output absent, misaligned, and past the end: causes 7, 8 and 9. -/
theorem witness_FirstBadBuffer_output : (⟨8, true, false⟩ : Buffer).FailsWith (seqWith []) 1 7 ∧
    (⟨8, true, false⟩ : Buffer).FailsWith (seqWith [(8, 0x82#32)]) 1 8 ∧
    (⟨8, true, false⟩ : Buffer).FailsWith (seqWith [(8, 0x100#32)]) 1 9 :=
  ⟨.inl ⟨rfl, by decide, rfl⟩, .inr (.inl ⟨rfl, by decide, by decide⟩),
    .inr (.inr ⟨rfl, by decide, by decide, by decide⟩)⟩

/-- The table 4 bytes past the last place it fits, after three good buffers. -/
theorem witness_FirstBadBuffer_table :
    (∀ x ∈ ([⟨8, true, false⟩, ⟨12, false, false⟩, ⟨13, false, false⟩] : List Buffer),
      x.Good (seqWith [(8, 0xFC#32), (14, 0xE4#32)]) 1) ∧
    (⟨14, true, true⟩ : Buffer).FailsWith (seqWith [(8, 0xFC#32), (14, 0xE4#32)]) 1 9 := by
  refine ⟨?_, .inr (.inr ⟨rfl, by decide, by decide, by decide⟩)⟩
  simp only [Buffer.Good, Buffer.bytes]
  decide

/-- One sample of every unit, its buffers at the edges of 256 bytes of memory. -/
def oneSample : State := withArgs fresh [(0, 1#32), (8, 0xFC#32), (9, 0x80#32), (12, 0x04#32), (14, 0xE0#32)]

theorem witness_oneSample : oneSample.arg 0 = 1 ∧ (oneSample.arg 0).toInt = (1 : Nat) ∧
    (∀ u, allocBit u oneSample 0 = some true) ∧ (∀ u, BuffersGood u oneSample 1) := by
  refine ⟨by decide, by decide, fun u => ?_, fun u => ?_⟩
  · cases u <;> decide
  · cases u <;> · simp only [BuffersGood, unitBuffers, Buffer.Good, Buffer.bytes]; decide

theorem witness_samples : oneSample.osc[0]? = some { alloc := true, data := OscState.init } ∧
    oneSample.lfo[0]? = some { alloc := true, data := LfoState.init } ∧
    oneSample.env[0]? = some { alloc := true, data := EnvState.init } ∧
    oneSample.clk[0]? = some { alloc := true, data := ClkState.init } ∧
    oneSample.seq[0]? = some { alloc := true, data := SeqState.init } := by decide

/-- Two samples of SEQ whose output words are the first two of its own table. -/
def overTheTable : State := withArgs fresh [(0, 2#32), (8, 0x20#32), (14, 0x20#32)]

theorem witness_SeqSample : overTheTable.seq[0]? = some { alloc := true, data := SeqState.init } ∧
    (overTheTable.arg 0).toInt = (2 : Nat) ∧ BuffersGood .seq overTheTable 2 ∧
    overTheTable.arg 8 = overTheTable.arg 14 := by
  refine ⟨by decide, by decide, ?_, by decide⟩
  simp only [BuffersGood, unitBuffers, Buffer.Good, Buffer.bytes]
  decide

/-- Three samples, to be split into one and two; the table lies outside what the first command writes. -/
def threeSamples : State := withArgs fresh [(0, 3#32), (8, 0x80#32), (9, 0xC0#32), (12, 0x40#32), (14, 0x20#32)]

theorem witness_BlockBoundaries : threeSamples.memBytes ≤ 2 ^ 32 ∧
    (threeSamples.arg 0).toInt = ((1 + 2 : Nat) : Int) ∧
    (∀ u, allocBit u threeSamples 0 = some true) ∧ (∀ u, BuffersGood u threeSamples (1 + 2)) ∧
    (threeSamples.arg 14).toNat + 32 ≤ (threeSamples.arg 8).toNat := by
  refine ⟨by decide, by decide, fun u => ?_, fun u => ?_, by decide⟩
  · cases u <;> decide
  · cases u <;> · simp only [BuffersGood, unitBuffers, Buffer.Good, Buffer.bytes]; decide

/-- The hypotheses about a command's next state, and which command it is not. -/
theorem witness_exec_next : ∃ t, exec (.nop 0 0) fresh = .next t ∧ (∀ u k, Instr.nop 0 0 ≠ processOf u k) ∧
    namedSlot (.nop 0 0) ≠ some (.osc, 0) :=
  ⟨_, rfl, by intro u k; cases u <;> simp [processOf], by decide⟩

/-- Both cases of `AllocChangesOnlyByCreateAndDestroy`. -/
theorem witness_AllocChanges :
    (∃ t, exec (createOf .clk 0) small = .next t ∧ allocBit .clk t 0 ≠ allocBit .clk small 0) ∧
    (∃ t, exec (destroyOf .seq 0) fresh = .next t ∧ allocBit .seq t 0 ≠ allocBit .seq fresh 0) :=
  ⟨⟨_, rfl, by decide⟩, ⟨_, rfl, by decide⟩⟩

/-- Two states that differ in a record and in a parameter the checks do not read. -/
theorem witness_RefusalChecks :
    (∀ k ∈ checkedArgs (.processLfo 0), oneSample.arg k = (withArgs oneSample [(2, 9#32)]).arg k) ∧
    oneSample.memBytes = (withArgs oneSample [(2, 9#32)]).memBytes ∧
    (∀ u k, allocBit u oneSample k = allocBit u (withArgs oneSample [(2, 9#32)]) k) ∧
    oneSample.arg 2 ≠ (withArgs oneSample [(2, 9#32)]).arg 2 ∧
    (∃ t, exec (.processLfo 0) oneSample = .next t) ∧
    (∃ t, exec (.processLfo 0) (withArgs oneSample [(2, 9#32)]) = .next t) :=
  ⟨by decide, rfl, fun u _ => by cases u <;> rfl, by decide, ⟨_, rfl⟩, ⟨_, rfl⟩⟩

theorem witness_legal_params : Params.legal Params.default ∧ Params.legal ⟨1, 1, 1, 1, 1, 8⟩ ∧
    Params.legal ⟨256, 256, 256, 256, 256, 4294967296⟩ := by decide

theorem legal_envInit : EnvState.init.Legal := ⟨⟨by decide, by decide⟩, fun _ => rfl⟩

theorem legal_clkInit : ClkState.init.Legal := by unfold ClkState.Legal; decide

/-- The invariant of a state with allocated slots and a command to run, which has a next state. -/
theorem witness_Inv : (fresh.withFetchWord 32 0x00000004).Inv ∧
    ∃ t, step (fresh.withFetchWord 32 0x00000004) = .next t := by
  refine ⟨⟨by decide, by decide, by decide, ⟨by decide, by decide, by decide, fun h => absurd h (by decide)⟩, ?_, ?_⟩, _, rfl⟩
  · intro sl h
    have h : sl = ⟨true, EnvState.init⟩ := by simpa [fresh, State.withFetchWord] using h
    subst h
    exact legal_envInit
  · intro sl h
    have h : sl = ⟨true, ClkState.init⟩ := by simpa [fresh, State.withFetchWord] using h
    subst h
    exact legal_clkInit

/-- Two defined operations, the second of them a reset. -/
theorem witness_DefinedRuns : ∀ op ∈ ({ fresh with host := [.regWrite 0x00#8 .word 0x4#32, .memRead 252 .word,
    .powerOnReset] } : State).host, op.Defined { fresh with host := [.regWrite 0x00#8 .word 0x4#32, .memRead 252 .word,
    .powerOnReset] } := by
  intro op h
  simp only [List.mem_cons, List.not_mem_nil, or_false] at h
  rcases h with rfl | rfl | rfl
  · show registerAccessDefined 0x00#8 .word = true
    decide
  · show 252 + Width.word.bytes ≤ fresh.memBytes
    decide
  · trivial

/-- The type codes of each clause of `LeafFunctionsFollowTheirFormulas`. -/
theorem witness_types : (0#32).toInt = 0 ∧ (1#32).toInt = 1 ∧ (2#32).toInt = 2 ∧ (3#32).toInt = 3 ∧
    (0xFFFFFFFF#32).toInt < 0 ∧ 4 ≤ (4#32).toInt := by decide

/-- Arguments of Wrap for each clause: the largest value below 1.0, 1.0 itself, and infinity. -/
theorem witness_Wrap : isFinite 0x3F800000#32 = true ∧ ge32 0x3F800000#32 0x3F800000#32 = true ∧
    inUnitInterval 0x3F7FFFFF#32 ∧ inUnitInterval 0x00000000#32 ∧ isFinite 0x7F800000#32 = false := by
  simp only [inUnitInterval]; decide

/-- OSC-1 and LFO-1: a fresh slot, finite increments of 0.25. -/
theorem witness_Phases :
    let p : OscParams := { sampleRate := 0x41000000#32, pitch := 0x41400000#32, pwm := 0x3F000000#32, sync := 0x3F800000#32 }
    let q : LfoParams := { sampleRate := 0x41800000#32, freqParam := 0x41A00000#32, gainParam := 0x447A0000#32 }
    inUnitInterval OscState.init.slavePhase ∧ inUnitInterval OscState.init.masterPhase ∧
    isFinite (div32 9 (mul32 5 (oscFinalFreq 0 p 0 0) p.sync) p.sampleRate) = true ∧
    isFinite (div32 6 (oscFinalFreq 0 p 0 0) p.sampleRate) = true ∧
    le32 0x00000000#32 (div32 6 (oscFinalFreq 0 p 0 0) p.sampleRate) = true ∧
    inUnitInterval LfoState.init.phase ∧ isFinite (div32 4 (lfoFreq 0 q 0) q.sampleRate) = true := by
  simp only [inUnitInterval]; decide +kernel

theorem witness_Wave : inUnitInterval 0x3F7FFFFF#32 ∧ isFinite 0x7F7FFFFF#32 = true ∧ isNaN 0xFFC00000#32 = true ∧
    (0#32).toInt = 0 ∧ (2#32).toInt = 2 ∧ (3#32).toInt = 3 := by
  simp only [inUnitInterval]; decide

/-- A held input, a low one with edge memory 0, and an envelope in each stage. -/
theorem witness_HeldInputs : (SeqState.mk 0 true true).lastTrig = true ∧ ge32 0x3EFFFFFF#32 0x3F000000#32 = false ∧
    ge32 0x7FC00000#32 0x3F000000#32 = false ∧
    EnvState.init.stage = .idle ∧ clampedToOne EnvState.init.currentValue ∧
    (EnvState.mk .attack 0 true 0).stage = .attack ∧ (EnvState.mk .attack 0 true 0).lastTrig = true ∧
    (EnvState.mk .decay 0 false 0).stage = .decay := by
  simp only [clampedToOne]; decide

/-- ENV-3 and its next sample: attack 0, decay 0, sampleRate 4, so dt = 0.25; an Attack and a Decay found without an
edge, the one with a held input and the other with a low one. -/
theorem witness_ZeroDuration :
    EnvState.init.lastTrig = false ∧ ge32 0x3F000000#32 0x3F000000#32 = true ∧
    le32 0x00000000#32 0x00000000#32 = true ∧ le32 0x80000000#32 0x00000000#32 = true ∧
    le32 0x00000000#32 (div32 0 0x3F800000#32 0x40800000#32) = true ∧
    (EnvState.mk .attack 0 true 0x00000000#32).lastTrig = true ∧
    (EnvState.mk .attack 0 true 0x00000000#32).stage = .attack ∧
    ge32 0x3EFFFFFF#32 0x3F000000#32 = false ∧
    (EnvState.mk .decay 0 false 0x3F800000#32).stage = .decay ∧
    le32 0x00000000#32 (add32 1 0x00000000#32 (div32 0 0x3F800000#32 0x40800000#32)) = true := by decide +kernel

/-- CLK-1 with N = 10: a block of 10 samples, whose last is the beat, and one of 9, before it. -/
def clkBlock (n : Word) : State := withArgs fresh [(0, n), (1, 0x43C80000#32), (2, 0x44160000#32), (8, 0x80#32)]

theorem witness_FirstBeat :
    fresh.clk[0]? = some { alloc := true, data := { counter := 0, sub := 0, high := false } } ∧
    ((clkBlock 10).arg 0).toInt = (10 : Nat) ∧ (clkBlock 10).arg 9 = 0 ∧ BuffersGood .clk (clkBlock 10) 10 ∧
    10 = (clkConsts 0 0x43C80000#32 0x44160000#32).period ∧
    9 ≤ (clkConsts 0 0x43C80000#32 0x44160000#32).period ∧
    gt32 0x00000000#32 (clkConsts 0 0x43C80000#32 0x44160000#32).pulse = false := by
  refine ⟨by decide, by decide, by decide, ?_, by decide +kernel⟩
  simp only [BuffersGood, unitBuffers, Buffer.Good, Buffer.bytes]
  decide

/-- CLK-3: N = 0, pw = 4.0; and N = 1. -/
theorem witness_PeriodOfOne : (clkConsts 0 0x43C80000#32 0x4E6E6B28#32).period ≤ 1 ∧
    le32 0x00000000#32 (clkConsts 0 0x43C80000#32 0x4E6E6B28#32).pulse = true ∧
    (ClkConsts.mk 1 0x00000000#32).period ≤ 1 := by decide +kernel

/-- SEQ-2 and SEQ-3: the trigger rising with the reset, and held. -/
theorem witness_SeqReset : SeqState.init.lastReset = false ∧ SeqState.init.lastTrig = false ∧
    (SeqState.mk 1 true false).lastReset = false ∧ (SeqState.mk 1 true false).lastTrig = true ∧
    ge32 0x3F000000#32 0x3F000000#32 = true := by decide

/-- Operands of the clauses of `ArithmeticRoundsToNearestEven`: the largest value and the smallest. -/
theorem witness_arithmetic : isFinite 0x7F7FFFFF#32 = true ∧ isFinite 0x00000001#32 = true ∧
    isZero 0x00000001#32 = false ∧ value32 0x00000001#32 + value32 0x80000001#32 = 0 ∧
    value32 0x00000001#32 + value32 0x00000001#32 ≠ 0 ∧ value32 0x00000001#32 - value32 0x00000001#32 = 0 ∧
    value32 0x00000001#32 - value32 0x80000001#32 ≠ 0 := by decide

/-- Operands of the clauses of `InvalidOperationsGiveNaN` and `ComparisonsAndFloorFollowTheValues`. -/
theorem witness_special_operands :
    isNaN 0x7F800001#32 = true ∧ isInf 0x7F800000#32 = true ∧ isInf 0xFF800000#32 = true ∧
    neg32 0x7F800000#32 = false ∧ neg32 0xFF800000#32 = true ∧ isZero 0x80000000#32 = true ∧
    isFinite 0x80000000#32 = true ∧ isFinite 0x7F7FFFFF#32 = true ∧ isNaN 0xFF7FFFFF#32 = false ∧
    isZero 0xFF7FFFFF#32 = false ∧ isNaN 0xFF800000#32 = false ∧ isZero 0xFF800000#32 = false ∧
    isFinite 0x00000001#32 = true ∧ isZero 0x00000001#32 = false ∧ isFinite 0x7F800000#32 = false := by decide

/-- The values of x in the clauses on EXP2_F32: -149, 127, 128, a NaN. -/
theorem witness_exp2 : isFinite 0xC3150000#32 = true ∧
    value32 0xC3150000#32 = (((0 : Nat) : Int) - 149) * 2 ^ 149 ∧
    value32 0x42FE0000#32 = (((276 : Nat) : Int) - 149) * 2 ^ 149 ∧
    le32 0x43000000#32 0x43000000#32 = true ∧ isNaN 0x7FC00000#32 = true ∧ isNaN 0x00000000#32 = false := by
  decide +kernel

/-- The edges of trunc_sat_u32: below 1.0, 1.0, below 2^32, 2^32. -/
theorem witness_conversions : lt32 0x3F7FFFFF#32 0x3F800000#32 = true ∧ le32 0x3F800000#32 0x3F800000#32 = true ∧
    lt32 0x4F7FFFFF#32 0x4F800000#32 = true ∧ le32 0x4F800000#32 0x4F800000#32 = true ∧
    16777215 < 2 ^ 24 ∧ 4294967295 < 2 ^ 32 := by decide

/-- Values at the edges of 32 bits. -/
theorem witness_asm_values : 4294967295 < 2 ^ 32 ∧ (-2 ^ 31 : Int) ≤ -2147483648 ∧ (-2147483648 : Int) < 2 ^ 31 ∧
    (2147483647 : Int) < 2 ^ 31 := by decide

end Sys2Proof.Tests
end

section
/-! The statements on the scope of the block (00_scope.md): reset, slots, binary32 arithmetic, comparisons, the free
functions and the conversions. First the laws they share, then one theorem per statement. -/

open Sys2Proof Sys2Proof.Machine Sys2Proof.Claims

namespace Sys2Proof.Machine

/-! ### Encodings whose last bit is 1 stand apart from their neighbours by one unit in the last place -/

/-- Every other encoding is at least a unit in the last place away from one with an odd significand. -/
theorem magUnits_gap_of_odd {k s y : Nat} (hs : s ≤ 2 ^ 24) (hk : k ≠ 0 → 2 ^ 23 ≤ s) (hodd : s % 2 = 1)
    (hy : y ≠ k * 2 ^ 23 + s) : (2 : Int) ^ k ≤ |(magUnits y : Int) - s * 2 ^ k| := by
  rcases Nat.lt_or_gt_of_ne hy with h | h
  · have hle : magUnits y ≤ (s - 1) * 2 ^ k := by
      rw [← magUnits_enc (k := k) (s := s - 1) (by omega) (fun h0 => by have := hk h0; omega), magUnits_le_iff]
      omega
    zify [show 1 ≤ s by omega] at hle
    exact le_abs.2 (.inr (by linarith))
  · have hle : (s + 1) * 2 ^ k ≤ magUnits y := by
      rw [← magUnits_enc (k := k) (s := s + 1) (by omega) (fun h0 => by have := hk h0; omega), magUnits_le_iff]
      omega
    zify at hle
    exact le_abs.2 (.inl (by linarith))

/-- An odd rounded quotient is no tie: it is nearer than half a unit. -/
theorem roundQuotient_near_of_odd {num den : Nat} (hd : 0 < den) (hodd : roundQuotient num den % 2 = 1) :
    2 * |(num : Int) - roundQuotient num den * den| < den := by
  have hdm : (num : Int) = den * (num / den : Nat) + (num % den : Nat) := by
    exact_mod_cast (Nat.div_add_mod num den).symm
  have hr : num % den < den := Nat.mod_lt _ hd
  simp only [roundQuotient] at hodd ⊢
  generalize num / den = q at *
  generalize num % den = r at *
  split_ifs at hodd ⊢ with hup htie
  · have e : (num : Int) - (q + 1 : Nat) * den = r - den := by rw [hdm]; push_cast; ring
    rw [e, abs_of_neg (by omega)]; omega
  · omega
  · have e : (num : Int) - q * den = r := by rw [hdm]; ring
    rw [e, abs_of_nonneg (by omega)]; omega

/-- TIES GO TO EVEN (R19): when another encoding is as near as the rounded one, the rounded one is even. -/
theorem roundEnc_tie_even {num den y : Nat} (hd : 0 < den)
    (h : |(num : Int) - magUnits (roundEnc num den) * den| = |(num : Int) - magUnits y * den|) :
    y = roundEnc num den ∨ roundEnc num den % 2 = 0 := by
  obtain ⟨hs, hk, -, hu⟩ := roundMag_parts (num := num) hd
  rw [roundEnc] at *
  rw [hu] at h
  generalize hke : excessBits (num / den) = k at *
  by_contra hc
  obtain ⟨hy, hm⟩ := not_or.1 hc
  have hnear := roundQuotient_near_of_odd (num := num) (den := den * 2 ^ k) (by positivity) (by omega)
  have hgap := magUnits_gap_of_odd hs hk (by omega) hy
  generalize roundQuotient num (den * 2 ^ k) = s at *
  push_cast at h hnear
  have : (den : Int) * 2 ^ k < den * 2 ^ k := calc
    (den : Int) * 2 ^ k ≤ |(magUnits y : Int) - s * 2 ^ k| * den := by
      rw [mul_comm]; exact mul_le_mul_of_nonneg_right hgap (Int.natCast_nonneg den)
    _ = |((num : Int) - s * 2 ^ k * den) - (num - magUnits y * den)| := by
      rw [← Nat.abs_cast den, ← abs_mul]; congr 1; rw [Nat.abs_cast]; ring
    _ ≤ |(num : Int) - s * 2 ^ k * den| + |(num : Int) - magUnits y * den| := abs_sub _ _
    _ = 2 * |(num : Int) - s * (den * 2 ^ k)| := by
      rw [← h, two_mul, mul_comm (den : Int), mul_assoc]
    _ < den * 2 ^ k := hnear
  exact lt_irrefl _ this

/-! ### Where rounding overflows -/

/-- Half way from the largest finite value to 2^128. -/
def overflowUnits : Nat := (2 ^ 25 - 1) * 2 ^ 252

theorem magUnits_infMag : magUnits infMag = 2 ^ 24 * 2 ^ 253 := by norm_num [magUnits, infMag]

theorem magUnits_largest : magUnits (infMag - 1) = (2 ^ 24 - 1) * 2 ^ 253 := by norm_num [magUnits, infMag]

theorem roundMag_overflowUnits : roundMag overflowUnits 1 = infMag := by decide +kernel

theorem roundMag_overflow {num den : Nat} (hd : 0 < den) (h : overflowUnits * den ≤ num) :
    roundMag num den = infMag := by
  have := roundMag_mono (n1 := overflowUnits) (d1 := 1) (n2 := num) one_pos hd (by rwa [mul_one])
  rw [roundMag_overflowUnits] at this
  exact le_antisymm (roundMag_le _ _) this

/-- Below the midpoint of two numbers the lower one is nearer. -/
theorem abs_sub_lt_of_lt_midpoint {n l u : Int} (hlu : l < u) (h : 2 * n < l + u) : |n - l| < |n - u| := by
  rw [abs_of_neg (show n - u < 0 by omega), abs_lt]
  constructor <;> omega

theorem roundEnc_lt_infMag {num den : Nat} (hd : 0 < den) (h : num < overflowUnits * den) :
    roundEnc num den < infMag := by
  by_contra hc
  have hbig : (2 ^ 24 * 2 ^ 253 : Int) * den ≤ magUnits (roundEnc num den) * den := by
    have := magUnits_le_iff.2 (not_lt.1 hc)
    rw [magUnits_infMag] at this
    exact_mod_cast Nat.mul_le_mul_right den this
  have hmid : (magUnits (infMag - 1) : Int) * den + 2 ^ 24 * 2 ^ 253 * den = 2 * (overflowUnits * den : Nat) := by
    rw [magUnits_largest, overflowUnits]; push_cast; ring
  have hlow : (magUnits (infMag - 1) : Int) * den < 2 ^ 24 * 2 ^ 253 * den := by
    rw [magUnits_largest]
    exact mul_lt_mul_of_pos_right (by norm_num) (by exact_mod_cast hd)
  have hnear := roundEnc_nearest (num := num) hd (infMag - 1)
  exact absurd (abs_sub_lt_of_lt_midpoint (hlow.trans_le hbig) (by omega)) (not_lt.2 hnear)

theorem unitsOf_eq {m : Nat} (h : m < 2 ^ 31) : unitsOf m = magUnits m := by
  rw [unitsOf, units32_eq, mag32_pack32 _ h]

/-- The model's rounding is the rounding of R19. -/
theorem roundsTo_roundMag {num den : Nat} (hd : 0 < den) : RoundsTo num den (roundMag num den) := by
  rw [RoundsTo]
  split_ifs with h
  · exact roundMag_overflow hd h
  · have hlt := roundEnc_lt_infMag hd (not_le.1 h)
    rw [roundMag_eq, min_eq_right hlt.le]
    refine ⟨hlt, fun y hy => ?_⟩
    rw [unitsOf_eq (hlt.trans infMag_lt), unitsOf_eq (hy.trans infMag_lt)]
    exact ⟨roundEnc_nearest hd y, roundEnc_tie_even hd⟩

/-! ### Arithmetic on finite values -/

theorem neg32_roundSum_zero (n : Bool) : neg32 (roundSum 0 n) = n := by
  rw [roundSum, if_pos rfl, neg32_pack32 _ (by norm_num)]

/-- A product of finite values is the exact product rounded (R19). -/
theorem mul32_finite {a b : F32} (d : Nat) (ha : isFinite a = true) (hb : isFinite b = true) :
    mul32 d a b = pack32 (neg32 a != neg32 b) (roundMag (units32 a * units32 b) (2 ^ 149)) := by
  simp [mul32, isNaN_eq_false_of_isFinite ha, isNaN_eq_false_of_isFinite hb,
    isInf_eq_false_of_isFinite ha, isInf_eq_false_of_isFinite hb]

/-- A quotient of finite values by a nonzero one is the exact quotient rounded (R19). -/
theorem div32_finite {a b : F32} (d : Nat) (ha : isFinite a = true) (hb : isFinite b = true)
    (h0 : isZero b = false) :
    div32 d a b = pack32 (neg32 a != neg32 b) (roundMag (units32 a * 2 ^ 149) (units32 b)) := by
  simp [div32, isNaN_eq_false_of_isFinite ha, isNaN_eq_false_of_isFinite hb,
    isInf_eq_false_of_isFinite ha, isInf_eq_false_of_isFinite hb, h0]

theorem units32_pos {x : F32} (h : isZero x = false) : 0 < units32 x := by
  rw [units32_eq]
  exact magUnits_pos (Nat.pos_of_ne_zero (by simpa [isZero] using h))

/-- The encoding and the signs of a rounded sum: the clause of `ArithmeticRoundsToNearestEven` on sums and on
differences. -/
theorem roundSum_rounds (z : Int) (n : Bool) :
    RoundsTo z.natAbs 1 (mag32 (roundSum z n)) ∧
      (z ≠ 0 → neg32 (roundSum z n) = decide (z < 0)) ∧ (z = 0 → neg32 (roundSum z n) = n) := by
  refine ⟨?_, neg32_roundSum n, ?_⟩
  · rw [mag32_roundSum]; exact roundsTo_roundMag one_pos
  · rintro rfl; exact neg32_roundSum_zero n

/-- The encoding and the sign of a packed rounded magnitude. -/
theorem pack32_roundMag_rounds (n : Bool) {num den : Nat} (hd : 0 < den) :
    RoundsTo num den (mag32 (pack32 n (roundMag num den))) ∧ neg32 (pack32 n (roundMag num den)) = n := by
  rw [mag32_pack32 _ (roundMag_lt _ _), neg32_pack32 _ (roundMag_lt _ _)]
  exact ⟨roundsTo_roundMag hd, rfl⟩

/-! ### Arithmetic on infinities and zeros -/

theorem isNaN_eq_false_of_isInf {x : F32} (h : isInf x = true) : isNaN x = false := by
  simp_all [isInf, isNaN]

theorem isZero_eq_false_of_isInf {x : F32} (h : isInf x = true) : isZero x = false := by
  have hm : mag32 x = infMag := by simpa [isInf] using h
  simp [isZero, hm, infMag]

theorem isFinite_of_isZero {x : F32} (h : isZero x = true) : isFinite x = true := by
  simp_all [isFinite, isZero, infMag]

theorem isInf_of_not_isFinite {x : F32} (hf : isFinite x = false) (hn : isNaN x = false) : isInf x = true := by
  simp_all only [isFinite, isNaN, isInf, decide_eq_false_iff_not, decide_eq_true_eq]; omega

@[simp] theorem isInf_pack32_infMag (n : Bool) : isInf (pack32 n infMag) = true := by
  simp [isInf, mag32_pack32 n infMag_lt]

@[simp] theorem neg32_pack32_infMag (n : Bool) : neg32 (pack32 n infMag) = n := neg32_pack32 n infMag_lt

@[simp] theorem isZero_pack32_zero (n : Bool) : isZero (pack32 n 0) = true := by simp [isZero]

theorem add32_inf_inf {a b : F32} (d : Nat) (ha : isInf a = true) (hb : isInf b = true) :
    add32 d a b = if neg32 a = neg32 b then a else nan32 d := by
  simp [add32, ha, hb, isNaN_eq_false_of_isInf ha, isNaN_eq_false_of_isInf hb]

theorem add32_inf_finite {a b : F32} (d : Nat) (ha : isInf a = true) (hb : isFinite b = true) :
    add32 d a b = a := by
  simp [add32, ha, isNaN_eq_false_of_isInf ha, isNaN_eq_false_of_isFinite hb, isInf_eq_false_of_isFinite hb]

theorem add32_finite_inf {a b : F32} (d : Nat) (ha : isFinite a = true) (hb : isInf b = true) :
    add32 d a b = b := by
  simp [add32, hb, isNaN_eq_false_of_isInf hb, isNaN_eq_false_of_isFinite ha, isInf_eq_false_of_isFinite ha]

theorem sub32_inf_inf {a b : F32} (d : Nat) (ha : isInf a = true) (hb : isInf b = true) :
    sub32 d a b = if neg32 a = neg32 b then nan32 d else a := by
  rw [sub32, add32_inf_inf d ha (by simpa using hb), neg32_negate32]
  cases neg32 a <;> cases neg32 b <;> rfl

theorem sub32_inf_finite {a b : F32} (d : Nat) (ha : isInf a = true) (hb : isFinite b = true) :
    sub32 d a b = a := add32_inf_finite d ha (by simpa using hb)

theorem sub32_finite_inf {a b : F32} (d : Nat) (ha : isFinite a = true) (hb : isInf b = true) :
    sub32 d a b = negate32 b := add32_finite_inf d ha (by simpa using hb)

/-- An infinity times a value that is no NaN: a NaN for a zero, else an infinity. -/
theorem mul32_inf_left {a b : F32} (d : Nat) (ha : isInf a = true) (hb : isNaN b = false) :
    mul32 d a b = if isZero b then nan32 d else pack32 (neg32 a != neg32 b) infMag := by
  simp [mul32, ha, hb, isNaN_eq_false_of_isInf ha]

theorem mul32_inf_right {a b : F32} (d : Nat) (ha : isNaN a = false) (hb : isInf b = true) :
    mul32 d a b = if isZero a then nan32 d else pack32 (neg32 a != neg32 b) infMag := by
  cases hi : isInf a
  · simp [mul32, hi, ha, hb, isNaN_eq_false_of_isInf hb]
  · rw [mul32_inf_left d hi (isNaN_eq_false_of_isInf hb), isZero_eq_false_of_isInf hi, isZero_eq_false_of_isInf hb]

theorem div32_inf_inf {a b : F32} (d : Nat) (ha : isInf a = true) (hb : isInf b = true) :
    div32 d a b = nan32 d := by
  simp [div32, ha, hb, isNaN_eq_false_of_isInf ha, isNaN_eq_false_of_isInf hb]

theorem div32_inf_finite {a b : F32} (d : Nat) (ha : isInf a = true) (hb : isFinite b = true) :
    div32 d a b = pack32 (neg32 a != neg32 b) infMag := by
  simp [div32, ha, isNaN_eq_false_of_isInf ha, isNaN_eq_false_of_isFinite hb, isInf_eq_false_of_isFinite hb]

theorem div32_finite_inf {a b : F32} (d : Nat) (ha : isFinite a = true) (hb : isInf b = true) :
    div32 d a b = pack32 (neg32 a != neg32 b) 0 := by
  simp [div32, hb, isNaN_eq_false_of_isInf hb, isNaN_eq_false_of_isFinite ha, isInf_eq_false_of_isFinite ha]

/-- A finite value over a zero: a NaN for a zero, else an infinity. -/
theorem div32_finite_zero {a b : F32} (d : Nat) (ha : isFinite a = true) (hb : isZero b = true) :
    div32 d a b = if isZero a then nan32 d else pack32 (neg32 a != neg32 b) infMag := by
  have hf := isFinite_of_isZero hb
  simp [div32, hb, isNaN_eq_false_of_isFinite ha, isNaN_eq_false_of_isFinite hf,
    isInf_eq_false_of_isFinite ha, isInf_eq_false_of_isFinite hf]

/-! ### The order and infinities -/

theorem mag32_le_infMag {x : F32} (h : isNaN x = false) : mag32 x ≤ infMag := by simpa [isNaN] using h

theorem order32_of_isInf {x : F32} (h : isInf x = true) :
    order32 x = if neg32 x then -(infMag : Int) else infMag := by
  have hm : mag32 x = infMag := by simpa [isInf] using h
  rw [order32, hm]

/-- A value that is no NaN stands at or between the two infinities. -/
theorem abs_order32_le {x : F32} (h : isNaN x = false) : -(infMag : Int) ≤ order32 x ∧ order32 x ≤ infMag := by
  have hm := mag32_le_infMag h
  simp only [order32]
  split_ifs <;> omega

/-- Nothing but the infinity itself stands where an infinity stands. -/
theorem order32_eq_iff_of_isInf {a b : F32} (ha : isInf a = true) : order32 b = order32 a ↔ b = a := by
  refine ⟨fun h => ?_, fun h => by rw [h]⟩
  have hm : mag32 a = infMag := by simpa [isInf] using ha
  have hpos : 0 < infMag := by norm_num [infMag]
  simp only [order32] at h
  apply eq_of_neg32_of_mag32
  · cases hna : neg32 a <;> cases hnb : neg32 b <;> simp [hna, hnb] at h ⊢ <;> omega
  · split_ifs at h <;> omega

theorem lt32_eq_false_iff {a b : F32} (ha : isNaN a = false) (hb : isNaN b = false) :
    lt32 a b = false ↔ order32 b ≤ order32 a := by
  simp [lt32, ha, hb]

/-- +infinity is above every other value that is no NaN. -/
theorem compare_posInf {a b : F32} (ha : isInf a = true) (hn : neg32 a = false) (hb : isNaN b = false) :
    lt32 a b = false ∧ le32 b a = true ∧ (lt32 b a = true ↔ b ≠ a) ∧ (le32 a b = true ↔ b = a) := by
  have hna := isNaN_eq_false_of_isInf ha
  have hoa : order32 a = infMag := by rw [order32_of_isInf ha, hn]; rfl
  obtain ⟨-, hle⟩ := abs_order32_le hb
  rw [← hoa] at hle
  simp only [lt32_eq_false_iff hna hb, le32_iff, lt32_iff, hna, hb, true_and, ne_eq, ← order32_eq_iff_of_isInf ha]
  omega

/-- -infinity is below every other value that is no NaN. -/
theorem compare_negInf {a b : F32} (ha : isInf a = true) (hn : neg32 a = true) (hb : isNaN b = false) :
    lt32 b a = false ∧ le32 a b = true ∧ (lt32 a b = true ↔ b ≠ a) ∧ (le32 b a = true ↔ b = a) := by
  have hna := isNaN_eq_false_of_isInf ha
  have hoa : order32 a = -(infMag : Int) := by rw [order32_of_isInf ha, hn]; rfl
  obtain ⟨hle, -⟩ := abs_order32_le hb
  rw [← hoa] at hle
  simp only [lt32_eq_false_iff hb hna, le32_iff, lt32_iff, hna, hb, true_and, ne_eq, ← order32_eq_iff_of_isInf ha]
  omega

/-! ### abs32 and floor32 -/

theorem getLsbD_abs32 (x : F32) (j : Nat) : (abs32 x).getLsbD j = (decide (j < 31) && x.getLsbD j) := by
  have hlt : x.toNat % 2 ^ 31 < 2 ^ 32 := by omega
  simp only [abs32, pack32, mag32, Bool.false_eq_true, if_false, BitVec.getLsbD_ofNat, Nat.testBit_mod_two_pow]
  by_cases h : j < 31
  · simp [h, show j < 32 by omega, BitVec.getLsbD]
  · simp [h]

/-- The finite values are those within the largest one. -/
theorem isFinite_iff_natAbs_le {x : F32} : isFinite x = true ↔ (value32 x).natAbs ≤ magUnits (infMag - 1) := by
  have hpos : 0 < infMag := by norm_num [infMag]
  rw [value32_natAbs, magUnits_le_iff]
  simp only [isFinite, decide_eq_true_eq]; omega

/-- The floor of a finite value is finite: the largest finite value is itself a whole number (R20). -/
theorem isFinite_floor32 {x : F32} (h : isFinite x = true) : isFinite (floor32 x) = true := by
  rw [isFinite_iff_natAbs_le]
  have hx := isFinite_iff_natAbs_le.1 h
  have hp : (0 : Int) < oneUnits := by exact_mod_cast oneUnits_pos
  have hwhole : (magUnits (infMag - 1) : Int) = (2 ^ 24 - 1) * 2 ^ 104 * oneUnits := by
    rw [magUnits_largest, oneUnits]; norm_num
  rw [(value32_floor32 h).2]
  generalize magUnits (infMag - 1) = top at *
  generalize ((2 ^ 24 - 1) * 2 ^ 104 : Int) = w at hwhole
  have hlow : -(top : Int) ≤ value32 x / oneUnits * oneUnits := calc
    -(top : Int) = -w * oneUnits := by rw [hwhole]; ring
    _ ≤ value32 x / oneUnits * oneUnits :=
      mul_le_mul_of_nonneg_right ((Int.le_ediv_iff_mul_le hp).2 (by rw [neg_mul, ← hwhole]; omega)) hp.le
  have hhigh : value32 x / oneUnits * oneUnits ≤ value32 x := Int.ediv_mul_le _ hp.ne'
  omega

theorem floor32_of_not_isFinite {x : F32} (h : isFinite x = false) : floor32 x = x := by simp [floor32, h]

theorem floor32_negZero : floor32 0x80000000#32 = 0x80000000#32 := by decide

/-! ### SIN_F32 and EXP2_F32 -/

theorem value32_of_neg32_eq_false {x : F32} (h : neg32 x = false) : value32 x = units32 x := by
  simp [value32, h]

theorem value32_of_neg32_eq_true {x : F32} (h : neg32 x = true) : value32 x = -(units32 x : Int) := by
  simp [value32, h]

theorem le32_trans {a b c : F32} (hab : le32 a b = true) (hbc : le32 b c = true) : le32 a c = true := by
  obtain ⟨ha, -, h1⟩ := le32_iff.1 hab
  obtain ⟨-, hc, h2⟩ := le32_iff.1 hbc
  exact le32_iff.2 ⟨ha, hc, h1.trans h2⟩

theorem lt32_eq_false_of_le32 {a b : F32} (h : le32 a b = true) : lt32 b a = false := by
  obtain ⟨ha, hb, ho⟩ := le32_iff.1 h
  exact (lt32_eq_false_iff hb ha).2 ho

/-- A value at or above a positive one has its sign bit clear. -/
theorem neg32_eq_false_of_le32 {c x : F32} (hc : 0 < order32 c) (h : le32 c x = true) : neg32 x = false := by
  have ho := (le32_iff.1 h).2.2
  by_contra hn
  have hle : order32 x ≤ 0 := by simp [order32, show neg32 x = true by simpa using hn]
  omega

/-- SIN_F32 of a finite value lies in [-1, 1] (R22). -/
theorem withinOne_sinF32 {x : F32} (h : isFinite x = true) : withinOne (sinF32 x) := by
  have hzero : withinOne zeroF := ⟨by decide, by decide⟩
  simp only [sinF32, isNaN_eq_false_of_isFinite h, h, Bool.true_and, Bool.false_eq_true, if_false]
  split_ifs with h0 hout
  · exact hzero
  · exact hzero
  · simpa [withinOne] using hout

/-- An encoding with its sign bit clear, up to infinity, is at least +0. -/
theorem le32_zeroF_pack32 {m : Nat} (h : m ≤ infMag) : le32 zeroF (pack32 false m) = true := by
  have hlt := lt_of_le_of_lt h infMag_lt
  have h0 : order32 zeroF = 0 := by decide
  refine le32_iff.2 ⟨by decide, by simpa [isNaN, mag32_pack32 _ hlt] using h, ?_⟩
  rw [h0]
  simp [order32, mag32_pack32 _ hlt, neg32_pack32 _ hlt]

/-- EXP2_F32 is at least +0 (R23). -/
theorem le32_zeroF_exp2F32 {x : F32} (h : isNaN x = false) : le32 zeroF (exp2F32 x) = true := by
  have hzero : le32 zeroF zeroF = true := by decide
  have hinf : le32 zeroF infF = true := by decide
  simp only [exp2F32, h, Bool.false_eq_true, if_false]
  split_ifs with _ _ _ _ _ hraw
  · exact hzero
  · exact hinf
  · exact hinf
  · exact le32_zeroF_pack32 (roundMag_le _ _)
  · exact le32_zeroF_pack32 (roundMag_le _ _)
  · exact hraw
  · exact hzero

theorem exp2F32_of_isInf {x : F32} (h : isInf x = true) : exp2F32 x = if neg32 x then zeroF else infF := by
  simp [exp2F32, h, isNaN_eq_false_of_isInf h]

theorem exp2F32_of_overflow {x : F32} (h : isFinite x = true) (hn : neg32 x = false)
    (hbig : 128 * oneUnits ≤ units32 x) : exp2F32 x = infF := by
  simp [exp2F32, isNaN_eq_false_of_isFinite h, isInf_eq_false_of_isFinite h, hn, hbig]

theorem exp2F32_of_nonneg_whole {x : F32} {n : Nat} (h : isFinite x = true) (hn : neg32 x = false)
    (hu : units32 x = n * oneUnits) (hle : n ≤ 127) : exp2F32 x = pow2F32 (149 + n) := by
  have hsmall : ¬128 * oneUnits ≤ n * oneUnits :=
    not_le.2 (Nat.mul_lt_mul_of_pos_right (by omega) oneUnits_pos)
  simp [exp2F32, isNaN_eq_false_of_isFinite h, isInf_eq_false_of_isFinite h, hn, hsmall, hu,
    Nat.mul_div_cancel _ oneUnits_pos]

theorem exp2F32_of_neg_whole {x : F32} {n : Nat} (h : isFinite x = true) (hn : neg32 x = true)
    (hu : units32 x = n * oneUnits) (hle : n ≤ 149) : exp2F32 x = pow2F32 (149 - n) := by
  have hsmall : n * oneUnits ≤ 149 * oneUnits := Nat.mul_le_mul_right _ hle
  simp [exp2F32, isNaN_eq_false_of_isFinite h, isInf_eq_false_of_isFinite h, hn, hsmall, hu,
    Nat.mul_div_cancel _ oneUnits_pos]

/-- At the integer `j - 149` EXP2_F32 is the power of two of `j` units (R23). -/
theorem exp2F32_of_whole {x : F32} {j : Nat} (h : isFinite x = true) (hj : j ≤ 276)
    (hv : value32 x = ((j : Int) - 149) * oneUnits) : exp2F32 x = pow2F32 j := by
  have hp : (0 : Int) < oneUnits := by exact_mod_cast oneUnits_pos
  cases hn : neg32 x
  · rw [value32_of_neg32_eq_false hn] at hv
    have hge : 149 ≤ j := by
      by_contra hc
      have : ((j : Int) - 149) * oneUnits < 0 := mul_neg_of_neg_of_pos (by omega) hp
      linarith
    rw [exp2F32_of_nonneg_whole (n := j - 149) h hn (by zify [hge]; exact hv) (by omega),
      Nat.add_sub_cancel' hge]
  · rw [value32_of_neg32_eq_true hn] at hv
    have hle : j ≤ 149 := by
      by_contra hc
      have : 0 < ((j : Int) - 149) * oneUnits := mul_pos (by omega) hp
      linarith
    rw [exp2F32_of_neg_whole (n := 149 - j) h hn (by zify [hle]; linarith) (by omega),
      Nat.sub_sub_self hle]

/-- Every power of two in the range of R23 is a finite encoding with its sign bit clear, exactly. -/
theorem pow2F32_exact {j : Nat} (hj : j ≤ 276) : neg32 (pow2F32 j) = false ∧ value32 (pow2F32 j) = 2 ^ j := by
  obtain ⟨m, hm⟩ := exists_magUnits (s := 1) (by norm_num) j
  rw [one_mul] at hm
  have hle : m ≤ infMag := by
    rw [← magUnits_le_iff, hm, magUnits_infMag]
    exact (Nat.pow_le_pow_right (by norm_num) (by omega)).trans_eq (pow_add 2 24 253)
  have hlt := lt_of_le_of_lt hle infMag_lt
  rw [pow2F32, ← hm, roundMag_exact_one hle, neg32_pack32 _ hlt, value32_pack32 _ hlt, hm]
  simp

/-- EXP2_F32 from 128 on is +infinity (R23). -/
theorem exp2F32_of_ge_128 {x : F32} (h : le32 0x43000000#32 x = true) : exp2F32 x = infF := by
  have hn := neg32_eq_false_of_le32 (by decide) h
  cases hf : isFinite x
  · rw [exp2F32_of_isInf (isInf_of_not_isFinite hf (le32_iff.1 h).2.1), hn]; rfl
  · refine exp2F32_of_overflow hf hn ?_
    have h128 : value32 0x43000000#32 = (128 * oneUnits : Nat) := by decide +kernel
    have hle := (le32_iff_value (by decide) hf).1 h
    rw [h128, value32_of_neg32_eq_false hn] at hle
    exact_mod_cast hle

/-! ### Conversions -/

theorem cvtU32F32_exact {n : Nat} (h : n ≤ 2 ^ 24) : value32 (cvtU32F32 n) = n * oneUnits := by
  obtain ⟨m, hm, hu⟩ := exists_magUnits_ones h
  rw [cvtU32F32, ← hu, roundMag_exact_one hm, value32_pack32 _ (lt_of_le_of_lt hm infMag_lt), hu]
  simp

theorem truncSatU32_of_nan_or_lt {x : F32} (h : isNaN x = true ∨ lt32 x oneF = true) : truncSatU32 x = 0 := by
  rcases h with h | h <;> simp [truncSatU32, h]

theorem truncSatU32_of_ge_one {x : F32} (h : le32 oneF x = true) :
    truncSatU32 x = if isInf x then 2 ^ 32 - 1 else min (2 ^ 32 - 1) (units32 x / oneUnits) := by
  simp [truncSatU32, (le32_iff.1 h).2.1, lt32_eq_false_of_le32 h]

/-- 2^32 in units. -/
theorem value32_two_pow_32 : value32 0x4F800000#32 = (2 ^ 32 * oneUnits : Nat) := by decide +kernel

theorem truncSatU32_of_ge_two_pow_32 {x : F32} (h : le32 0x4F800000#32 x = true) : truncSatU32 x = 2 ^ 32 - 1 := by
  rw [truncSatU32_of_ge_one (le32_trans (by decide) h)]
  split_ifs with hi
  · rfl
  · have hf : isFinite x = true := by
      by_contra hf
      exact hi (isInf_of_not_isFinite (by simpa using hf) (le32_iff.1 h).2.1)
    have hle := (le32_iff_value (by decide) hf).1 h
    rw [value32_two_pow_32, value32_of_neg32_eq_false (neg32_eq_false_of_le32 (by decide) h)] at hle
    have hq : 2 ^ 32 ≤ units32 x / oneUnits :=
      (Nat.le_div_iff_mul_le oneUnits_pos).2 (by exact_mod_cast hle)
    omega

theorem truncSatU32_floor {x : F32} (h1 : le32 oneF x = true) (h2 : lt32 x 0x4F800000#32 = true) :
    (truncSatU32 x : Int) = value32 x / oneUnits := by
  have hn := neg32_eq_false_of_le32 (by decide) h1
  obtain ⟨hnan, -, ho⟩ := lt32_iff.1 h2
  have hi : isInf x = false := by
    by_contra hi
    rw [order32_of_isInf (by simpa using hi), hn] at ho
    revert ho; decide
  have hf : isFinite x = true := by
    by_contra hf
    simp [isInf_of_not_isFinite (by simpa using hf) hnan] at hi
  have hlt := (lt32_iff_value hf (by decide)).1 h2
  rw [value32_two_pow_32, value32_of_neg32_eq_false hn] at hlt
  have hq : units32 x / oneUnits < 2 ^ 32 := (Nat.div_lt_iff_lt_mul oneUnits_pos).2 (by exact_mod_cast hlt)
  rw [truncSatU32_of_ge_one h1, hi, value32_of_neg32_eq_false hn, if_neg (by simp), min_eq_right (by omega)]
  push_cast; rfl

/-! ### What a command leaves alone in the slot arrays -/

@[simp] theorem sameSlot_complete (u : UnitKind) (k : Nat) (s t : State) :
    sameSlot u k s t.complete ↔ sameSlot u k s t := by cases u <;> rfl

@[simp] theorem sameSlot_refuse (u : UnitKind) (k : Nat) (s t : State) (c : Cause) (a : Nat) :
    sameSlot u k s (t.refuse c a) ↔ sameSlot u k s t := by cases u <;> rfl

theorem sameSlot_of_mem_draws (u : UnitKind) (k : Nat) (s t : State) (m : Memory) (d : Nat) :
    sameSlot u k { s with mem := m, draws := d } t ↔ sameSlot u k s t := by cases u <;> rfl

@[simp] theorem sameSlot_refl (u : UnitKind) (k : Nat) (s : State) : sameSlot u k s s := by cases u <;> rfl

/-- The array is that of unit `v`: putting a slot into it leaves every other slot of every unit as it was. -/
def SlotArray.LeavesOthers {α : Type} (A : SlotArray α) (v : UnitKind) : Prop :=
  ∀ (u : UnitKind) (k k' : Nat) (s : State) (sl : Slot α),
    some (v, k') ≠ some (u, k) → sameSlot u k s (A.put s k' sl)

theorem oscArray_leavesOthers : oscArray.LeavesOthers .osc := by
  intro u k k' s sl h
  cases u
  case osc => exact List.getElem?_set_ne (by rintro rfl; exact h rfl)
  all_goals rfl

theorem lfoArray_leavesOthers : lfoArray.LeavesOthers .lfo := by
  intro u k k' s sl h
  cases u
  case lfo => exact List.getElem?_set_ne (by rintro rfl; exact h rfl)
  all_goals rfl

theorem envArray_leavesOthers : envArray.LeavesOthers .env := by
  intro u k k' s sl h
  cases u
  case env => exact List.getElem?_set_ne (by rintro rfl; exact h rfl)
  all_goals rfl

theorem clkArray_leavesOthers : clkArray.LeavesOthers .clk := by
  intro u k k' s sl h
  cases u
  case clk => exact List.getElem?_set_ne (by rintro rfl; exact h rfl)
  all_goals rfl

theorem seqArray_leavesOthers : seqArray.LeavesOthers .seq := by
  intro u k k' s sl h
  cases u
  case seq => exact List.getElem?_set_ne (by rintro rfl; exact h rfl)
  all_goals rfl

section SlotCommands

variable {α : Type} {A : SlotArray α} {v u : UnitKind} {k k' : Nat} {s : State}
  (hA : A.LeavesOthers v) (hne : some (v, k') ≠ some (u, k))
include hA hne

theorem sameSlot_createSlot (init : α) : sameSlot u k s (createSlot A init k' s) := by
  obtain ⟨c, -, e⟩ | ⟨d, -, e⟩ := createSlot_cases A init k' s
  · simp [e]
  · simpa [e] using hA u k k' s _ hne

theorem sameSlot_destroySlot : sameSlot u k s (destroySlot A k' s) := by
  obtain ⟨c, -, e⟩ | ⟨r, -, e⟩ := destroySlot_cases A k' s
  · simp [e]
  · simpa [e] using hA u k k' s _ hne

theorem sameSlot_updateSlot (f : α → α) : sameSlot u k s (updateSlot A f k' s) := by
  obtain ⟨c, -, e⟩ | ⟨r, -, e⟩ := updateSlot_cases A f k' s
  · simp [e]
  · simpa [e] using hA u k k' s _ hne

theorem sameSlot_processSlot (bufs : List BufferOperand) (step : UnitStep α) :
    sameSlot u k s (processSlot A bufs step k' s) := by
  obtain ⟨c, -, e⟩ | ⟨r, -, -, e⟩ | ⟨c, a, -, -, e⟩ | ⟨r, -, -, -, e⟩ := processSlot_cases A bufs step k' s
  · simp [e]
  · simp [e]
  · simp [e]
  · rw [e, processEffect, sameSlot_complete]
    exact (sameSlot_of_mem_draws ..).1 (hA u k k' _ _ hne)

end SlotCommands

end Sys2Proof.Machine

namespace Sys2Proof.Proofs

/-- Settles O41: one rule per shared slot operation, applied to the array of the command's unit. -/
theorem commandsTouchOnlyTheSlotTheyName : Obligations.CommandsTouchOnlyTheSlotTheyName := by
  intro i s t u k h hne
  cases i <;> obtain rfl := Host.Outcome.next.inj h
  case nop => simp
  case createOsc => exact sameSlot_createSlot oscArray_leavesOthers hne _
  case createLfo => exact sameSlot_createSlot lfoArray_leavesOthers hne _
  case createEnv => exact sameSlot_createSlot envArray_leavesOthers hne _
  case createClk => exact sameSlot_createSlot clkArray_leavesOthers hne _
  case createSeq => exact sameSlot_createSlot seqArray_leavesOthers hne _
  case destroyOsc => exact sameSlot_destroySlot oscArray_leavesOthers hne
  case destroyLfo => exact sameSlot_destroySlot lfoArray_leavesOthers hne
  case destroyEnv => exact sameSlot_destroySlot envArray_leavesOthers hne
  case destroyClk => exact sameSlot_destroySlot clkArray_leavesOthers hne
  case destroySeq => exact sameSlot_destroySlot seqArray_leavesOthers hne
  case setTypeOsc => exact sameSlot_updateSlot oscArray_leavesOthers hne _
  case setTypeLfo => exact sameSlot_updateSlot lfoArray_leavesOthers hne _
  case processOsc => exact sameSlot_processSlot oscArray_leavesOthers hne _ _
  case processLfo => exact sameSlot_processSlot lfoArray_leavesOthers hne _ _
  case processEnv => exact sameSlot_processSlot envArray_leavesOthers hne _ _
  case processClk => exact sameSlot_processSlot clkArray_leavesOthers hne _ _
  case processSeq => exact sameSlot_processSlot seqArray_leavesOthers hne _ _

/-- Settles O55: every result is packed from one rounding, `roundMag`, which rounds to nearest, ties to even. -/
theorem arithmeticRoundsToNearestEven : Obligations.ArithmeticRoundsToNearestEven := by
  intro d a b ha hb
  rw [add32_finite d ha hb, sub32_finite d ha hb, mul32_finite d ha hb]
  refine ⟨roundSum_rounds _ _, roundSum_rounds _ _, pack32_roundMag_rounds _ (by norm_num), fun h0 => ?_⟩
  rw [div32_finite d ha hb h0]
  exact pack32_roundMag_rounds _ (units32_pos h0)

/-- Settles O56: the equation of each operation on NaNs, infinities and zeros. -/
theorem invalidOperationsGiveNaN : Obligations.InvalidOperationsGiveNaN := by
  intro d a b
  refine ⟨?nan, ?infInf, ?zeroInf, ?zeroZero, ?infFinite, ?infTimes, ?overZero⟩
  case nan =>
    intro h
    simp [add32_nan d h, sub32_nan d h, mul32_nan d h, div32_nan d h]
  case infInf =>
    intro ha hb
    rw [div32_inf_inf d ha hb, add32_inf_inf d ha hb, sub32_inf_inf d ha hb]
    exact ⟨isNaN_nan32 d, fun e => by simp [e], fun e => by simp [e]⟩
  case zeroInf =>
    intro ha hb
    have hna := isNaN_eq_false_of_isFinite (isFinite_of_isZero ha)
    simp [mul32_inf_right d hna hb, mul32_inf_left d hb hna, ha]
  case zeroZero =>
    intro ha hb
    simp [div32_finite_zero d (isFinite_of_isZero ha) hb, ha]
  case infFinite =>
    intro ha hb
    simp [add32_inf_finite d ha hb, add32_finite_inf d hb ha, sub32_inf_finite d ha hb, sub32_finite_inf d hb ha,
      div32_inf_finite d ha hb, div32_finite_inf d hb ha, ha]
  case infTimes =>
    intro ha hb hz
    simp [mul32_inf_left d ha hb, mul32_inf_right d hb ha, hz]
  case overZero =>
    intro ha hz hb
    simp [div32_finite_zero d ha hb, hz]

/-- Settles O57: the order of the encodings is that of the values, with the infinities at its ends. -/
theorem comparisonsAndFloorFollowTheValues : Obligations.ComparisonsAndFloorFollowTheValues := by
  intro a b
  refine ⟨?nan, ?finite, ?inf, by rw [getLsbD_abs32]; rfl, fun j hj => by simp [getLsbD_abs32, hj], ?floor,
    floor32_of_not_isFinite, floor32_negZero⟩
  case nan =>
    rintro (h | h) <;> simp [gt32, ge32, h]
  case finite =>
    intro ha hb
    exact ⟨lt32_iff_value ha hb, le32_iff_value ha hb, lt32_iff_value hb ha, le32_iff_value hb ha⟩
  case inf =>
    intro ha hb
    refine ⟨fun hn => ?_, fun hn => ?_⟩
    · obtain ⟨hlt, hle, hltIff, hleIff⟩ := compare_posInf ha hn hb
      exact ⟨hlt, hle, hltIff, hleIff, hlt, hle, hltIff, hleIff⟩
    · obtain ⟨hlt, hle, hltIff, hleIff⟩ := compare_negInf ha hn hb
      exact ⟨hlt, hle, hltIff, hleIff, hlt, hle, hltIff, hleIff⟩
  case floor =>
    intro ha
    exact ⟨isFinite_floor32 ha, by simpa [oneUnits] using (value32_floor32 ha).2⟩

/-- Settles O58: the free functions as R22 and R23 bound them, and the exact powers of two. -/
theorem sinAndExp2HaveTheRequiredProperties : Obligations.SinAndExp2HaveTheRequiredProperties := by
  refine ⟨fun x => withinOne_sinF32, if_pos rfl, fun x => le32_zeroF_exp2F32, fun x => isNaN_exp2F32,
    fun x j hx hj hv => ?_, fun x => exp2F32_of_ge_128, exp2F32_of_isInf (by decide)⟩
  rw [exp2F32_of_whole hx hj (by simpa [oneUnits] using hv)]
  exact pow2F32_exact hj

/-- Settles O59: exact conversions below 2^24, one rounding above, and the floor within the range of 32 bits. -/
theorem conversionsAreExactWhereTheyCanBe : Obligations.ConversionsAreExactWhereTheyCanBe := by
  refine ⟨fun n hn => by simpa [oneUnits] using cvtU32F32_exact hn.le, fun n _ => pack32_roundMag_rounds _ one_pos,
    fun x => ⟨truncSatU32_of_nan_or_lt, truncSatU32_of_ge_two_pow_32, fun h1 h2 => ?_⟩⟩
  simpa [oneUnits] using truncSatU32_floor h1 h2

/-- Settles O1: every field of the power-on state at the default parameters. -/
theorem resetStateIsTheSpecifiedOne : Obligations.ResetStateIsTheSpecifiedOne := by
  refine ⟨{ status := rfl, args := ?args, osc := rfl, lfo := rfl, env := rfl, clk := rfl, seq := rfl, memBytes := rfl },
    by decide, by decide, by decide, by decide⟩
  decide

end Sys2Proof.Proofs

end

section
/-! The statements on the state of the block (10_state.md): the invariant, the host's registers, the ALLOC bits, the
phases and the register window. First the laws they share, then one theorem per statement. -/

open Sys2Proof Sys2Proof.Machine Sys2Proof.Claims

namespace Sys2Proof.Machine

/-! ### What a slot array's write leaves alone -/

theorem SlotArray.Lawful.put_params {α : Type} {A : SlotArray α} (hA : A.Lawful) (s : State) (k : Nat) (sl : Slot α) :
    (A.put s k sl).params = s.params := hA.set_params _ _ List.length_set

/-! ### Every change of STATUS is legal (10_state.md R33, R34, 60_exceptions.md R270) -/

theorem Status.legal_init : Status.init.Legal where
  causeBound := by decide
  completed _ := rfl
  faultArgZero _ := rfl
  faultArgBuffer h := absurd h (by decide)

theorem Status.legal_completed (t : Status) : t.completed.Legal where
  causeBound := by simp [Status.completed]
  completed _ := rfl
  faultArgZero _ := rfl
  faultArgBuffer h := absurd h (by simp [Status.completed])

theorem Cause.code_le (c : Cause) : c.code.toNat ≤ 9 := by cases c <;> decide

/-- FAULT_ARG is recorded for causes 7, 8 and 9 (60_exceptions.md R270). -/
theorem Cause.namesArg_iff (c : Cause) : c.namesArg = true ↔ 7 ≤ c.code.toNat := by cases c <;> decide

/-- A refusal is legal when FAULT_ARG names a buffer operand for each cause that records one. -/
theorem Status.legal_refused {c : Cause} {k : Nat} (t : Status)
    (h : c.namesArg = true → isBufferArg (BitVec.ofNat 8 k)) : (t.refused c k).Legal where
  causeBound := c.code_le
  completed := nofun
  faultArgZero hc := if_neg fun hn => absurd (c.namesArg_iff.1 hn) (not_le.2 hc)
  faultArgBuffer hc := by
    have hn := c.namesArg_iff.2 hc
    simpa only [Status.refused, hn, if_true] using h hn

theorem Status.Legal.hostWrite {t : Status} (h : t.Legal) (v : Word) : (t.hostWrite v).Legal :=
  ⟨h.causeBound, h.completed, h.faultArgZero, h.faultArgBuffer⟩

/-! ### The initial records are legal, and one sample keeps a record legal -/

theorem EnvState.legal_init : EnvState.init.Legal := ⟨⟨by decide, by decide⟩, fun _ => rfl⟩

theorem ClkState.legal_init : ClkState.init.Legal := by simp [ClkState.Legal, ClkState.init]

theorem truncSatU32_le (x : F32) : truncSatU32 x ≤ 2 ^ 32 - 1 := by
  simp only [truncSatU32]
  split_ifs <;> omega

/-- The counter starts again before it comes to the period, and no period is above 2^32 - 1 (45_clock.md R243). -/
theorem ClkState.legal_clkBeat {n : Nat} (hn : n ≤ 2 ^ 32 - 1) (c : ClkState) : (clkBeat n c).Legal := by
  simp only [clkBeat, ClkState.Legal]
  split_ifs with h
  · simp
  · simp only [BitVec.toNat_ofNat]; omega

theorem clkGate_counter (pulse : F32) (c : ClkState) : (clkGate pulse c).counter = c.counter := by
  simp only [clkGate]
  split_ifs <;> rfl

theorem ClkState.legal_clkStep {k : ClkConsts} (hk : k.period ≤ 2 ^ 32 - 1) (d : Nat) (c : ClkState) (x y : F32) :
    (clkStep k d c x y).data.Legal := by
  have hbeat := ClkState.legal_clkBeat hk c
  simpa only [clkStep, ClkState.Legal, clkGate_counter] using hbeat

theorem EnvState.Legal.after_envTrigger {e : EnvState} (he : e.Legal) (x : F32) : (envTrigger e x).Legal := by
  simp only [envTrigger]
  split_ifs
  · exact ⟨he.clamped, fun h => by simp at h⟩
  · exact ⟨he.clamped, he.idleIsZero⟩

/-- A stage that leaves the envelope in Idle gives +0.0 (44_envelope.md R214, R215). -/
theorem envStage_idle {e : EnvState} (he : e.Legal) (d : Nat) (p : EnvParams) (dt : F32)
    (h : (envStage d p dt e).1.stage = .idle) : (envStage d p dt e).2 = zeroF := by
  cases hs : e.stage <;> simp only [envStage, hs] at h ⊢
  case idle => exact he.idleIsZero hs
  case attack =>
    simp only [envAttack] at h
    split_ifs at h
    simp [hs] at h
  case decay =>
    simp only [envDecay] at h ⊢
    split_ifs at h ⊢
    · rfl
    · simp [hs] at h

theorem EnvState.Legal.after_envStep {e : EnvState} (he : e.Legal) (p : EnvParams) (d : Nat) (x y : F32) :
    (envStep p d e x y).data.Legal where
  clamped := clamp01_clamped _
  idleIsZero h := by
    simp only [envStep] at h ⊢
    rw [envStage_idle (he.after_envTrigger x) _ _ _ h, clamp01_zeroF]

/-! ### The invariant under the updates of the state -/

theorem State.Inv.complete {s : State} (h : s.Inv) : s.complete.Inv :=
  ⟨h.params, h.memCanonical, h.memInside, Status.legal_completed _, h.env, h.clk⟩

theorem State.Inv.refuse {s : State} (h : s.Inv) {c : Cause} {k : Nat}
    (hc : c.namesArg = true → isBufferArg (BitVec.ofNat 8 k)) : (s.refuse c k).Inv :=
  ⟨h.params, h.memCanonical, h.memInside, Status.legal_refused s.status hc, h.env, h.clk⟩

/-- A refusal that records no FAULT_ARG keeps the invariant. -/
theorem State.Inv.refuse_plain {s : State} (h : s.Inv) {c : Cause} (hc : c.namesArg = false) {k : Nat} :
    (s.refuse c k).Inv := h.refuse fun hn => absurd (hc.symm.trans hn) Bool.false_ne_true

theorem State.Inv.within {s : State} (h : s.Inv) : Memory.Within s.memBytes s.mem := ⟨h.memCanonical, h.memInside⟩

/-- The invariant says nothing of the ARG registers or the model's own fields. -/
theorem State.Inv.withUnconstrained {s : State} (h : s.Inv) (args : Vector Word 16) (powerOns draws : Nat)
    (readData : Word) (host : List HostOp) :
    State.Inv { s with args := args, powerOns := powerOns, draws := draws, readData := readData, host := host } :=
  ⟨h.params, h.memCanonical, h.memInside, h.status, h.env, h.clk⟩

theorem State.Inv.withMem {s : State} (h : s.Inv) {m : Memory} (hm : Memory.Within s.memBytes m) (d : Nat) :
    State.Inv { s with mem := m, draws := d } :=
  ⟨h.params, hm.1, hm.2, h.status, h.env, h.clk⟩

/-- The records of array `A` are kept at `P` by the invariant: its slots have `P`, and a slot with `P` may be put. -/
structure SlotArray.Guards {α : Type} (A : SlotArray α) (P : α → Prop) : Prop where
  read : ∀ {s : State} {k : Nat} {sl : Slot α}, s.Inv → (A.get s)[k]? = some sl → P sl.data
  put : ∀ {s : State} {sl : Slot α} (k : Nat), s.Inv → P sl.data → (A.put s k sl).Inv

/-- A slot may be put into an array when that leaves the envelopes and the clocks legal. -/
theorem SlotArray.Lawful.inv_put {α : Type} {A : SlotArray α} (hA : A.Lawful) {s : State} (hs : s.Inv) (k : Nat)
    (sl : Slot α) (henv : ∀ x ∈ (A.put s k sl).env, x.data.Legal) (hclk : ∀ x ∈ (A.put s k sl).clk, x.data.Legal) :
    (A.put s k sl).Inv where
  params := by rw [hA.put_params]; exact hs.params
  memCanonical := by rw [SlotArray.put, hA.set_mem]; exact hs.memCanonical
  memInside := by rw [SlotArray.put, hA.set_mem, hA.set_memBytes]; exact hs.memInside
  status := by rw [SlotArray.put, hA.set_status]; exact hs.status
  env := henv
  clk := hclk

theorem oscArray_guards : oscArray.Guards fun _ => True where
  read _ _ := trivial
  put k hs _ := oscArray_lawful.inv_put hs k _ hs.env hs.clk

theorem lfoArray_guards : lfoArray.Guards fun _ => True where
  read _ _ := trivial
  put k hs _ := lfoArray_lawful.inv_put hs k _ hs.env hs.clk

theorem envArray_guards : envArray.Guards EnvState.Legal where
  read hs hk := hs.env _ (List.mem_of_getElem? hk)
  put k hs hsl :=
    envArray_lawful.inv_put hs k _ (fun _ hx => (List.mem_or_eq_of_mem_set hx).elim (hs.env _) (· ▸ hsl)) hs.clk

theorem clkArray_guards : clkArray.Guards ClkState.Legal where
  read hs hk := hs.clk _ (List.mem_of_getElem? hk)
  put k hs hsl :=
    clkArray_lawful.inv_put hs k _ hs.env (fun _ hx => (List.mem_or_eq_of_mem_set hx).elim (hs.clk _) (· ▸ hsl))

theorem seqArray_guards : seqArray.Guards fun _ => True where
  read _ _ := trivial
  put k hs _ := seqArray_lawful.inv_put hs k _ hs.env hs.clk

/-! ### The buffer lists -/

/-- What the invariant needs of a unit's buffers: each stands in a register that may hold a buffer address, and none of
the two outputs is the step table, so each holds a word per sample. -/
def BuffersSound (bufs : List BufferOperand) : Prop :=
  ∀ b ∈ bufs, isBufferArg (BitVec.ofNat 8 b.arg.val) ∧ (b.arg = 8 ∨ b.arg = 9 → b.role ≠ .requiredTable)

theorem oscBuffers_sound : BuffersSound oscBuffers := by simp [BuffersSound, oscBuffers, isBufferArg]

theorem lfoBuffers_sound : BuffersSound lfoBuffers := by simp [BuffersSound, lfoBuffers, isBufferArg]

theorem envBuffers_sound : BuffersSound envBuffers := by simp [BuffersSound, envBuffers, isBufferArg]

theorem clkBuffers_sound : BuffersSound clkBuffers := by simp [BuffersSound, clkBuffers, isBufferArg]

theorem seqBuffers_sound : BuffersSound seqBuffers := by simp [BuffersSound, seqBuffers, isBufferArg]

theorem BufferRole.size_of_ne_table {r : BufferRole} (h : r ≠ .requiredTable) (n : Nat) : r.size n = 4 * n := by
  cases r
  case requiredTable => exact absurd rfl h
  all_goals rfl

/-! ### The invariant under the slot commands -/

theorem SlotArray.namesArg_of_allocated {α : Type} {A : SlotArray α} {s : State} {k : Nat} {c : Cause}
    (h : A.allocated s k = .error c) : c.namesArg = false := by
  obtain rfl | rfl := SlotArray.allocated_error h <;> rfl

theorem SlotArray.namesArg_of_createRefusal {α : Type} {A : SlotArray α} {s : State} {k : Nat} {c : Cause}
    (h : A.createRefusal s k = some c) : c.namesArg = false := by
  obtain rfl | rfl := SlotArray.createRefusal_some h <;> rfl

section SlotCommandsInv

variable {α : Type} {A : SlotArray α} {P : α → Prop} {s : State} (hA : A.Guards P) (hs : s.Inv) (k : Nat)
include hA hs

theorem SlotArray.Guards.inv_createSlot {init : α} (hinit : P init) : (createSlot A init k s).Inv := by
  obtain ⟨c, hc, e⟩ | ⟨d, -, e⟩ := createSlot_cases A init k s <;> rw [e]
  · exact hs.refuse_plain (SlotArray.namesArg_of_createRefusal hc)
  · exact (hA.put k hs hinit).complete

theorem SlotArray.Guards.inv_destroySlot : (destroySlot A k s).Inv := by
  obtain ⟨c, hc, e⟩ | ⟨r, hr, e⟩ := destroySlot_cases A k s <;> rw [e]
  · exact hs.refuse_plain (SlotArray.namesArg_of_allocated hc)
  · have hP : P r := hA.read hs hr
    exact State.Inv.complete (hA.put k hs hP)

theorem SlotArray.Guards.inv_updateSlot {f : α → α} (hf : ∀ r, P r → P (f r)) : (updateSlot A f k s).Inv := by
  obtain ⟨c, hc, e⟩ | ⟨r, hr, e⟩ := updateSlot_cases A f k s <;> rw [e]
  · exact hs.refuse_plain (SlotArray.namesArg_of_allocated hc)
  · exact (hA.put k hs (hf r (hA.read hs hr))).complete

theorem SlotArray.Guards.inv_processSlot {bufs : List BufferOperand} (hbufs : BuffersSound bufs) {step : UnitStep α}
    (hstep : ∀ d r x y, P r → P (step d r x y).data) : (processSlot A bufs step k s).Inv := by
  obtain ⟨c, hc, e⟩ | ⟨r, -, -, e⟩ | ⟨c, a, -, hc, e⟩ | ⟨r, hr, -, hok, e⟩ :=
    processSlot_cases A bufs step k s <;> rw [e]
  · exact hs.refuse_plain (SlotArray.namesArg_of_allocated hc)
  · exact hs.complete
  · obtain ⟨⟨b, hb, rfl⟩, -⟩ := checkBuffers_some hc
    exact hs.refuse fun _ => (hbufs b hb).1
  · have h8 := fits_portOf 8 hok fun b hb e => BufferRole.size_of_ne_table ((hbufs b hb).2 (.inl e)) _
    have h9 := fits_portOf 9 hok fun b hb e => BufferRole.size_of_ne_table ((hbufs b hb).2 (.inr e)) _
    have hmem := within_runBlock (e := s.powerOns) (p := portsOf s bufs) (step := step)
      (b := { data := r, mem := s.mem, draws := s.draws }) hs.within h8 h9
    exact (hA.put k (hs.withMem hmem _) (runBlock_data P hstep _ _ _ (hA.read hs hr))).complete

end SlotCommandsInv

/-! ### The invariant under commands and host operations -/

/-- No command breaks the invariant: one rule per shared slot operation, at the array of the command's unit. -/
theorem State.Inv.after_exec {s t : State} (hs : s.Inv) {i : Instr} (h : exec i s = .next t) : t.Inv := by
  cases i <;> obtain rfl := Host.Outcome.next.inj h
  case nop => exact hs.complete
  case createOsc k => exact oscArray_guards.inv_createSlot hs k trivial
  case createLfo k => exact lfoArray_guards.inv_createSlot hs k trivial
  case createEnv k => exact envArray_guards.inv_createSlot hs k EnvState.legal_init
  case createClk k => exact clkArray_guards.inv_createSlot hs k ClkState.legal_init
  case createSeq k => exact seqArray_guards.inv_createSlot hs k trivial
  case destroyOsc k => exact oscArray_guards.inv_destroySlot hs k
  case destroyLfo k => exact lfoArray_guards.inv_destroySlot hs k
  case destroyEnv k => exact envArray_guards.inv_destroySlot hs k
  case destroyClk k => exact clkArray_guards.inv_destroySlot hs k
  case destroySeq k => exact seqArray_guards.inv_destroySlot hs k
  case setTypeOsc k => exact oscArray_guards.inv_updateSlot hs k fun _ _ => trivial
  case setTypeLfo k => exact lfoArray_guards.inv_updateSlot hs k fun _ _ => trivial
  case processOsc k => exact oscArray_guards.inv_processSlot hs k oscBuffers_sound fun _ _ _ _ _ => trivial
  case processLfo k => exact lfoArray_guards.inv_processSlot hs k lfoBuffers_sound fun _ _ _ _ _ => trivial
  case processEnv k =>
    exact envArray_guards.inv_processSlot hs k envBuffers_sound fun d _ x y hr => hr.after_envStep _ d x y
  case processClk k =>
    exact clkArray_guards.inv_processSlot hs k clkBuffers_sound fun d r x y _ =>
      ClkState.legal_clkStep (truncSatU32_le _) d r x y
  case processSeq k => exact seqArray_guards.inv_processSlot hs k seqBuffers_sound fun _ _ _ _ _ => trivial

theorem State.Inv.after_issueCommand {s t : State} (hs : s.Inv) {w : Word} (h : issueCommand w s = .next t) :
    t.Inv := by
  simp only [issueCommand] at h
  split at h
  · exact hs.after_exec h
  · next e _ =>
    obtain rfl := Host.Outcome.next.inj h
    exact hs.refuse_plain (by cases e <;> rfl)

theorem State.Inv.after_writeRegister {s t : State} (hs : s.Inv) {r : Register} {v : Word}
    (h : writeRegister r v s = .next t) : t.Inv := by
  cases r
  case cmd => exact hs.after_issueCommand h
  all_goals obtain rfl := Host.Outcome.next.inj h
  case status => exact ⟨hs.params, hs.memCanonical, hs.memInside, hs.status.hostWrite v, hs.env, hs.clk⟩
  case arg => exact hs.withUnconstrained _ _ _ _ _
  all_goals exact hs

theorem State.Inv.after_hostRegRead {s t : State} (hs : s.Inv) {off : BitVec 8} {w : Width}
    (h : hostRegRead off w s = .next t) : t.Inv := by
  simp only [hostRegRead] at h
  split_ifs at h
  obtain rfl := Host.Outcome.next.inj h
  exact hs.withUnconstrained _ _ _ _ _

theorem State.Inv.after_hostRegWrite {s t : State} (hs : s.Inv) {off : BitVec 8} {w : Width} {v : Word}
    (h : hostRegWrite off w v s = .next t) : t.Inv := by
  simp only [hostRegWrite] at h
  split_ifs at h
  exact hs.after_writeRegister h

theorem State.Inv.after_hostMemRead {s t : State} (hs : s.Inv) {a : Nat} {w : Width}
    (h : hostMemRead a w s = .next t) : t.Inv := by
  simp only [hostMemRead] at h
  split_ifs at h
  obtain rfl := Host.Outcome.next.inj h
  exact hs.withUnconstrained _ _ _ _ _

theorem State.Inv.after_hostMemWrite {s t : State} (hs : s.Inv) {a : Nat} {w : Width} {v : Word}
    (h : hostMemWrite a w v s = .next t) : t.Inv := by
  simp only [hostMemWrite] at h
  split_ifs at h with hfits
  obtain rfl := Host.Outcome.next.inj h
  exact hs.withMem (Memory.within_writeLE hs.within _ _ _ (not_lt.1 hfits)) _

theorem State.Inv.after_hostBusRead {s t : State} (hs : s.Inv) {a : Nat} {w : Width}
    (h : hostBusRead a w s = .next t) : t.Inv := by
  simp only [hostBusRead] at h
  split at h
  · exact hs.after_hostRegRead h
  · exact hs.after_hostMemRead h
  · nomatch h

theorem State.Inv.after_hostBusWrite {s t : State} (hs : s.Inv) {a : Nat} {w : Width} {v : Word}
    (h : hostBusWrite a w v s = .next t) : t.Inv := by
  simp only [hostBusWrite] at h
  split at h
  · exact hs.after_hostRegWrite h
  · exact hs.after_hostMemWrite h
  · nomatch h

/-- The state power-on reset leaves has the invariant, for all legal parameters. -/
theorem State.inv_powerOn {p : Params} (hp : p.legal) : (State.powerOn p).Inv where
  params := by simpa [State.params, State.powerOn] using hp
  memCanonical := List.Pairwise.nil
  memInside := by simp [State.powerOn]
  status := Status.legal_init
  env sl hsl := by
    obtain rfl := List.eq_of_mem_replicate hsl
    exact EnvState.legal_init
  clk sl hsl := by
    obtain rfl := List.eq_of_mem_replicate hsl
    exact ClkState.legal_init

theorem State.Inv.after_hostAccess {s t : State} (hs : s.Inv) {op : HostOp} (h : hostAccess op s = .next t) :
    t.Inv := by
  cases op
  case regRead => exact hs.after_hostRegRead h
  case regWrite => exact hs.after_hostRegWrite h
  case memRead => exact hs.after_hostMemRead h
  case memWrite => exact hs.after_hostMemWrite h
  case busRead => exact hs.after_hostBusRead h
  case busWrite => exact hs.after_hostBusWrite h
  case powerOnReset =>
    obtain rfl := Host.Outcome.next.inj h
    exact (State.inv_powerOn hs.params).withUnconstrained _ _ _ _ _

/-! ### Steps -/

/-- A step with operations pending does the oldest of them. -/
theorem step_of_host {s : State} {op : HostOp} {rest : List HostOp} (h : s.host = op :: rest) :
    step s = hostAccess op { s with host := rest } := by simp only [step, h]

/-! ### What no command changes -/

/-- The ARG registers, the parameters and what is the host's are the same in both states. -/
def SameHostSide (s t : State) : Prop :=
  t.args = s.args ∧ t.params = s.params ∧ t.powerOns = s.powerOns ∧ t.readData = s.readData ∧ t.host = s.host

@[simp] theorem sameHostSide_complete (s t : State) : SameHostSide s t.complete ↔ SameHostSide s t := Iff.rfl

@[simp] theorem sameHostSide_refuse (s t : State) (c : Cause) (a : Nat) :
    SameHostSide s (t.refuse c a) ↔ SameHostSide s t := Iff.rfl

@[simp] theorem sameHostSide_refl (s : State) : SameHostSide s s := ⟨rfl, rfl, rfl, rfl, rfl⟩

section SlotCommandsHostSide

variable {α : Type} {A : SlotArray α} (hA : A.Lawful) (k : Nat) (s : State)
include hA

theorem SlotArray.Lawful.sameHostSide_put (sl : Slot α) : SameHostSide s (A.put s k sl) :=
  ⟨hA.set_args _ _, hA.put_params s k sl, hA.set_powerOns _ _, hA.set_readData _ _, hA.set_host _ _⟩

theorem SlotArray.Lawful.sameHostSide_createSlot (init : α) : SameHostSide s (createSlot A init k s) := by
  obtain ⟨c, -, e⟩ | ⟨d, -, e⟩ := createSlot_cases A init k s
  · simp [e]
  · simpa [e] using hA.sameHostSide_put k s _

theorem SlotArray.Lawful.sameHostSide_destroySlot : SameHostSide s (destroySlot A k s) := by
  obtain ⟨c, -, e⟩ | ⟨r, -, e⟩ := destroySlot_cases A k s
  · simp [e]
  · simpa [e] using hA.sameHostSide_put k s _

theorem SlotArray.Lawful.sameHostSide_updateSlot (f : α → α) : SameHostSide s (updateSlot A f k s) := by
  obtain ⟨c, -, e⟩ | ⟨r, -, e⟩ := updateSlot_cases A f k s
  · simp [e]
  · simpa [e] using hA.sameHostSide_put k s _

theorem SlotArray.Lawful.sameHostSide_processSlot (bufs : List BufferOperand) (step : UnitStep α) :
    SameHostSide s (processSlot A bufs step k s) := by
  obtain ⟨c, -, e⟩ | ⟨r, -, -, e⟩ | ⟨c, a, -, -, e⟩ | ⟨r, -, -, -, e⟩ := processSlot_cases A bufs step k s
  · simp [e]
  · simp [e]
  · simp [e]
  · rw [e, processEffect, sameHostSide_complete]
    exact hA.sameHostSide_put k { s with mem := _, draws := _ } _

end SlotCommandsHostSide

/-! ### The ALLOC bits -/

/-- The ALLOC bit of slot `k`, if the array has that slot (10_state.md R45). -/
def SlotArray.allocAt {α : Type} (A : SlotArray α) (s : State) (k : Nat) : Option Bool := (A.get s)[k]?.map Slot.alloc

theorem allocBit_eq_of_sameSlot {u : UnitKind} {k : Nat} {s t : State} (h : sameSlot u k s t) :
    allocBit u t k = allocBit u s k := by
  cases u <;> exact congrArg (Option.map Slot.alloc) h

section SlotCommandsAlloc

variable {α : Type} {A : SlotArray α} (hA : A.Lawful) {k : Nat} {s : State}
include hA

theorem SlotArray.Lawful.allocAt_complete (k : Nat) (s : State) : A.allocAt s.complete k = A.allocAt s k := by
  rw [SlotArray.allocAt, State.complete, hA.get_status]; rfl

theorem SlotArray.Lawful.allocAt_refuse (c : Cause) (a k : Nat) (s : State) :
    A.allocAt (s.refuse c a) k = A.allocAt s k := by
  rw [SlotArray.allocAt, State.refuse, hA.get_status]; rfl

/-- Slot `k`, which the array has, holds the ALLOC bit put into it. -/
theorem SlotArray.Lawful.allocAt_put {sl : Slot α} (h : (A.get s)[k]? = some sl) (sl' : Slot α) :
    A.allocAt (A.put s k sl').complete k = some sl'.alloc := by
  rw [hA.allocAt_complete, SlotArray.allocAt, SlotArray.put, hA.get_set, List.getElem?_set_self', h]
  rfl

theorem SlotArray.Lawful.allocAt_createSlot {init : α}
    (hne : A.allocAt (createSlot A init k s) k ≠ A.allocAt s k) :
    A.allocAt s k = some false ∧ A.allocAt (createSlot A init k s) k = some true := by
  obtain ⟨c, -, e⟩ | ⟨d, hd, e⟩ := createSlot_cases A init k s
  · exact absurd (by rw [e, hA.allocAt_refuse]) hne
  · exact ⟨by rw [SlotArray.allocAt, hd]; rfl, by rw [e, hA.allocAt_put hd]⟩

theorem SlotArray.Lawful.allocAt_destroySlot (hne : A.allocAt (destroySlot A k s) k ≠ A.allocAt s k) :
    A.allocAt s k = some true ∧ A.allocAt (destroySlot A k s) k = some false := by
  obtain ⟨c, -, e⟩ | ⟨r, hr, e⟩ := destroySlot_cases A k s
  · exact absurd (by rw [e, hA.allocAt_refuse]) hne
  · exact ⟨by rw [SlotArray.allocAt, hr]; rfl, by rw [e, hA.allocAt_put hr]⟩

theorem SlotArray.Lawful.allocAt_updateSlot (f : α → α) : A.allocAt (updateSlot A f k s) k = A.allocAt s k := by
  obtain ⟨c, -, e⟩ | ⟨r, hr, e⟩ := updateSlot_cases A f k s
  · rw [e, hA.allocAt_refuse]
  · rw [e, hA.allocAt_put hr, SlotArray.allocAt, hr]; rfl

theorem SlotArray.Lawful.allocAt_processSlot (bufs : List BufferOperand) (step : UnitStep α) :
    A.allocAt (processSlot A bufs step k s) k = A.allocAt s k := by
  obtain ⟨c, -, e⟩ | ⟨r, -, -, e⟩ | ⟨c, a, -, -, e⟩ | ⟨r, hr, -, -, e⟩ := processSlot_cases A bufs step k s
  · rw [e, hA.allocAt_refuse]
  · rw [e, hA.allocAt_complete]
  · rw [e, hA.allocAt_refuse]
  · rw [e, processEffect, hA.allocAt_put (by rw [hA.get_mem]; exact hr), SlotArray.allocAt, hr]; rfl

end SlotCommandsAlloc

/-! ### Phases (10_state.md R62) -/

theorem inUnitInterval_zeroF : inUnitInterval zeroF := ⟨by decide, by decide⟩

/-- A sum too small to overflow rounds to a finite value. -/
theorem isFinite_roundSum_of_lt {z : Int} (n : Bool) (h : z.natAbs < overflowUnits) :
    isFinite (roundSum z n) = true := by
  have henc := roundEnc_lt_infMag one_pos (by rwa [mul_one])
  rw [isFinite, mag32_roundSum, roundMag_eq, min_eq_right henc.le]
  exact decide_eq_true henc

theorem value32_roundSum_nonneg {z : Int} (n : Bool) (h : 0 ≤ z) : 0 ≤ value32 (roundSum z n) := by
  rcases h.eq_or_lt with rfl | h
  · have : (value32 (roundSum 0 n)).natAbs = 0 := by rw [value32_natAbs, mag32_roundSum]; simp
    omega
  · rw [value32_of_neg32_eq_false (by simp [neg32_roundSum n h.ne', h.le])]
    exact Int.natCast_nonneg _

/-- A finite increment keeps a phase finite: it adds less than 1.0, too little to overflow. -/
theorem isFinite_add32_phase {x y : F32} (d : Nat) (hx : inUnitInterval x) (hy : isFinite y = true) :
    isFinite (add32 d x y) = true := by
  have hfx := isFinite_of_inUnitInterval hx
  obtain ⟨h0, h1⟩ := (inUnitInterval_iff_value hfx).1 hx
  have hle := isFinite_iff_natAbs_le.1 hy
  have hroom : magUnits (infMag - 1) + oneUnits < overflowUnits := by
    rw [magUnits_largest]; norm_num [oneUnits, overflowUnits]
  rw [add32_finite d hfx hy]
  exact isFinite_roundSum_of_lt _ (by omega)

/-- Wrap of a finite value lies in [0, 1) (40_leaf_utilities.md R122): the fraction rounds to a value from 0 to 1, and
1.0 is folded to 0. -/
theorem inUnitInterval_wrap32 {x : F32} (d : Nat) (h : isFinite x = true) : inUnitInterval (wrap32 d x) := by
  have hp : (0 : Int) < oneUnits := by exact_mod_cast oneUnits_pos
  have hfl := isFinite_floor32 h
  have hsub : value32 x - value32 (floor32 x) = value32 x % oneUnits := by
    rw [(value32_floor32 h).2, Int.emod_def, mul_comm]
  have h0 := Int.emod_nonneg (value32 x) hp.ne'
  have h1 := Int.emod_lt_of_pos (value32 x) hp
  simp only [wrap32]
  rw [sub32_finite d h hfl, hsub]
  split_ifs with hge
  · exact inUnitInterval_zeroF
  · have hfin := isFinite_roundSum (z := value32 x % oneUnits) (m := 127 * 2 ^ 23) (neg32 x && !neg32 (floor32 x))
      (by norm_num [infMag]) (by rw [← oneUnits_eq]; omega)
    refine ⟨?_, lt32_of_not_le32 (by decide) (isNaN_eq_false_of_isFinite hfin) (by simpa [ge32] using hge)⟩
    rw [le32_iff_value isFinite_zeroF hfin, value32_zeroF]
    exact value32_roundSum_nonneg _ h0

/-- A finite phase, wrapped when it has left [0, 1), lies in [0, 1) (R175, R193). -/
theorem inUnitInterval_wrapped {x : F32} (d : Nat) (h : isFinite x = true) :
    inUnitInterval (if ge32 x oneF || lt32 x zeroF then wrap32 d x else x) := by
  split_ifs with hout
  · exact inUnitInterval_wrap32 d h
  · obtain ⟨hge, hlt⟩ : ge32 x oneF = false ∧ lt32 x zeroF = false := by simpa using hout
    have hnan := isNaN_eq_false_of_isFinite h
    exact ⟨le32_of_not_lt32 hnan (by decide) hlt, lt32_of_not_le32 (by decide) hnan hge⟩

/-- A finite phase that is not negative, wrapped from 1.0 on, lies in [0, 1) (R172). -/
theorem inUnitInterval_synced {x : F32} (d : Nat) (h : isFinite x = true) (h0 : 0 ≤ value32 x) :
    inUnitInterval (if ge32 x oneF then wrap32 d x else x) := by
  have hlt : lt32 x zeroF = false := by
    rw [← Bool.not_eq_true, lt32_iff_value h isFinite_zeroF, value32_zeroF]; omega
  simpa [hlt] using inUnitInterval_wrapped d h

/-- A phase plus an increment that is not negative is not negative. -/
theorem value32_add32_phase {x y : F32} (d : Nat) (hx : inUnitInterval x) (hy : isFinite y = true)
    (hy0 : le32 zeroF y = true) : 0 ≤ value32 (add32 d x y) := by
  have hfx := isFinite_of_inUnitInterval hx
  have hx0 := ((inUnitInterval_iff_value hfx).1 hx).1
  rw [le32_iff_value isFinite_zeroF hy, value32_zeroF] at hy0
  rw [add32_finite d hfx hy]
  exact value32_roundSum_nonneg _ (add_nonneg hx0 hy0)

/-! ### The register window (10_state.md R30) -/

/-- From 0x14 on the window holds the ARG registers and reserved offsets. -/
theorem registerAt_above {off : BitVec 8} (h : 0x14 ≤ off.toNat) :
    registerAt off =
      if 64 ≤ off.toNat ∧ off.toNat < 128 then .arg (Fin.ofNat 16 ((off.toNat - 64) / 4)) else .reserved := by
  have hne : ∀ c : BitVec 8, c.toNat < 0x14 → off ≠ c := by rintro c hc rfl; omega
  simp only [registerAt, hne 0x00#8 (by decide), hne 0x04#8 (by decide), hne 0x08#8 (by decide),
    hne 0x0C#8 (by decide), hne 0x10#8 (by decide), if_false]

theorem registerAt_arg {off : BitVec 8} {k : Fin 16} (h : off.toNat = 0x40 + 4 * k.val) : registerAt off = .arg k := by
  have hk := k.isLt
  have hidx : Fin.ofNat 16 ((off.toNat - 64) / 4) = k := Fin.ext (by simp only [Fin.val_ofNat]; omega)
  rw [registerAt_above (by omega), if_pos (by omega), hidx]

theorem registerAt_reserved {off : BitVec 8} (h : 0x14 ≤ off.toNat) (h' : off.toNat < 0x40 ∨ 0x80 ≤ off.toNat) :
    registerAt off = .reserved := by
  rw [registerAt_above h, if_neg (by omega)]

theorem registerAccessDefined_word {off : BitVec 8} (h : off.toNat % 4 = 0) :
    registerAccessDefined off .word = true := by simp [registerAccessDefined, h]

theorem registerAccessDefined_eq_false {off : BitVec 8} {w : Width} (h : w ≠ .word ∨ off.toNat % 4 ≠ 0) :
    registerAccessDefined off w = false := by
  rcases h with h | h <;> simp [registerAccessDefined, h]

section RegisterSteps

variable {s : State} {off : BitVec 8} {rest : List HostOp}

/-- A defined read of the window returns the register at its offset and changes nothing else. -/
theorem step_regRead (hoff : off.toNat % 4 = 0) (h : s.host = .regRead off .word :: rest) :
    step s = .next { s with host := rest, readData := s.register (registerAt off) } := by
  rw [step_of_host h]
  exact if_pos (registerAccessDefined_word hoff)

/-- A defined write of the window is a write of the register at its offset. -/
theorem step_regWrite {v : Word} (hoff : off.toNat % 4 = 0) (h : s.host = .regWrite off .word v :: rest) :
    step s = writeRegister (registerAt off) v { s with host := rest } := by
  rw [step_of_host h]
  exact if_pos (registerAccessDefined_word hoff)

end RegisterSteps

theorem issueCommand_of_decodes {w : Word} {i : Instr} (h : decodeWord w = .ok i) (s : State) :
    issueCommand w s = exec i s := by simp only [issueCommand, h]

/-! ### The words of STATUS, CONFIG0 and CONFIG1 (R32 to R36) -/

/-- A concatenation as a number. -/
theorem toNat_append_add {m n : Nat} (x : BitVec m) (y : BitVec n) :
    (x ++ y).toNat = x.toNat * 2 ^ n + y.toNat := by
  rw [BitVec.toNat_append, ← Nat.shiftLeft_add_eq_or_of_lt y.isLt, Nat.shiftLeft_eq]

theorem getLsbD_of_toNat {n i : Nat} {x : BitVec n} {b : Bool} (h : x.toNat / 2 ^ i % 2 = b.toNat) :
    x.getLsbD i = b := by
  rw [BitVec.getLsbD, Nat.testBit_eq_decide_div_mod_eq, h]
  cases b <;> rfl

theorem extractLsb'_of_toNat {n m i : Nat} {x : BitVec n} {y : BitVec m} (h : x.toNat / 2 ^ i % 2 ^ m = y.toNat) :
    x.extractLsb' i m = y := by
  apply BitVec.eq_of_toNat_eq
  rw [BitVec.extractLsb'_toNat, Nat.shiftRight_eq_div_pow, h]

/-- STATUS as a number: its four fields from bits 0, 1, 8 and 16 on. -/
theorem Status.toNat_word (t : Status) :
    t.word.toNat = t.err.toNat + 2 * t.lastOk.toNat + 2 ^ 8 * t.cause.toNat + 2 ^ 16 * t.faultArg.toNat := by
  simp only [Status.word, toNat_append_add, BitVec.toNat_ofBool, BitVec.ofNat_eq_ofNat, BitVec.toNat_ofNat]
  omega

theorem Status.hostWrite_of_set {v : Word} (h : v.getLsbD 0 = true) (t : Status) :
    t.hostWrite v = { t with err := false } := by
  simp only [Status.hostWrite, h, Bool.not_true, Bool.and_false]

theorem Status.hostWrite_of_clear {v : Word} (h : v.getLsbD 0 = false) (t : Status) : t.hostWrite v = t := by
  simp only [Status.hostWrite, h, Bool.not_false, Bool.and_true]

theorem State.config0_eq {s : State} (h : s.params.legal) :
    s.config0 = BitVec.ofNat 32 ((s.osc.length - 1) + 2 ^ 8 * (s.lfo.length - 1) +
      2 ^ 16 * (s.env.length - 1) + 2 ^ 24 * (s.clk.length - 1)) := by
  obtain ⟨hosc, hlfo, henv, hclk, -⟩ := h
  simp only [State.params, Params.legalCount] at hosc hlfo henv hclk
  apply BitVec.eq_of_toNat_eq
  simp only [State.config0, toNat_append_add, BitVec.toNat_ofNat]
  omega

theorem State.config1_eq {s : State} (h : s.params.legal) : s.config1 = BitVec.ofNat 32 (s.seq.length - 1) := by
  obtain ⟨-, -, -, -, hseq, -⟩ := h
  simp only [State.params, Params.legalCount] at hseq
  apply BitVec.eq_of_toNat_eq
  simp only [State.config1, toNat_append_add, BitVec.ofNat_eq_ofNat, BitVec.toNat_ofNat]
  omega

/-! ### Host addresses (20_memory.md R70, R73) -/

theorem inWindow_iff {a : Nat} : inWindow a = true ↔ Config.regBase ≤ a ∧ a < Config.regBase + 256 := by
  simp [inWindow]

theorem inSampleMemory_iff {s : State} {a : Nat} :
    inSampleMemory s a = true ↔ Config.memBase ≤ a ∧ a < Config.memBase + s.memBytes := by
  simp [inSampleMemory]

theorem hostBusTarget_window (s : State) (off : BitVec 8) :
    hostBusTarget s (Config.regBase + off.toNat) =
      if inSampleMemory s (Config.regBase + off.toNat) then .stop .hostWindowsOverlap else .window off := by
  have hin : inWindow (Config.regBase + off.toNat) = true := inWindow_iff.2 ⟨by omega, by have := off.isLt; omega⟩
  rw [hostBusTarget, if_pos hin, Nat.add_sub_cancel_left, BitVec.ofNat_toNat, BitVec.setWidth_eq]

theorem hostBusTarget_memory {s : State} {a : Nat} (h : a < s.memBytes) :
    hostBusTarget s (Config.memBase + a) =
      if inWindow (Config.memBase + a) then .stop .hostWindowsOverlap else .memory a := by
  have hin : inSampleMemory s (Config.memBase + a) = true := inSampleMemory_iff.2 ⟨by omega, by omega⟩
  rw [hostBusTarget, if_pos hin, if_pos hin, Nat.add_sub_cancel_left]

end Sys2Proof.Machine

namespace Sys2Proof.Proofs

/-- Settles O44: an idle step changes nothing, and every host operation keeps the invariant. -/
theorem stepKeepsTheInvariant : Obligations.StepKeepsTheInvariant := by
  intro s t hs h
  cases hhost : s.host with
  | nil =>
    simp only [step, hhost] at h
    obtain rfl := Host.Outcome.next.inj h
    exact hs
  | cons op rest =>
    rw [step_of_host hhost] at h
    exact (hs.withUnconstrained s.args s.powerOns s.draws s.readData rest).after_hostAccess h

/-- Settles O38: one rule per shared slot operation, applied to the array of the command's unit. -/
theorem commandsLeaveTheHostsRegisters : Obligations.CommandsLeaveTheHostsRegisters := by
  intro i s t h
  change SameHostSide s t
  cases i <;> obtain rfl := Host.Outcome.next.inj h
  case nop => simp
  case createOsc => exact oscArray_lawful.sameHostSide_createSlot _ _ _
  case createLfo => exact lfoArray_lawful.sameHostSide_createSlot _ _ _
  case createEnv => exact envArray_lawful.sameHostSide_createSlot _ _ _
  case createClk => exact clkArray_lawful.sameHostSide_createSlot _ _ _
  case createSeq => exact seqArray_lawful.sameHostSide_createSlot _ _ _
  case destroyOsc => exact oscArray_lawful.sameHostSide_destroySlot _ _
  case destroyLfo => exact lfoArray_lawful.sameHostSide_destroySlot _ _
  case destroyEnv => exact envArray_lawful.sameHostSide_destroySlot _ _
  case destroyClk => exact clkArray_lawful.sameHostSide_destroySlot _ _
  case destroySeq => exact seqArray_lawful.sameHostSide_destroySlot _ _
  case setTypeOsc => exact oscArray_lawful.sameHostSide_updateSlot _ _ _
  case setTypeLfo => exact lfoArray_lawful.sameHostSide_updateSlot _ _ _
  case processOsc => exact oscArray_lawful.sameHostSide_processSlot _ _ _ _
  case processLfo => exact lfoArray_lawful.sameHostSide_processSlot _ _ _ _
  case processEnv => exact envArray_lawful.sameHostSide_processSlot _ _ _ _
  case processClk => exact clkArray_lawful.sameHostSide_processSlot _ _ _ _
  case processSeq => exact seqArray_lawful.sameHostSide_processSlot _ _ _ _

/-- Settles O40: a slot whose ALLOC bit changed is the one the command names, and of the slot operations only CREATE and
DESTROY change that bit. -/
theorem allocChangesOnlyByCreateAndDestroy : Obligations.AllocChangesOnlyByCreateAndDestroy := by
  intro i s t u k h hne
  have hnamed : namedSlot i = some (u, k) := by
    by_contra hother
    exact hne (allocBit_eq_of_sameSlot (commandsTouchOnlyTheSlotTheyName i s t u k h hother))
  cases i <;> cases hnamed <;> obtain rfl := Host.Outcome.next.inj h
  case createOsc => exact .inl ⟨rfl, oscArray_lawful.allocAt_createSlot hne⟩
  case createLfo => exact .inl ⟨rfl, lfoArray_lawful.allocAt_createSlot hne⟩
  case createEnv => exact .inl ⟨rfl, envArray_lawful.allocAt_createSlot hne⟩
  case createClk => exact .inl ⟨rfl, clkArray_lawful.allocAt_createSlot hne⟩
  case createSeq => exact .inl ⟨rfl, seqArray_lawful.allocAt_createSlot hne⟩
  case destroyOsc => exact .inr ⟨rfl, oscArray_lawful.allocAt_destroySlot hne⟩
  case destroyLfo => exact .inr ⟨rfl, lfoArray_lawful.allocAt_destroySlot hne⟩
  case destroyEnv => exact .inr ⟨rfl, envArray_lawful.allocAt_destroySlot hne⟩
  case destroyClk => exact .inr ⟨rfl, clkArray_lawful.allocAt_destroySlot hne⟩
  case destroySeq => exact .inr ⟨rfl, seqArray_lawful.allocAt_destroySlot hne⟩
  case setTypeOsc => exact absurd (oscArray_lawful.allocAt_updateSlot _) hne
  case setTypeLfo => exact absurd (lfoArray_lawful.allocAt_updateSlot _) hne
  case processOsc => exact absurd (oscArray_lawful.allocAt_processSlot _ _) hne
  case processLfo => exact absurd (lfoArray_lawful.allocAt_processSlot _ _) hne
  case processEnv => exact absurd (envArray_lawful.allocAt_processSlot _ _) hne
  case processClk => exact absurd (clkArray_lawful.allocAt_processSlot _ _) hne
  case processSeq => exact absurd (seqArray_lawful.allocAt_processSlot _ _) hne

/-- Settles O48: a finite increment leaves the sum finite, and every finite phase outside [0, 1) is wrapped. -/
theorem phasesStayInTheUnitInterval : Obligations.PhasesStayInTheUnitInterval := by
  refine ⟨fun p d r f sh => ⟨fun hr hinc => ?slave, fun hr hinc h0 => ?master⟩, fun p d r q x hr hinc => ?lfo⟩
  case slave =>
    rw [oscStep_slavePhase]
    refine inUnitInterval_wrapped _ (isFinite_add32_phase _ ?_ hinc)
    split_ifs
    · exact inUnitInterval_zeroF
    · exact hr
  case master =>
    rw [oscStep_masterPhase]
    exact inUnitInterval_synced _ (isFinite_add32_phase _ hr hinc) (value32_add32_phase _ hr hinc h0)
  case lfo =>
    rw [lfoStep_phase]
    refine inUnitInterval_wrapped _ (isFinite_add32_phase _ ?_ hinc)
    split_ifs
    · exact inUnitInterval_zeroF
    · exact hr

/-- Settles O19: the target of a host address decides which access the step does. -/
theorem hostAddressesReachBothWindows : Obligations.HostAddressesReachBothWindows := by
  intro s w v rest
  refine ⟨fun off => ?window, fun a ha => ?memory⟩
  case window =>
    have htarget := hostBusTarget_window { s with host := rest } off
    simp only [inSampleMemory_iff] at htarget
    simp only [step, hostAccess, hostBusRead, hostBusWrite, htarget]
    split_ifs <;> exact ⟨rfl, rfl⟩
  case memory =>
    have htarget := hostBusTarget_memory (s := { s with host := rest }) ha
    simp only [inWindow_iff] at htarget
    simp only [step, hostAccess, hostBusRead, hostBusWrite, htarget]
    split_ifs <;> exact ⟨rfl, rfl⟩

/-- Settles O3: CMD is the register at offset 0. -/
theorem stepRunsTheDecodedCommand : Obligations.StepRunsTheDecodedCommand := by
  intro s rest
  refine ⟨fun w i h hw => ?_, fun h => step_regRead (by decide) h⟩
  rw [step_regWrite (by decide) h]
  exact issueCommand_of_decodes hw _

/-- Settles O10: the register at each aligned offset, and its word. -/
theorem registerReadsReturnTheWindow : Obligations.RegisterReadsReturnTheWindow := by
  intro s off rest hlegal h
  refine ⟨?cmd, ?status, ?config0, ?config1, ?config2, fun k hk => ?arg, fun hoff hge hres => ?reserved⟩
  case cmd => rintro rfl; exact step_regRead (by decide) h
  case status => rintro rfl; exact step_regRead (by decide) h
  case config0 => rintro rfl; rw [← State.config0_eq hlegal]; exact step_regRead (by decide) h
  case config1 => rintro rfl; rw [← State.config1_eq hlegal]; exact step_regRead (by decide) h
  case config2 => rintro rfl; exact step_regRead (by decide) h
  case arg => rw [step_regRead (by omega) h, registerAt_arg hk]; rfl
  case reserved => rw [step_regRead hoff h, registerAt_reserved hge hres]; rfl

/-- Settles O11: bits and fields are digits of the word as a number. -/
theorem statusWordHasTheSpecifiedLayout : Obligations.StatusWordHasTheSpecifiedLayout := by
  intro t
  have herr := t.err.toNat_le
  have hok := t.lastOk.toNat_le
  have hcause := t.cause.isLt
  have hfault := t.faultArg.isLt
  refine ⟨getLsbD_of_toNat ?_, getLsbD_of_toNat ?_, extractLsb'_of_toNat ?_, extractLsb'_of_toNat ?_,
    extractLsb'_of_toNat ?_, extractLsb'_of_toNat ?_⟩
  all_goals simp only [t.toNat_word, BitVec.ofNat_eq_ofNat, BitVec.toNat_zero]; omega

/-- Settles O12: STATUS is the register at offset 4, and a write to it changes ERR alone. -/
theorem statusWriteOnlyClearsErr : Obligations.StatusWriteOnlyClearsErr := by
  intro s v rest h
  have hstep : step s = .next { s with host := rest, status := s.status.hostWrite v } :=
    step_regWrite (by decide) h
  refine ⟨fun hv => ?_, fun hv => ?_⟩
  · rw [hstep, Status.hostWrite_of_set hv]
  · rw [hstep, Status.hostWrite_of_clear hv]

/-- Settles O13: the register at `0x40 + 4k` is ARG[k], for the write as for the read. -/
theorem argRegistersHoldWhatIsWritten : Obligations.ArgRegistersHoldWhatIsWritten := by
  intro s k off v rest hoff h
  have hstep : step s = .next (State.setArg { s with host := rest } k v) := by
    rw [step_regWrite (by omega) h, registerAt_arg hoff]; rfl
  refine ⟨_, hstep, by simp, fun j hj => State.setArg_arg_ne _ v hj.symm, rfl, fun more hmore => ?_⟩
  rw [step_regRead (off := off) (by omega) hmore, registerAt_arg hoff, State.register, State.setArg_arg_self]

/-- Settles O14: CONFIG0, CONFIG1, CONFIG2 and the reserved registers ignore writes. -/
theorem hardwiredAndReservedRegistersIgnoreWrites : Obligations.HardwiredAndReservedRegistersIgnoreWrites := by
  intro s off v rest hoff hwhich h
  rw [step_regWrite hoff h]
  rcases hwhich with rfl | rfl | rfl | ⟨hge, hlt⟩ | hge
  · rfl
  · rfl
  · rfl
  · rw [registerAt_reserved hge (.inl hlt)]; rfl
  · rw [registerAt_reserved (by omega) (.inr hge)]; rfl

/-- Settles O15: such an access is not defined, so the window refuses it. -/
theorem undefinedRegisterAccessIsRefused : Obligations.UndefinedRegisterAccessIsRefused := by
  intro s off w v rest hbad
  have hundefined := registerAccessDefined_eq_false hbad
  refine ⟨fun h => ?_, fun h => ?_⟩ <;> rw [step_of_host h]
  · simp [hostAccess, hostRegRead, hundefined]
  · simp [hostAccess, hostRegWrite, hundefined]

end Sys2Proof.Proofs

end

section
/-! The statements on the sample memory (20_memory.md): host accesses, the buffer checks and what no command but PROCESS
changes. First the laws they share, then one theorem per statement. -/

open Sys2Proof Sys2Proof.Machine Sys2Proof.Claims

namespace Sys2Proof.Machine

/-! ### The bytes of a number in the sample memory (20_memory.md R76) -/

/-- Byte `j` of a word is a digit of it in base 256. -/
theorem extractLsb'_byte (v : Word) (j : Nat) : v.extractLsb' (8 * j) 8 = BitVec.ofNat 8 (v.toNat / 256 ^ j) := by
  apply extractLsb'_of_toNat
  rw [pow_mul, BitVec.toNat_ofNat]
  norm_num

theorem Memory.byteAt_writeLE_word (e : Nat) (m : Memory) (a : Nat) {n j : Nat} (v : Word) (hj : j < n) :
    Memory.byteAt e (Memory.writeLE m a n v.toNat) (a + j) = v.extractLsb' (8 * j) 8 := by
  rw [Memory.byteAt_writeLE, if_pos (by omega), Nat.add_sub_cancel_left, extractLsb'_byte]

theorem Memory.readLE_lt (e : Nat) (m : Memory) (a n : Nat) : Memory.readLE e m a n < 256 ^ n := by
  induction n generalizing a with
  | zero => simp [Memory.readLE]
  | succ n ih =>
    have hbyte := (Memory.byteAt e m a).isLt
    have hrest := ih (a + 1)
    rw [Memory.readLE, pow_succ]
    omega

/-- The digits of the number read are the bytes read, and 0 above them. -/
theorem Memory.readLE_digit (e : Nat) (m : Memory) (a n j : Nat) :
    BitVec.ofNat 8 (Memory.readLE e m a n / 256 ^ j) = if j < n then Memory.byteAt e m (a + j) else 0 := by
  induction n generalizing a j with
  | zero => simp [Memory.readLE]
  | succ n ih =>
    have hbyte := (Memory.byteAt e m a).isLt
    cases j with
    | zero =>
      apply BitVec.eq_of_toNat_eq
      simp only [Memory.readLE, BitVec.toNat_ofNat, pow_zero, Nat.zero_lt_succ, if_true, Nat.add_zero]
      omega
    | succ j =>
      have hshift : Memory.readLE e m a (n + 1) / 256 = Memory.readLE e m (a + 1) n := by
        rw [Memory.readLE]; omega
      rw [pow_succ', ← Nat.div_div_eq_div_mul, hshift, ih, Nat.add_right_comm, Nat.add_assoc]
      simp only [Nat.add_lt_add_iff_right]

theorem Memory.extractLsb'_readLE (e : Nat) (m : Memory) (a : Nat) {n : Nat} (j : Nat) (hn : n ≤ 4) :
    (BitVec.ofNat 32 (Memory.readLE e m a n)).extractLsb' (8 * j) 8 =
      if j < n then Memory.byteAt e m (a + j) else 0 := by
  have hword : Memory.readLE e m a n < 2 ^ 32 :=
    calc Memory.readLE e m a n < 256 ^ n := Memory.readLE_lt e m a n
      _ ≤ 256 ^ 4 := Nat.pow_le_pow_right (by norm_num) hn
      _ = 2 ^ 32 := by norm_num
  rw [extractLsb'_byte, BitVec.toNat_ofNat, Nat.mod_eq_of_lt hword, Memory.readLE_digit]

/-! ### Host accesses to the sample memory (R70) -/

theorem Width.bytes_le (w : Width) : w.bytes ≤ 4 := by cases w <;> decide

section MemorySteps

variable {s : State} {a : Nat} {w : Width} {rest : List HostOp}

theorem step_memRead (hfits : a + w.bytes ≤ s.memBytes) (h : s.host = .memRead a w :: rest) :
    step s = .next { s with
      host := rest, readData := BitVec.ofNat 32 (Memory.readLE s.powerOns s.mem a w.bytes) } := by
  rw [step_of_host h]
  exact if_neg (not_lt.2 hfits)

theorem step_memWrite {v : Word} (hfits : a + w.bytes ≤ s.memBytes) (h : s.host = .memWrite a w v :: rest) :
    step s = .next { s with host := rest, mem := Memory.writeLE s.mem a w.bytes v.toNat } := by
  rw [step_of_host h]
  exact if_neg (not_lt.2 hfits)

end MemorySteps

/-! ### The unit's buffers as the statements list them (30_encoding.md R102 to R106) -/

/-- A buffer operand of the model as the statements describe it. -/
def BufferOperand.described (b : BufferOperand) : Buffer where
  arg := b.arg
  required := b.role.required
  table := decide (b.role = .requiredTable)

/-- The buffer operands of each unit's PROCESS command. -/
def unitOperands : UnitKind → List BufferOperand
  | .osc => oscBuffers
  | .lfo => lfoBuffers
  | .env => envBuffers
  | .clk => clkBuffers
  | .seq => seqBuffers

theorem map_described_unitOperands (u : UnitKind) :
    (unitOperands u).map BufferOperand.described = unitBuffers u := by cases u <;> rfl

theorem BufferOperand.described_bytes (b : BufferOperand) (n : Nat) : b.described.bytes n = b.role.size n := by
  obtain ⟨k, r⟩ := b
  cases r <;> rfl

/-- A buffer passes the checks of R78 and R79 exactly when the model's check finds no cause. -/
theorem BufferOperand.good_iff (b : BufferOperand) (s : State) (n : Nat) :
    b.described.Good s n ↔ checkBuffer s.memBytes n (s.argAddr b.arg) b.role = none := by
  rw [checkBuffer_none, Buffer.Good, b.described_bytes]
  rfl

/-- A buffer that fails with a cause is reported by the model's check with the code of that cause. -/
theorem BufferOperand.checkBuffer_of_failsWith {b : BufferOperand} {s : State} {n cause : Nat}
    (h : b.described.FailsWith s n cause) :
    ∃ c : Cause, checkBuffer s.memBytes n (s.argAddr b.arg) b.role = some c ∧
      c.code = BitVec.ofNat 8 cause ∧ c.namesArg = true := by
  rw [Buffer.FailsWith, b.described_bytes] at h
  obtain ⟨rfl, hnull, hreq⟩ | ⟨rfl, hpresent, hodd⟩ | ⟨rfl, hpresent, haligned, hlong⟩ := h
  · exact ⟨.nullBuffer, (if_pos hnull).trans (if_pos hreq), rfl, rfl⟩
  · exact ⟨.misaligned, (if_neg hpresent).trans (if_pos hodd), rfl, rfl⟩
  · exact ⟨.outOfRange, (if_neg hpresent).trans ((if_neg (not_not.2 haligned)).trans (if_pos hlong)), rfl, rfl⟩

/-- A unit's buffer checks report the first buffer that fails, with the first check it fails (60_exceptions.md R271). -/
theorem checkBuffers_unitOperands {s : State} {u : UnitKind} {n cause : Nat} {before after : List Buffer} {b : Buffer}
    (hbufs : unitBuffers u = before ++ b :: after) (hgood : ∀ x ∈ before, x.Good s n)
    (hbad : b.FailsWith s n cause) :
    ∃ c : Cause, checkBuffers s n (unitOperands u) = some (c, b.arg.val) ∧
      c.code = BitVec.ofNat 8 cause ∧ c.namesArg = true := by
  rw [← map_described_unitOperands] at hbufs
  obtain ⟨before', rest, hsplit, rfl, hrest⟩ := List.map_eq_append_iff.1 hbufs
  obtain ⟨b', after', rfl, rfl, -⟩ := List.map_eq_cons_iff.1 hrest
  obtain ⟨c, hc, hcode, hnames⟩ := BufferOperand.checkBuffer_of_failsWith hbad
  have hpass : ∀ x ∈ before', checkBuffer s.memBytes n (s.argAddr x.arg) x.role = none := fun x hx =>
    (x.good_iff s n).1 (hgood _ (List.mem_map_of_mem hx))
  exact ⟨c, hsplit ▸ checkBuffers_append hpass hc, hcode, hnames⟩

/-! ### PROCESS with a buffer that fails -/

theorem processSlot_of_badBuffer {α : Type} {A : SlotArray α} {bufs : List BufferOperand} {k n j : Nat}
    {s : State} {c : Cause} (step : UnitStep α) (halloc : A.allocAt s k = some true) (hlen : s.length = n) (hn : 0 < n)
    (hbad : checkBuffers s n bufs = some (c, j)) : processSlot A bufs step k s = s.refuse c j := by
  obtain ⟨⟨_, r⟩, hslot, rfl⟩ := Option.map_eq_some_iff.1 halloc
  have hpos : ¬ s.length ≤ 0 := by omega
  have hcount : s.length.toNat = n := by omega
  simp only [processSlot, SlotArray.allocated_ok.2 hslot, if_neg hpos, hcount, hbad]

theorem exec_processOf_of_badBuffer {u : UnitKind} {k n j : Nat} {s : State} {c : Cause}
    (halloc : allocBit u s k = some true) (hlen : s.length = n) (hn : 0 < n)
    (hbad : checkBuffers s n (unitOperands u) = some (c, j)) : exec (processOf u k) s = .next (s.refuse c j) := by
  cases u
  case osc => exact congrArg _ (processSlot_of_badBuffer (A := oscArray) _ halloc hlen hn hbad)
  case lfo => exact congrArg _ (processSlot_of_badBuffer (A := lfoArray) _ halloc hlen hn hbad)
  case env => exact congrArg _ (processSlot_of_badBuffer (A := envArray) _ halloc hlen hn hbad)
  case clk => exact congrArg _ (processSlot_of_badBuffer (A := clkArray) _ halloc hlen hn hbad)
  case seq => exact congrArg _ (processSlot_of_badBuffer (A := seqArray) _ halloc hlen hn hbad)

/-- STATUS after a refusal whose cause names an ARG register (60_exceptions.md R276). -/
theorem Status.refused_of_namesArg {c : Cause} {cause : Nat} (hcode : c.code = BitVec.ofNat 8 cause)
    (hnames : c.namesArg = true) (t : Status) (j : Nat) : t.refused c j = turnedAway cause j := by
  rw [Status.refused, turnedAway, if_pos hnames, hcode]

/-! ### What only PROCESS changes -/

/-- The sample memory reads the same in both states, and no NaN was drawn between them. -/
def SameSamples (s t : State) : Prop := (∀ a, t.readByte a = s.readByte a) ∧ t.draws = s.draws

@[simp] theorem sameSamples_complete (s t : State) : SameSamples s t.complete ↔ SameSamples s t := Iff.rfl

@[simp] theorem sameSamples_refuse (s t : State) (c : Cause) (a : Nat) :
    SameSamples s (t.refuse c a) ↔ SameSamples s t := Iff.rfl

@[simp] theorem sameSamples_refl (s : State) : SameSamples s s := ⟨fun _ => rfl, rfl⟩

section SlotCommandsSamples

variable {α : Type} {A : SlotArray α} (hA : A.Lawful) (k : Nat) (s : State)
include hA

theorem SlotArray.Lawful.sameSamples_put (sl : Slot α) : SameSamples s (A.put s k sl) := by
  refine ⟨fun a => ?_, hA.set_draws _ _⟩
  rw [State.readByte, State.readByte, SlotArray.put, hA.set_powerOns, hA.set_mem]

theorem SlotArray.Lawful.sameSamples_createSlot (init : α) : SameSamples s (createSlot A init k s) := by
  obtain ⟨c, -, e⟩ | ⟨d, -, e⟩ := createSlot_cases A init k s
  · simp [e]
  · simpa [e] using hA.sameSamples_put k s _

theorem SlotArray.Lawful.sameSamples_destroySlot : SameSamples s (destroySlot A k s) := by
  obtain ⟨c, -, e⟩ | ⟨r, -, e⟩ := destroySlot_cases A k s
  · simp [e]
  · simpa [e] using hA.sameSamples_put k s _

theorem SlotArray.Lawful.sameSamples_updateSlot (f : α → α) : SameSamples s (updateSlot A f k s) := by
  obtain ⟨c, -, e⟩ | ⟨r, -, e⟩ := updateSlot_cases A f k s
  · simp [e]
  · simpa [e] using hA.sameSamples_put k s _

end SlotCommandsSamples

end Sys2Proof.Machine

namespace Sys2Proof.Proofs

/-- Settles O16: byte `a + j` after the write is digit `j` of the value, and the rest of the memory is untouched. -/
theorem hostWriteIsLittleEndian : Obligations.HostWriteIsLittleEndian := by
  intro s a w v rest hfits h
  refine ⟨_, step_memWrite hfits h, rfl, fun j hj => ?written, fun b hb => ?outside, ?word⟩
  case written => exact Memory.byteAt_writeLE_word _ _ _ v hj
  case outside => exact Memory.byteAt_writeLE_outside _ _ _ hb
  case word => rintro rfl; exact Memory.read32_write32 _ _ _ v

/-- Settles O17: the number read has the bytes read as its digits, and fits a word. -/
theorem hostReadReturnsTheBytes : Obligations.HostReadReturnsTheBytes := by
  intro s a w rest hfits h
  exact ⟨_, step_memRead hfits h, rfl, fun j _ => Memory.extractLsb'_readLE _ _ _ j w.bytes_le⟩

/-- Settles O27: the model's buffer list is the unit's list of the statement, and they are checked in order. -/
theorem firstBadBufferIsReported : Obligations.FirstBadBufferIsReported := by
  intro s u k n cause before after b halloc hlen hn hbufs hgood hbad
  obtain ⟨c, hcheck, hcode, hnames⟩ := checkBuffers_unitOperands hbufs hgood hbad
  rw [exec_processOf_of_badBuffer halloc hlen hn hcheck, State.refuse, Status.refused_of_namesArg hcode hnames]

/-- Settles O39: one rule per shared slot operation, applied to the array of the command's unit. -/
theorem onlyProcessChangesSampleMemory : Obligations.OnlyProcessChangesSampleMemory := by
  intro i s t h hother
  change SameSamples s t
  cases i <;> obtain rfl := Host.Outcome.next.inj h
  case nop => simp
  case createOsc => exact oscArray_lawful.sameSamples_createSlot _ _ _
  case createLfo => exact lfoArray_lawful.sameSamples_createSlot _ _ _
  case createEnv => exact envArray_lawful.sameSamples_createSlot _ _ _
  case createClk => exact clkArray_lawful.sameSamples_createSlot _ _ _
  case createSeq => exact seqArray_lawful.sameSamples_createSlot _ _ _
  case destroyOsc => exact oscArray_lawful.sameSamples_destroySlot _ _
  case destroyLfo => exact lfoArray_lawful.sameSamples_destroySlot _ _
  case destroyEnv => exact envArray_lawful.sameSamples_destroySlot _ _
  case destroyClk => exact clkArray_lawful.sameSamples_destroySlot _ _
  case destroySeq => exact seqArray_lawful.sameSamples_destroySlot _ _
  case setTypeOsc => exact oscArray_lawful.sameSamples_updateSlot _ _ _
  case setTypeLfo => exact lfoArray_lawful.sameSamples_updateSlot _ _ _
  case processOsc k => exact absurd rfl (hother .osc k)
  case processLfo k => exact absurd rfl (hother .lfo k)
  case processEnv k => exact absurd rfl (hother .env k)
  case processClk k => exact absurd rfl (hother .clk k)
  case processSeq k => exact absurd rfl (hother .seq k)

/-- Settles O18: both accesses check the end of the memory first. -/
theorem hostAccessPastTheMemoryFaults : Obligations.HostAccessPastTheMemoryFaults := by
  intro s a w v rest hpast
  refine ⟨fun h => ?read, fun h => ?write⟩
  case read => rw [step_of_host h]; exact if_pos hpast
  case write => rw [step_of_host h]; exact if_pos hpast

end Sys2Proof.Proofs

end

section
/-! The statements on command words (30_encoding.md): the decoder and the encoder, the opcode map, the refusals that a
word or a slot alone decides, and the assembler. First the laws they share, then one theorem per statement. -/

open Sys2Proof Sys2Proof.Machine Sys2Proof.Claims

namespace Sys2Proof

/-! ### The fields of a word (30_encoding.md R90) -/

theorem toNat_extract_op (w : Word) : (w.extractLsb' 0 4).toNat = opField w := by
  simp [opField]

theorem toNat_extract_unit (w : Word) : (w.extractLsb' 4 4).toNat = unitField w := by
  simp [unitField, Nat.shiftRight_eq_div_pow]

theorem toNat_extract_slot (w : Word) : (w.extractLsb' 8 8).toNat = slotField w := by
  simp [slotField, Nat.shiftRight_eq_div_pow]

theorem extract_rsv_eq_zero_iff (w : Word) : w.extractLsb' 16 16 = 0 ↔ rsvField w = 0 := by
  have := w.isLt
  rw [← BitVec.toNat_inj, BitVec.extractLsb'_toNat, Nat.shiftRight_eq_div_pow, rsvField]
  simp only [BitVec.ofNat_eq_ofNat, BitVec.toNat_ofNat]
  omega

/-- The formula of R110 on the fields of a word with RSV = 0 gives the word back. -/
theorem ofNat_fields {w : Word} (h : rsvField w = 0) :
    BitVec.ofNat 32 (slotField w * 256 + unitField w * 16 + opField w) = w := by
  apply BitVec.eq_of_toNat_eq
  simp only [rsvField, slotField, unitField, opField, BitVec.toNat_ofNat] at *
  omega

theorem opField_lt (w : Word) : opField w < 16 := Nat.mod_lt _ (by decide)

theorem unitField_lt (w : Word) : unitField w < 16 := Nat.mod_lt _ (by decide)

theorem slotField_lt (w : Word) : slotField w < 256 := Nat.mod_lt _ (by decide)

/-! ### Commands and their fields -/

theorem Instr.op_lt (i : Instr) : i.op < 16 := by cases i <;> simp [Instr.op]

theorem Instr.wellFormed_iff (i : Instr) : i.wellFormed = true ↔ i.unit < 16 ∧ i.slot < 256 := by
  cases i <;> simp [Instr.wellFormed, Instr.unit, Instr.slot]

theorem decodeUnit_eq_some {n : Nat} {u : UnitKind} (h : decodeUnit n = some u) : u.code = n := by
  simp only [decodeUnit] at h
  split at h <;> cases h <;> rfl

theorem decodeUnit_of_ge {n : Nat} (h : 5 ≤ n) : decodeUnit n = none := by
  obtain ⟨n, rfl⟩ := Nat.exists_eq_add_of_le' h
  rfl

theorem withUnit_ok {unit : Nat} {k : UnitKind → Except DecodeError Instr} {i : Instr}
    (h : withUnit unit k = .ok i) : ∃ u : UnitKind, u.code = unit ∧ k u = .ok i := by
  simp only [withUnit] at h
  split at h
  · cases h
  · next u hu => exact ⟨u, decodeUnit_eq_some hu, h⟩

/-! ### The decoder -/

/-- OP, UNIT and SLOT decode to the one command that has these fields, if there is one. -/
theorem decodeOp_eq_ok_iff {op unit slot : Nat} {i : Instr} :
    decodeOp op unit slot = .ok i ↔ i.op = op ∧ i.unit = unit ∧ i.slot = slot := by
  constructor
  · intro h
    simp only [decodeOp] at h
    split at h
    case h_1 => cases h; exact ⟨rfl, rfl, rfl⟩
    case h_6 => cases h
    all_goals
      obtain ⟨u, rfl, h⟩ := withUnit_ok h
      cases u <;> cases h <;> exact ⟨rfl, rfl, rfl⟩
  · rintro ⟨rfl, rfl, rfl⟩
    cases i <;> rfl

theorem decodeWord_of_rsv {w : Word} (h : rsvField w = 0) :
    decodeWord w = decodeOp (opField w) (unitField w) (slotField w) := if_neg (not_not.2 h)

/-- A word decodes to the command that has its fields, and only with RSV = 0. -/
theorem decodeWord_eq_ok_iff {w : Word} {i : Instr} :
    decodeWord w = .ok i ↔
      rsvField w = 0 ∧ i.op = opField w ∧ i.unit = unitField w ∧ i.slot = slotField w := by
  by_cases h : rsvField w = 0
  · rw [decodeWord_of_rsv h, decodeOp_eq_ok_iff]
    exact (and_iff_right h).symm
  · simp [decodeWord, h]

theorem decodeWord_illegalOp {w : Word} (h : rsvField w ≠ 0 ∨ 5 ≤ opField w) : decodeWord w = .error .illegalOp := by
  by_cases hrsv : rsvField w = 0
  · obtain ⟨n, hn⟩ := Nat.exists_eq_add_of_le' (h.resolve_left (not_not.2 hrsv))
    rw [decodeWord_of_rsv hrsv, hn]
    rfl
  · exact if_pos hrsv

theorem decodeWord_illegalUnit {w : Word} (hrsv : rsvField w = 0) (hlo : 1 ≤ opField w) (hhi : opField w ≤ 4)
    (hunit : 5 ≤ unitField w) : decodeWord w = .error .illegalUnit := by
  rw [decodeWord_of_rsv hrsv]
  interval_cases opField w <;> simp [decodeOp, withUnit, decodeUnit_of_ge hunit]

theorem decodeWord_unsupported {w : Word} (hrsv : rsvField w = 0) (hop : opField w = 3) (hlo : 2 ≤ unitField w)
    (hhi : unitField w ≤ 4) : decodeWord w = .error .unsupported := by
  rw [decodeWord_of_rsv hrsv, hop]
  interval_cases unitField w <;> rfl

theorem decodeWord_encode {i : Instr} (h : i.wellFormed = true) : decodeWord (encode i) = .ok i := by
  obtain ⟨hunit, hslot⟩ := i.wellFormed_iff.1 h
  obtain ⟨hrsv, hs, hu, ho⟩ := Laws.fields_of_sum hslot hunit i.op_lt
  exact decodeWord_eq_ok_iff.2 ⟨hrsv, ho.symm, hu.symm, hs.symm⟩

theorem encode_of_decodeWord {w : Word} {i : Instr} (h : decodeWord w = .ok i) :
    encode i = w ∧ i.wellFormed = true := by
  obtain ⟨hrsv, hop, hunit, hslot⟩ := decodeWord_eq_ok_iff.1 h
  refine ⟨by rw [encode, hop, hunit, hslot, ofNat_fields hrsv], i.wellFormed_iff.2 ?_⟩
  rw [hunit, hslot]
  exact ⟨unitField_lt w, slotField_lt w⟩

/-! ### The opcode map (R96) -/

/-- A mask of the bits from 16 to 31 and of the `n` lowest keeps these digits of a number. -/
theorem and_highAndLow (x : Nat) {n : Nat} (hn : n ≤ 16) :
    x &&& (2 ^ 16 * (2 ^ 16 - 1) + (2 ^ n - 1)) = 2 ^ 16 * (x / 2 ^ 16 % 2 ^ 16) + x % 2 ^ n := by
  have hpow : 2 ^ n ≤ 2 ^ 16 := Nat.pow_le_pow_right (by decide) hn
  have hpos : 0 < 2 ^ n := Nat.two_pow_pos n
  have hmod : x % 2 ^ n < 2 ^ 16 := lt_of_lt_of_le (Nat.mod_lt _ hpos) hpow
  apply Nat.eq_of_testBit_eq
  intro j
  rw [Nat.testBit_and, Nat.testBit_two_pow_mul_add _ (by omega), Nat.testBit_two_pow_mul_add _ hmod]
  split_ifs with hj
  · rw [Nat.testBit_two_pow_sub_one, Nat.testBit_mod_two_pow, Bool.and_comm]
  · rw [Nat.testBit_two_pow_sub_one, Nat.testBit_mod_two_pow, Nat.testBit_div_two_pow, Bool.and_comm,
      Nat.sub_add_cancel (by omega)]

theorem toNat_and_unitMask (w : Word) :
    (w &&& 0xFFFF00FF#32).toNat = 65536 * rsvField w + unitField w * 16 + opField w := by
  have hw := w.isLt
  have hmask : (0xFFFF00FF#32).toNat = 2 ^ 16 * (2 ^ 16 - 1) + (2 ^ 8 - 1) := rfl
  rw [BitVec.toNat_and, hmask, and_highAndLow _ (by decide), rsvField, unitField, opField]
  omega

theorem toNat_and_nopMask (w : Word) : (w &&& 0xFFFF000F#32).toNat = 65536 * rsvField w + opField w := by
  have hw := w.isLt
  have hmask : (0xFFFF000F#32).toNat = 2 ^ 16 * (2 ^ 16 - 1) + (2 ^ 4 - 1) := rfl
  rw [BitVec.toNat_and, hmask, and_highAndLow _ (by decide), rsvField, opField]
  omega

/-- The row compares RSV, UNIT and OP, and its pattern holds UNIT and OP of its command. -/
structure OpcodeRow.OfUnit (r : OpcodeRow) : Prop where
  mask : r.mask = 0xFFFF00FF#32
  pattern : ∀ u s, r.pattern.toNat = (r.instr u s).unit * 16 + (r.instr u s).op
  pattern_lt : r.pattern.toNat < 256
  slot : ∀ u s, (r.instr u s).slot = s

/-- The row of NOP, which compares RSV and OP alone (R99). -/
def nopRow : OpcodeRow := ⟨0x00000000#32, 0xFFFF000F#32, fun u s => .nop u s⟩

/-- The map is the row of NOP and one row for each command of a unit. -/
theorem mem_opcodeMap {r : OpcodeRow} (h : r ∈ opcodeMap) : r = nopRow ∨ r.OfUnit := by
  obtain rfl | h := List.mem_cons.1 h
  · exact .inl rfl
  · right
    fin_cases h <;> exact ⟨rfl, fun _ _ => rfl, by decide, fun _ _ => rfl⟩

/-- What a row says: a word matches it exactly when it decodes to the row's command. -/
def OpcodeRow.Follows (r : OpcodeRow) : Prop :=
  ∀ w : Word, r.matches w = true ↔ decodeWord w = .ok (r.instr (unitField w) (slotField w))

theorem nopRow_follows : nopRow.Follows := by
  intro w
  rw [OpcodeRow.matches, decide_eq_true_iff, decodeWord_eq_ok_iff, ← BitVec.toNat_inj, nopRow, toNat_and_nopMask,
    Instr.op, Instr.unit, Instr.slot, BitVec.toNat_ofNat]
  omega

theorem OpcodeRow.OfUnit.follows {r : OpcodeRow} (h : r.OfUnit) : r.Follows := by
  intro w
  have hpattern := h.pattern (unitField w) (slotField w)
  have hlt := h.pattern_lt
  have hop := (r.instr (unitField w) (slotField w)).op_lt
  have hopw := opField_lt w
  have hunitw := unitField_lt w
  rw [OpcodeRow.matches, decide_eq_true_iff, decodeWord_eq_ok_iff, ← BitVec.toNat_inj, h.mask, h.slot,
    toNat_and_unitMask]
  omega

theorem opcodeMap_follows {r : OpcodeRow} (h : r ∈ opcodeMap) : r.Follows := by
  obtain rfl | hr := mem_opcodeMap h
  · exact nopRow_follows
  · exact hr.follows

/-- Every command has its row. -/
theorem exists_row (i : Instr) : ∃ r ∈ opcodeMap, r.instr i.unit i.slot = i := by
  cases i <;> simp [opcodeMap, Instr.unit, Instr.slot]

/-- Two rows whose patterns differ in a bit that both compare have no word in common. -/
theorem not_matches_both {r1 r2 : OpcodeRow} (h : r1.pattern &&& r2.mask ≠ r2.pattern &&& r1.mask) (w : Word) :
    ¬(r1.matches w = true ∧ r2.matches w = true) := by
  rintro ⟨h1, h2⟩
  apply h
  rw [← of_decide_eq_true h1, ← of_decide_eq_true h2, BitVec.and_assoc, BitVec.and_assoc, BitVec.and_comm r1.mask]

/-! ### Commands by unit -/

theorem commandWord_create (u : UnitKind) (k : Nat) : commandWord 1 u k = encode (createOf u k) := by cases u <;> rfl

theorem commandWord_destroy (u : UnitKind) (k : Nat) : commandWord 2 u k = encode (destroyOf u k) := by cases u <;> rfl

theorem commandWord_setType {u : UnitKind} {k : Nat} {i : Instr} (h : setTypeOf u k = .ok i) :
    commandWord 3 u k = encode i := by
  cases u <;> cases h <;> rfl

theorem commandWord_process (u : UnitKind) (k : Nat) : commandWord 4 u k = encode (processOf u k) := by cases u <;> rfl

end Sys2Proof

namespace Sys2Proof.Machine

/-! ### Refusals that the word or the slot alone decides (60_exceptions.md R271, checks 1 to 5) -/

/-- STATUS after a refusal whose cause names no ARG register (R276). -/
theorem Status.refused_of_not_namesArg {c : Cause} (h : c.namesArg = false) (t : Status) (k : Nat) :
    t.refused c k = turnedAway c.code.toNat 0 := by
  simp [Status.refused, turnedAway, h]

theorem issueCommand_of_error {w : Word} {e : DecodeError} (h : decodeWord w = .error e) (s : State) :
    issueCommand w s = .next (s.refuse (causeOf e) 0) := by simp only [issueCommand, h]

/-- A word written to CMD that is no command changes STATUS alone. -/
theorem step_of_decodeError {s : State} {w : Word} {rest : List HostOp} {e : DecodeError}
    (h : s.host = .regWrite 0x00#8 .word w :: rest) (he : decodeWord w = .error e) :
    step s = .next { s with host := rest, status := turnedAway (causeOf e).code.toNat 0 } := by
  have hnames : (causeOf e).namesArg = false := by cases e <;> rfl
  rw [← Status.refused_of_not_namesArg hnames s.status 0, step_regWrite (by decide) h]
  exact issueCommand_of_error he _

/-- The cause CREATE is refused with, from the ALLOC bit of the slot, if the unit has it (R142, R93). -/
def createCause : Option Bool → Option Cause
  | none => some .badSlot
  | some true => some .slotBusy
  | some false => none

/-- The cause of any other command of a slot (R143, R93). -/
def slotCause : Option Bool → Option Cause
  | none => some .badSlot
  | some true => none
  | some false => some .slotFree

section SlotRefusals

variable {α : Type} (A : SlotArray α) {s : State} {k : Nat} {c : Cause}

theorem SlotArray.createRefusal_eq : A.createRefusal s k = createCause (A.allocAt s k) := by
  rw [SlotArray.createRefusal, SlotArray.allocAt]
  cases (A.get s)[k]? with
  | none => rfl
  | some sl => obtain ⟨_ | _, d⟩ := sl <;> rfl

theorem SlotArray.allocated_of_slotCause (h : slotCause (A.allocAt s k) = some c) : A.allocated s k = .error c := by
  rw [SlotArray.allocAt] at h
  rw [SlotArray.allocated]
  cases hslot : (A.get s)[k]? with
  | none => rw [hslot] at h; cases h; rfl
  | some sl => rw [hslot] at h; obtain ⟨_ | _, d⟩ := sl <;> cases h; rfl

theorem createSlot_of_createCause (init : α) (h : createCause (A.allocAt s k) = some c) :
    createSlot A init k s = s.refuse c 0 := by
  simp only [createSlot, A.createRefusal_eq, h]

theorem destroySlot_of_slotCause (h : slotCause (A.allocAt s k) = some c) : destroySlot A k s = s.refuse c 0 := by
  simp only [destroySlot, A.allocated_of_slotCause h]

theorem updateSlot_of_slotCause (f : α → α) (h : slotCause (A.allocAt s k) = some c) :
    updateSlot A f k s = s.refuse c 0 := by
  simp only [updateSlot, A.allocated_of_slotCause h]

theorem processSlot_of_slotCause (bufs : List BufferOperand) (step : UnitStep α)
    (h : slotCause (A.allocAt s k) = some c) : processSlot A bufs step k s = s.refuse c 0 := by
  simp only [processSlot, A.allocated_of_slotCause h]

end SlotRefusals

section UnitRefusals

variable {s : State} {u : UnitKind} {k : Nat} {c : Cause}

theorem exec_createOf_of_createCause (h : createCause (allocBit u s k) = some c) :
    exec (createOf u k) s = .next (s.refuse c 0) := by
  cases u
  case osc => exact congrArg _ (createSlot_of_createCause oscArray _ h)
  case lfo => exact congrArg _ (createSlot_of_createCause lfoArray _ h)
  case env => exact congrArg _ (createSlot_of_createCause envArray _ h)
  case clk => exact congrArg _ (createSlot_of_createCause clkArray _ h)
  case seq => exact congrArg _ (createSlot_of_createCause seqArray _ h)

theorem exec_destroyOf_of_slotCause (h : slotCause (allocBit u s k) = some c) :
    exec (destroyOf u k) s = .next (s.refuse c 0) := by
  cases u
  case osc => exact congrArg _ (destroySlot_of_slotCause oscArray h)
  case lfo => exact congrArg _ (destroySlot_of_slotCause lfoArray h)
  case env => exact congrArg _ (destroySlot_of_slotCause envArray h)
  case clk => exact congrArg _ (destroySlot_of_slotCause clkArray h)
  case seq => exact congrArg _ (destroySlot_of_slotCause seqArray h)

theorem exec_setTypeOf_of_slotCause {i : Instr} (hi : setTypeOf u k = .ok i) (h : slotCause (allocBit u s k) = some c) :
    exec i s = .next (s.refuse c 0) := by
  cases u <;> cases hi
  case osc => exact congrArg _ (updateSlot_of_slotCause oscArray _ h)
  case lfo => exact congrArg _ (updateSlot_of_slotCause lfoArray _ h)

theorem exec_processOf_of_slotCause (h : slotCause (allocBit u s k) = some c) :
    exec (processOf u k) s = .next (s.refuse c 0) := by
  cases u
  case osc => exact congrArg _ (processSlot_of_slotCause oscArray _ _ h)
  case lfo => exact congrArg _ (processSlot_of_slotCause lfoArray _ _ h)
  case env => exact congrArg _ (processSlot_of_slotCause envArray _ _ h)
  case clk => exact congrArg _ (processSlot_of_slotCause clkArray _ _ h)
  case seq => exact congrArg _ (processSlot_of_slotCause seqArray _ _ h)

end UnitRefusals

end Sys2Proof.Machine

namespace Sys2Proof.Proofs

/-- Settles O7: the fields of the encoded word are the command's, and the decoder finds the command by its fields. -/
theorem decodeOfEncodeIsTheCommand : Obligations.DecodeOfEncodeIsTheCommand := fun _ => decodeWord_encode

/-- Settles O8: a command decoded from a word has the word's fields, which make up the word. -/
theorem encodeOfDecodeIsTheWord : Obligations.EncodeOfDecodeIsTheWord := fun _ _ => encode_of_decodeWord

/-- Settles O5: the decoder's error on each kind of word, and the cause it is refused with. -/
theorem reservedWordsAreRefusedWithTheirCause : Obligations.ReservedWordsAreRefusedWithTheirCause := by
  intro s w rest h
  simp only [toNat_extract_op, toNat_extract_unit, ne_eq, extract_rsv_eq_zero_iff]
  refine ⟨fun hbad => ?illegalOp, fun hrsv hlo hhi hunit => ?illegalUnit, fun hrsv hop hlo hhi => ?unsupported⟩
  case illegalOp => exact step_of_decodeError h (decodeWord_illegalOp hbad)
  case illegalUnit => exact step_of_decodeError h (decodeWord_illegalUnit hrsv hlo hhi hunit)
  case unsupported => exact step_of_decodeError h (decodeWord_unsupported hrsv hop hlo hhi)

/-- Settles O6: a word matches a row exactly when it decodes to the row's command, every command has a row, and any two
rows differ in a bit that both compare. -/
theorem decoderFollowsTheOpcodeMap : Obligations.DecoderFollowsTheOpcodeMap := by
  refine ⟨fun w r hr hmatch => ?row, fun w hnone => ?noRow, ?disjoint⟩
  case row =>
    rw [toNat_extract_unit, toNat_extract_slot]
    exact (opcodeMap_follows hr w).1 hmatch
  case noRow =>
    cases hw : decodeWord w with
    | error e => exact ⟨e, rfl⟩
    | ok i =>
      obtain ⟨r, hr, hi⟩ := exists_row i
      obtain ⟨-, -, hunit, hslot⟩ := decodeWord_eq_ok_iff.1 hw
      rw [hunit, hslot] at hi
      have hmatch := (opcodeMap_follows hr w).2 (by rw [hw, hi])
      simp [hnone r hr] at hmatch
  case disjoint =>
    have hpatterns : opcodeMap.Pairwise fun r1 r2 => r1.pattern &&& r2.mask ≠ r2.pattern &&& r1.mask := by decide
    exact hpatterns.imp not_matches_both

/-- Settles O24: the ALLOC lookup alone decides the slot checks of every unit's commands. -/
theorem slotRefusalsNameTheirCause : Obligations.SlotRefusalsNameTheirCause := by
  intro s u k
  refine ⟨fun h => ?missing, fun h => ?busy, fun h => ?free⟩
  case missing =>
    have hcreate : createCause (allocBit u s k) = some .badSlot := by rw [h]; rfl
    have hslot : slotCause (allocBit u s k) = some .badSlot := by rw [h]; rfl
    exact ⟨exec_createOf_of_createCause hcreate, exec_destroyOf_of_slotCause hslot, exec_processOf_of_slotCause hslot,
      fun i hi => exec_setTypeOf_of_slotCause hi hslot⟩
  case busy => exact exec_createOf_of_createCause (c := .slotBusy) (by rw [h]; rfl)
  case free =>
    have hslot : slotCause (allocBit u s k) = some .slotFree := by rw [h]; rfl
    exact ⟨exec_destroyOf_of_slotCause hslot, exec_processOf_of_slotCause hslot,
      fun i hi => exec_setTypeOf_of_slotCause hi hslot⟩

/-- Settles O9: ten closed words. -/
theorem writtenOutWordsDecode : Obligations.WrittenOutWordsDecode := by
  unfold Obligations.WrittenOutWordsDecode
  decide

/-- Settles O60: the assembler's words are those of the encoder, and a literal is rounded once by `roundMag`. -/
theorem assemblerLinesStandForTheirWords : Obligations.AssemblerLinesStandForTheirWords := by
  refine ⟨rfl, rfl, rfl, fun _ _ => ⟨rfl, rfl, rfl⟩, fun u k t l => ?lines, fun n hn => ?unsigned,
    fun z hlo hhi => ?signed, fun negative _ places => ?literal⟩
  case lines =>
    simp only [← commandWord_create, ← commandWord_destroy, ← commandWord_process]
    refine ⟨rfl, rfl, fun i hi => ?_, rfl, rfl, rfl, ?_, fun _ => rfl⟩
    · rw [← commandWord_setType hi]; rfl
    · simp only [AsmLine.expand, ← List.flatMap_def, ← List.map_eq_flatMap]
  case unsigned => simpa [AsmValue.word] using hn
  case signed => exact BitVec.toInt_ofInt_eq_self (by decide) hlo hhi
  case literal => exact pack32_roundMag_rounds negative (by positivity)

end Sys2Proof.Proofs

end

section
/-! The statements on the leaf utilities (40_leaf_utilities.md): the formulas, Wrap, the waveform shaper and the edge
detector. First the laws they share, then one theorem per statement. -/

open Sys2Proof Sys2Proof.Machine Sys2Proof.Claims

namespace Sys2Proof.Machine

/-! ### Wrap (40_leaf_utilities.md R121, R122) -/

/-- Wrap of a finite value: the exact difference to the floor, rounded once, with 1.0 folded to +0.0. -/
theorem wrap32_finite {x : F32} (d : Nat) (h : isFinite x = true) :
    wrap32 d x =
      if ge32 (roundSum (value32 x - value32 (floor32 x)) (neg32 x && !neg32 (floor32 x))) oneF then zeroF
      else roundSum (value32 x - value32 (floor32 x)) (neg32 x && !neg32 (floor32 x)) := by
  simp only [wrap32, sub32_finite d h (isFinite_floor32 h)]

/-- A value that is no number has no fraction: it is its own floor, and the difference is a NaN. -/
theorem isNaN_wrap32 {x : F32} (d : Nat) (h : isFinite x = false) : isNaN (wrap32 d x) = true := by
  have hsub : sub32 d x x = nan32 d := by
    cases hn : isNaN x
    · have hi := isInf_of_not_isFinite h hn
      rw [sub32_inf_inf d hi hi, if_pos rfl]
    · exact sub32_nan d (.inl hn)
  simp [wrap32, floor32_of_not_isFinite h, hsub, ge32]

/-- A remainder of an encoding's units by 1.0 has no more significant bits than they have, so it is an encoding's
units too. -/
theorem exists_magUnits_mod (m : Nat) : ∃ m', magUnits m' = magUnits m % oneUnits := by
  obtain ⟨k, s, -, hs, -, hu⟩ := magUnits_form m
  rw [hu, oneUnits]
  rcases Nat.lt_or_ge k 149 with hlt | hge
  · have hmod : s * 2 ^ k % 2 ^ 149 = s % 2 ^ (149 - k) * 2 ^ k := by
      rw [← Nat.mul_mod_mul_right, ← pow_add, Nat.sub_add_cancel hlt.le]
    rw [hmod]
    exact exists_magUnits ((Nat.mod_le _ _).trans hs.le) k
  · refine ⟨0, ?_⟩
    rw [magUnits_zero, Nat.mod_eq_zero_of_dvd (dvd_mul_of_dvd_right (pow_dvd_pow 2 hge) s)]

/-- A sum that an encoding with its sign bit clear stands for exactly is not rounded. -/
theorem value32_roundSum_magUnits {m : Nat} (n : Bool) (hm : m ≤ infMag) :
    value32 (roundSum (magUnits m) n) = magUnits m := by
  have habs : (value32 (roundSum (magUnits m) n)).natAbs = magUnits m := by
    rw [value32_natAbs, mag32_roundSum, Int.natAbs_natCast, roundMag_exact_one hm]
  have hnonneg := value32_roundSum_nonneg n (Int.natCast_nonneg (magUnits m))
  omega

/-- WRAP IS EXACT (R122): for a finite value that is not below zero it is the fractional part, not rounded. -/
theorem value32_wrap32 {x : F32} (d : Nat) (h : isFinite x = true) (h0 : 0 ≤ value32 x) :
    value32 (wrap32 d x) = value32 x % oneUnits := by
  obtain ⟨m, hm⟩ := exists_magUnits_mod (mag32 x)
  have hvalue : value32 x % oneUnits = magUnits m := by
    rw [hm, ← value32_natAbs, Int.natCast_mod, Int.natAbs_of_nonneg h0]
  have hlt : magUnits m < oneUnits := hm ▸ Nat.mod_lt _ oneUnits_pos
  have hmInf : m < infMag := by
    rw [← magUnits_lt_iff]
    exact hlt.trans (by rw [oneUnits_eq, magUnits_lt_iff]; norm_num [infMag])
  have hfrac : value32 x - value32 (floor32 x) = magUnits m := by
    rw [(value32_floor32 h).2, ← hvalue, Int.emod_def, mul_comm]
  have hround := fun n => value32_roundSum_magUnits n hmInf.le
  have hfin := fun n => isFinite_roundSum n hmInf (Int.natAbs_natCast (magUnits m)).le
  rw [wrap32_finite d h, hfrac, if_neg, hround, hvalue]
  rw [ge32, le32_iff_value isFinite_oneF (hfin _), value32_oneF, hround]
  exact not_le.2 (by exact_mod_cast hlt)

/-! ### The waveform a type code selects (R130) -/

section WaveFormulas

variable (d : Nat) {t : Word} (p pwm : F32)

theorem wave_saw (h : t.toInt = 0) : wave d t p pwm = mul32 (d + 1) twoF (sub32 d p halfF) := by
  obtain rfl : t = 0#32 := BitVec.eq_of_toInt_eq h
  rfl

theorem wave_square (h : t.toInt = 1) : wave d t p pwm = if lt32 p pwm then oneF else minusOneF := by
  obtain rfl : t = 1#32 := BitVec.eq_of_toInt_eq h
  rfl

theorem wave_sine (h : t.toInt = 2) : wave d t p pwm = sinF32 (mul32 d twoPiF p) := by
  obtain rfl : t = 2#32 := BitVec.eq_of_toInt_eq h
  rfl

theorem wave_triangle (h : t.toInt = 3) :
    wave d t p pwm = sub32 (d + 2) (mul32 (d + 1) fourF (abs32 (sub32 d p halfF))) oneF := by
  obtain rfl : t = 3#32 := BitVec.eq_of_toInt_eq h
  rfl

theorem wave_of_silent (h : t.toInt < 0 ∨ 4 ≤ t.toInt) : wave d t p pwm = zeroF := by
  have h0 : t ≠ 0#32 := by rintro rfl; revert h; decide
  have h1 : t ≠ 1#32 := by rintro rfl; revert h; decide
  have h2 : t ≠ 2#32 := by rintro rfl; revert h; decide
  have h3 : t ≠ 3#32 := by rintro rfl; revert h; decide
  simp [wave, waveformOf, h0, h1, h2, h3]

end WaveFormulas

/-! ### Bounds on the shaper's operations (R136) -/

@[simp] theorem mag32_abs32 (x : F32) : mag32 (abs32 x) = mag32 x := mag32_pack32 _ (mag32_lt x)

@[simp] theorem neg32_abs32 (x : F32) : neg32 (abs32 x) = false := neg32_pack32 _ (mag32_lt x)

@[simp] theorem isNaN_abs32 (x : F32) : isNaN (abs32 x) = isNaN x := by simp [isNaN]

theorem isFinite_of_mag32_le {x y : F32} (hy : isFinite y = true) (h : mag32 x ≤ mag32 y) : isFinite x = true := by
  simp only [isFinite, decide_eq_true_eq] at *
  omega

theorem units32_le_of_mag32_le {x y : F32} (h : mag32 x ≤ mag32 y) : units32 x ≤ units32 y := magUnits_le_iff.2 h

/-- A value whose encoding without its sign is at most that of 1.0 lies within [-1, 1]. -/
theorem withinOne_of_mag32_le {x : F32} (h : mag32 x ≤ mag32 oneF) : withinOne x := by
  have hx := isNaN_eq_false_of_isFinite (isFinite_of_mag32_le isFinite_oneF h)
  have hone : order32 oneF = mag32 oneF := by decide
  have hminus : order32 minusOneF = -(mag32 oneF : Int) := by decide
  rw [withinOne, le32_iff, le32_iff, hone, hminus, order32]
  refine ⟨⟨by decide, hx, ?_⟩, hx, by decide, ?_⟩ <;> split_ifs <;> omega

/-- A difference whose exact value is no larger than a finite bound does not exceed it when rounded. -/
theorem mag32_sub32_le {a b c : F32} (d : Nat) (ha : isFinite a = true) (hb : isFinite b = true)
    (hc : isFinite c = true) (h : (value32 a - value32 b).natAbs ≤ units32 c) : mag32 (sub32 d a b) ≤ mag32 c := by
  rw [sub32_finite d ha hb]
  exact mag32_roundSum_le _ (mag32_le_infMag (isNaN_eq_false_of_isFinite hc)) h

/-- A product whose exact value is no larger than a finite bound does not exceed it when rounded. -/
theorem mag32_mul32_le {a b c : F32} (d : Nat) (ha : isFinite a = true) (hb : isFinite b = true)
    (hc : isFinite c = true) (h : units32 a * units32 b ≤ units32 c * 2 ^ 149) : mag32 (mul32 d a b) ≤ mag32 c := by
  rw [mul32_finite d ha hb, mag32_pack32 _ (roundMag_lt _ _)]
  exact roundMag_le_of_le (by norm_num) (mag32_le_infMag (isNaN_eq_false_of_isFinite hc)) h

/-- A product of values with the sign bit clear is not below zero. -/
theorem value32_mul32_nonneg {a b : F32} (d : Nat) (ha : isFinite a = true) (hb : isFinite b = true)
    (hna : neg32 a = false) (hnb : neg32 b = false) : 0 ≤ value32 (mul32 d a b) := by
  rw [mul32_finite d ha hb, hna, hnb, value32_pack32 _ (roundMag_lt _ _)]
  exact Int.natCast_nonneg _

/-- A multiple of a value at most 0.5 in size does not exceed a bound `c` that `a * 0.5` does not exceed. -/
theorem mag32_mul32_le_of_le_half {a c x : F32} (d : Nat) (ha : isFinite a = true) (hc : isFinite c = true)
    (hac : units32 a * units32 halfF ≤ units32 c * 2 ^ 149) (hx : mag32 x ≤ mag32 halfF) :
    mag32 (mul32 d a x) ≤ mag32 c :=
  mag32_mul32_le d ha (isFinite_of_mag32_le (by decide) hx) hc
    ((Nat.mul_le_mul_left _ (units32_le_of_mag32_le hx)).trans hac)

theorem two_mul_value32_halfF : 2 * value32 halfF = oneUnits := by decide +kernel

section WaveBounds

variable {p : F32} (hp : inUnitInterval p)
include hp

/-- A phase in [0, 1) less 0.5 lies in [-0.5, 0.5]. -/
theorem mag32_sub32_halfF_le (d : Nat) : mag32 (sub32 d p halfF) ≤ mag32 halfF := by
  have hfp := isFinite_of_inUnitInterval hp
  obtain ⟨h0, h1⟩ := (inUnitInterval_iff_value hfp).1 hp
  have hhalf := two_mul_value32_halfF
  have hunits : value32 halfF = units32 halfF := value32_of_neg32_eq_false (by decide)
  exact mag32_sub32_le d hfp (by decide) (by decide) (by omega)

/-- Saw: twice a value in [-0.5, 0.5] (R131). -/
theorem withinOne_saw (d : Nat) : withinOne (mul32 (d + 1) twoF (sub32 d p halfF)) :=
  withinOne_of_mag32_le <| mag32_mul32_le_of_le_half _ (by decide) isFinite_oneF (by decide +kernel)
    (mag32_sub32_halfF_le hp d)

/-- Sine: the angle is at most 2π, so finite, and SIN_F32 is in [-1, 1] there (R133). -/
theorem withinOne_sine (d : Nat) : withinOne (sinF32 (mul32 d twoPiF p)) := by
  have hfp := isFinite_of_inUnitInterval hp
  have hp1 := ((inUnitInterval_iff_value hfp).1 hp).2
  have hu : units32 p ≤ 2 ^ 149 := by
    have habs : (value32 p).natAbs = units32 p := value32_natAbs p
    have h0 := ((inUnitInterval_iff_value hfp).1 hp).1
    simp only [oneUnits] at hp1
    omega
  have hmag := mag32_mul32_le (c := twoPiF) d (by decide) hfp (by decide) (Nat.mul_le_mul_left _ hu)
  exact withinOne_sinF32 (isFinite_of_mag32_le (by decide) hmag)

/-- Triangle: four times a value in [0, 0.5] lies in [0, 2], and less 1.0 in [-1, 1] (R134). -/
theorem withinOne_triangle (d : Nat) :
    withinOne (sub32 (d + 2) (mul32 (d + 1) fourF (abs32 (sub32 d p halfF))) oneF) := by
  have hcentered : mag32 (abs32 (sub32 d p halfF)) ≤ mag32 halfF := by
    rw [mag32_abs32]; exact mag32_sub32_halfF_le hp d
  have hmag := mag32_mul32_le_of_le_half (a := fourF) (c := twoF) (d + 1) (by decide) (by decide) (by decide +kernel)
    hcentered
  have hnonneg := value32_mul32_nonneg (a := fourF) (d + 1) (by decide)
    (isFinite_of_mag32_le (by decide) hcentered) (by decide) (neg32_abs32 _)
  generalize mul32 (d + 1) fourF (abs32 (sub32 d p halfF)) = y at *
  have htwo : value32 y ≤ 2 * oneUnits := by
    have hle := units32_le_of_mag32_le hmag
    have hunits : units32 twoF = 2 * oneUnits := by decide +kernel
    have habs : (value32 y).natAbs = units32 y := value32_natAbs y
    omega
  have hone : units32 oneF = oneUnits := by decide +kernel
  have hvalue := value32_oneF
  exact withinOne_of_mag32_le <| mag32_sub32_le _ (isFinite_of_mag32_le (by decide) hmag) isFinite_oneF isFinite_oneF
    (by omega)

/-- R136, first part: the shaper stays within [-1, 1]. -/
theorem withinOne_wave (d : Nat) (t : Word) (pwm : F32) : withinOne (wave d t p pwm) := by
  cases hw : waveformOf t <;> simp only [wave, hw]
  case saw => exact withinOne_saw hp d
  case square =>
    split_ifs
    · exact withinOne_of_mag32_le le_rfl
    · exact withinOne_of_mag32_le (by decide)
  case sine => exact withinOne_sine hp d
  case triangle => exact withinOne_triangle hp d
  case silence => exact withinOne_of_mag32_le (by decide)

end WaveBounds

/-- R136, second part: a NaN phase goes through the three waveforms that compute with it. -/
theorem isNaN_wave {t : Word} {p : F32} (d : Nat) (pwm : F32) (hp : isNaN p = true)
    (ht : t.toInt = 0 ∨ t.toInt = 2 ∨ t.toInt = 3) : isNaN (wave d t p pwm) = true := by
  have hsub : isNaN (sub32 d p halfF) = true := by rw [sub32_nan d (.inl hp)]; exact isNaN_nan32 d
  rcases ht with h | h | h
  · rw [wave_saw d p pwm h, mul32_nan _ (.inr hsub)]
    exact isNaN_nan32 _
  · rw [wave_sine d p pwm h, mul32_nan _ (.inr hp)]
    exact isNaN_sinF32 (isNaN_nan32 _)
  · rw [wave_triangle d p pwm h, mul32_nan _ (.inr (by rwa [isNaN_abs32])), sub32_nan _ (.inl (isNaN_nan32 _))]
    exact isNaN_nan32 _

/-! ### Samples without an edge (R126, R128) -/

/-- A control input gives no edge when it is held high, or is low, a NaN or absent. -/
theorem risingEdge_of_held {m : Bool} {x : F32} (h : m = true ∨ level x = false) : risingEdge m x = false := by
  rcases h with rfl | h
  · rfl
  · exact risingEdge_of_low m h

theorem envTrigger_of_no_edge {r : EnvState} {x : F32} (h : risingEdge r.lastTrig x = false) :
    envTrigger r x = { r with lastTrig := level x } := by
  simp [envTrigger, h]

theorem envAttack_stage (d : Nat) (p : EnvParams) (dt : F32) (r : EnvState) :
    (envAttack d p dt r).1.stage = if ge32 (add32 d r.elapsed dt) p.attack then .decay else r.stage := by
  simp only [envAttack]; split_ifs <;> rfl

theorem envAttack_elapsed (d : Nat) (p : EnvParams) (dt : F32) (r : EnvState) :
    (envAttack d p dt r).1.elapsed =
      if ge32 (add32 d r.elapsed dt) p.attack then zeroF else add32 d r.elapsed dt := by
  simp only [envAttack]; split_ifs <;> rfl

theorem envDecay_stage (d : Nat) (p : EnvParams) (dt : F32) (r : EnvState) :
    (envDecay d p dt r).1.stage = if ge32 (add32 d r.elapsed dt) p.decay then .idle else r.stage := by
  simp only [envDecay]; split_ifs <;> rfl

theorem envDecay_elapsed (d : Nat) (p : EnvParams) (dt : F32) (r : EnvState) :
    (envDecay d p dt r).1.elapsed = add32 d r.elapsed dt := by
  simp only [envDecay]; split_ifs <;> rfl

/-- clamp01 leaves a value in [0, 1] as it is (R124). -/
theorem clamp01_of_clamped {x : F32} (h : clampedToOne x) : clamp01 x = x := by
  obtain ⟨h0, h1⟩ := h
  simp [clamp01, gt32, ge32, lt32_eq_false_of_le32 h1, h0]

/-- The stage and the elapsed time after a sample are those of its dispatch; only the value is clamped (R212, R216). -/
theorem envStep_data (p : EnvParams) (d : Nat) (r : EnvState) (x y : F32) :
    (envStep p d r x y).data =
      { (envStage (d + 1) p (div32 d oneF p.sampleRate) (envTrigger r x)).1 with
        currentValue := clamp01 (envStage (d + 1) p (div32 d oneF p.sampleRate) (envTrigger r x)).2 } := rfl

section EnvWithoutEdge

variable (p : EnvParams) (d : Nat) {r : EnvState} {x : F32} (y : F32) (hedge : risingEdge r.lastTrig x = false)
include hedge

/-- R215: an idle envelope writes its edge memory and nothing else. -/
theorem envStep_idle (hs : r.stage = .idle) (hv : clampedToOne r.currentValue) :
    (envStep p d r x y).data = { r with lastTrig := level x } := by
  rw [envStep_data, envTrigger_of_no_edge hedge]
  simp only [envStage, hs, clamp01_of_clamped hv]

/-- R213: Attack goes on from its elapsed time, and flips to Decay when its duration is reached. -/
theorem envStep_attack (hs : r.stage = .attack) :
    (envStep p d r x y).data.stage =
        (if ge32 (add32 (d + 1) r.elapsed (div32 d oneF p.sampleRate)) p.attack then .decay else .attack) ∧
      (envStep p d r x y).data.elapsed =
        if ge32 (add32 (d + 1) r.elapsed (div32 d oneF p.sampleRate)) p.attack then zeroF
        else add32 (d + 1) r.elapsed (div32 d oneF p.sampleRate) := by
  rw [envStep_data, envTrigger_of_no_edge hedge]
  simp only [envStage, hs, envAttack_stage, envAttack_elapsed, and_self]

/-- R214: Decay goes on from its elapsed time, and returns to Idle when its duration is reached. -/
theorem envStep_decay (hs : r.stage = .decay) :
    (envStep p d r x y).data.stage =
        (if ge32 (add32 (d + 1) r.elapsed (div32 d oneF p.sampleRate)) p.decay then .idle else .decay) ∧
      (envStep p d r x y).data.elapsed = add32 (d + 1) r.elapsed (div32 d oneF p.sampleRate) := by
  rw [envStep_data, envTrigger_of_no_edge hedge]
  simp only [envStage, hs, envDecay_stage, envDecay_elapsed, and_self]

end EnvWithoutEdge

theorem seqStep_index (table : StepTable) (d : Nat) (r : SeqState) (x y : F32) :
    (seqStep table d r x y).data.index =
      if risingEdge r.lastTrig x then (if risingEdge r.lastReset y then 0 else r.index) + 1
      else if risingEdge r.lastReset y then 0 else r.index := rfl

end Sys2Proof.Machine

namespace Sys2Proof.Proofs

/-- Settles O47: the difference to the floor is a fraction below 1.0, and exact for every value that is not below
zero. -/
theorem wrapPropertiesHold : Obligations.WrapPropertiesHold := by
  intro d x
  refine ⟨inUnitInterval_wrap32 d, fun hx hge => ?fraction, fun hx => ?same, ?minusQuarter, ?three, isNaN_wrap32 d⟩
  case fraction =>
    have hge1 := (le32_iff_value isFinite_oneF hx).1 hge
    rw [value32_oneF] at hge1
    simpa [oneUnits] using value32_wrap32 d hx (by omega)
  case same =>
    have hfx := isFinite_of_inUnitInterval hx
    obtain ⟨h0, h1⟩ := (inUnitInterval_iff_value hfx).1 hx
    rw [value32_wrap32 d hfx h0, Int.emod_eq_of_lt h0 h1]
  case minusQuarter =>
    rw [wrap32_finite d (by decide)]
    decide +kernel
  case three =>
    rw [wrap32_finite d (by decide)]
    decide +kernel

/-- Settles O49: each waveform is bounded by the bound of its operand, and a NaN goes through each operation. -/
theorem waveStaysWithinOne : Obligations.WaveStaysWithinOne :=
  fun d t _ pwm => ⟨fun hp _ => withinOne_wave hp d t pwm, isNaN_wave d pwm⟩

/-- Settles O50: without an edge the reset and the trigger of each unit's sample drop out. -/
theorem heldInputsGiveNoSecondEdge : Obligations.HeldInputsGiveNoSecondEdge := by
  refine ⟨fun p d r q x h => ?lfo, fun p d r x y h => ?env, fun table d r x y ht hr => ?seq⟩
  case lfo => simp [lfoStep_phase, risingEdge_of_held h]
  case env =>
    have hedge := risingEdge_of_held h
    exact ⟨envStep_idle p d y hedge, envStep_attack p d y hedge, envStep_decay p d y hedge⟩
  case seq => simp [seqStep_index, risingEdge_of_held ht, risingEdge_of_held hr]

/-- Settles O46: Wrap, the clamps and Level are written as their formulas, and the type code selects that of Wave. -/
theorem leafFunctionsFollowTheirFormulas : Obligations.LeafFunctionsFollowTheirFormulas :=
  fun d _ p pwm _ => ⟨rfl, rfl, rfl, rfl, wave_saw d p pwm, wave_square d p pwm, wave_sine d p pwm,
    wave_triangle d p pwm, wave_of_silent d p pwm⟩

end Sys2Proof.Proofs

end

section
/-! The statements on the lifecycle commands (41_lifecycle_commands.md): NOP, CREATE, DESTROY, SET_TYPE, what PROCESS of
every unit has in common, and that no command ends a run. First the laws they share, then one theorem per statement. -/

open Sys2Proof Sys2Proof.Machine Sys2Proof.Claims

namespace Sys2Proof.Machine

/-! ### The slot commands on a slot that passes its checks (41_lifecycle_commands.md R142, R146, R149) -/

section SlotCommandsPass

variable {α : Type} {A : SlotArray α} {k : Nat} {s : State}

theorem createSlot_of_free (init : α) (h : A.allocAt s k = some false) :
    createSlot A init k s = (A.put s k { alloc := true, data := init }).complete := by
  simp only [createSlot, A.createRefusal_eq, h, createCause]

theorem destroySlot_of_allocated {r : α} (h : (A.get s)[k]? = some { alloc := true, data := r }) :
    destroySlot A k s = (A.put s k { alloc := false, data := r }).complete := by
  simp only [destroySlot, SlotArray.allocated_ok.2 h]

theorem updateSlot_of_allocated (f : α → α) {r : α} (h : (A.get s)[k]? = some { alloc := true, data := r }) :
    updateSlot A f k s = (A.put s k { alloc := true, data := f r }).complete := by
  simp only [updateSlot, SlotArray.allocated_ok.2 h]

theorem SlotArray.exists_of_allocAt {b : Bool} (h : A.allocAt s k = some b) :
    ∃ r, (A.get s)[k]? = some { alloc := b, data := r } := by
  obtain ⟨⟨_, r⟩, hslot, rfl⟩ := Option.map_eq_some_iff.1 h
  exact ⟨r, hslot⟩

end SlotCommandsPass

/-! ### DESTROY and then CREATE (R142, 70_reset_and_hazards.md R302) -/

/-- A write of the array leaves nothing of the write before it, and STATUS and the array are written apart. -/
structure SlotArray.Overwrites {α : Type} (A : SlotArray α) : Prop where
  set_set : ∀ s l l', A.set (A.set s l) l' = A.set s l'
  set_complete : ∀ (s : State) l, A.set s.complete l = (A.set s l).complete

theorem oscArray_overwrites : oscArray.Overwrites := ⟨fun _ _ _ => rfl, fun _ _ => rfl⟩

theorem lfoArray_overwrites : lfoArray.Overwrites := ⟨fun _ _ _ => rfl, fun _ _ => rfl⟩

theorem envArray_overwrites : envArray.Overwrites := ⟨fun _ _ _ => rfl, fun _ _ => rfl⟩

theorem clkArray_overwrites : clkArray.Overwrites := ⟨fun _ _ _ => rfl, fun _ _ => rfl⟩

theorem seqArray_overwrites : seqArray.Overwrites := ⟨fun _ _ _ => rfl, fun _ _ => rfl⟩

@[simp] theorem State.complete_complete (s : State) : s.complete.complete = s.complete := rfl

section Recreate

variable {α : Type} {A : SlotArray α} (hA : A.Lawful) (hO : A.Overwrites) {k : Nat} {s : State}

include hA in
theorem SlotArray.Lawful.get_complete (s : State) : A.get s.complete = A.get s := hA.get_status s _

include hA in
/-- A slot put where the array has one is the slot there. -/
theorem SlotArray.Lawful.getElem?_put (h : k < (A.get s).length) (sl : Slot α) :
    (A.get (A.put s k sl))[k]? = some sl := by
  rw [SlotArray.put, hA.get_set, List.getElem?_set_self h]

include hA hO in
/-- Of two slots put at the same place the second stays. -/
theorem SlotArray.Overwrites.put_put (sl sl' : Slot α) : A.put (A.put s k sl) k sl' = A.put s k sl' := by
  rw [SlotArray.put, SlotArray.put, SlotArray.put, hO.set_set, hA.get_set, List.set_set]

include hA hO in
theorem SlotArray.Overwrites.put_complete (sl : Slot α) : A.put s.complete k sl = (A.put s k sl).complete := by
  rw [SlotArray.put, SlotArray.put, hO.set_complete, hA.get_complete]

include hA hO in
/-- DESTROY and then CREATE of an allocated slot: the outcome does not name the record `r` the slot had. -/
theorem createSlot_destroySlot (h : k < (A.get s).length) (init r : α) :
    createSlot A init k (destroySlot A k (A.put s k { alloc := true, data := r })) =
      (A.put s k { alloc := true, data := init }).complete := by
  have hdestroyed : destroySlot A k (A.put s k { alloc := true, data := r }) =
      (A.put s k { alloc := false, data := r }).complete := by
    rw [destroySlot_of_allocated (hA.getElem?_put h _), hO.put_put hA]
  have hfree : A.allocAt (A.put s k { alloc := false, data := r }).complete k = some false :=
    hA.allocAt_put (List.getElem?_eq_getElem h) _
  rw [hdestroyed, createSlot_of_free init hfree, hO.put_complete hA, hO.put_put hA, State.complete_complete]

include hA hO in
/-- From two states that differ only in the record of an allocated slot, DESTROY and then CREATE end in one state. -/
theorem recreate_forgets (h : k < (A.get s).length) (init r r' : α) : ∃ t t' u : State,
    (.next (destroySlot A k (A.put s k { alloc := true, data := r })) : CommandOutcome) = .next t ∧
    (.next (destroySlot A k (A.put s k { alloc := true, data := r' })) : CommandOutcome) = .next t' ∧
    (.next (createSlot A init k t) : CommandOutcome) = .next u ∧
    (.next (createSlot A init k t') : CommandOutcome) = .next u ∧
    (A.get u)[k]? = some { alloc := true, data := init } := by
  have hforgets := createSlot_destroySlot hA hO h init
  refine ⟨_, _, _, rfl, rfl, congrArg _ (hforgets r), congrArg _ (hforgets r'), ?_⟩
  rw [hA.get_complete, hA.getElem?_put h]

end Recreate

/-! ### PROCESS with no samples (R156) -/

theorem processSlot_of_empty {α : Type} {A : SlotArray α} {k : Nat} {s : State} (bufs : List BufferOperand)
    (step : UnitStep α) (halloc : A.allocAt s k = some true) (hlen : s.length ≤ 0) :
    processSlot A bufs step k s = s.complete := by
  obtain ⟨r, hslot⟩ := SlotArray.exists_of_allocAt halloc
  simp only [processSlot, SlotArray.allocated_ok.2 hslot, if_pos hlen]

theorem exec_processOf_of_empty {u : UnitKind} {k : Nat} {s : State} (halloc : allocBit u s k = some true)
    (hlen : s.length ≤ 0) : exec (processOf u k) s = .next s.complete := by
  cases u
  case osc => exact congrArg _ (processSlot_of_empty (A := oscArray) _ _ halloc hlen)
  case lfo => exact congrArg _ (processSlot_of_empty (A := lfoArray) _ _ halloc hlen)
  case env => exact congrArg _ (processSlot_of_empty (A := envArray) _ _ halloc hlen)
  case clk => exact congrArg _ (processSlot_of_empty (A := clkArray) _ _ halloc hlen)
  case seq => exact congrArg _ (processSlot_of_empty (A := seqArray) _ _ halloc hlen)

/-! ### PROCESS whose checks pass (R154, R159) -/

@[simp] theorem namedSlot_processOf (u : UnitKind) (k : Nat) : namedSlot (processOf u k) = some (u, k) := by
  cases u <;> rfl

theorem processOf_ne_createOf (u : UnitKind) (k : Nat) : processOf u k ≠ createOf u k := by cases u <;> nofun

theorem processOf_ne_destroyOf (u : UnitKind) (k : Nat) : processOf u k ≠ destroyOf u k := by cases u <;> nofun

theorem checkBuffers_of_buffersGood {u : UnitKind} {s : State} {n : Nat} (h : BuffersGood u s n) :
    checkBuffers s n (unitOperands u) = none := by
  rw [BuffersGood, ← map_described_unitOperands, List.forall_mem_map] at h
  exact checkBuffers_none.2 fun b hb => (b.good_iff s n).1 (h b hb)

theorem map_arg_unitOperands (u : UnitKind) :
    (unitOperands u).map BufferOperand.arg = (unitBuffers u).map Buffer.arg := by
  rw [← map_described_unitOperands, List.map_map]
  rfl

/-- A port that is not absent is the address of a present operand of the command. -/
theorem portOf_present {s : State} {bufs : List BufferOperand} {k : Fin 16} (h : portOf s bufs k ≠ 0) :
    portOf s bufs k = s.argAddr k ∧ k ∈ bufs.map BufferOperand.arg ∧ s.arg k ≠ 0 := by
  simp only [portOf] at h ⊢
  split_ifs at h ⊢ with hany
  · refine ⟨rfl, by simpa using hany, fun h0 => h ?_⟩
    rw [State.argAddr, h0]
    rfl
  · exact absurd rfl h

/-- The byte at `a` is none of the `n` words of the buffer at `base`, if the buffer is present. -/
def OutsideBuffer (base n a : Nat) : Prop := base ≠ 0 → a < base ∨ base + 4 * n ≤ a

section ProcessPass

variable {α : Type} {A : SlotArray α} {bufs : List BufferOperand} {step : UnitStep α} {k n : Nat} {s : State}

theorem processSlot_of_checked {r : α} (hslot : (A.get s)[k]? = some { alloc := true, data := r })
    (hlen : s.length = n) (hn : 0 < n) (hok : checkBuffers s n bufs = none) :
    processSlot A bufs step k s = processEffect A bufs step k n r s := by
  have hpos : ¬ s.length ≤ 0 := by omega
  have hcount : s.length.toNat = n := by omega
  simp only [processSlot, SlotArray.allocated_ok.2 hslot, if_neg hpos, hcount, hok]

theorem SlotArray.Lawful.processEffect_status (hA : A.Lawful) (r : α) :
    (processEffect A bufs step k n r s).status = s.status.completed := by
  rw [processEffect, State.complete_status, SlotArray.put, hA.set_status]

/-- The samples leave every byte outside the unit's two output buffers as it was. -/
theorem SlotArray.Lawful.processEffect_readByte (hA : A.Lawful) (r : α) {a : Nat}
    (h8 : OutsideBuffer (portOf s bufs 8) n a) (h9 : OutsideBuffer (portOf s bufs 9) n a) :
    (processEffect A bufs step k n r s).readByte a = s.readByte a := by
  rw [processEffect, State.complete_readByte, State.readByte, SlotArray.put, hA.set_powerOns, hA.set_mem]
  exact byteAt_runBlock_outside _ _ (portsOf s bufs) step n _ h8 h9

theorem SlotArray.Lawful.processSlot_frame (hA : A.Lawful) (halloc : A.allocAt s k = some true)
    (hlen : s.length = n) (hn : 0 < n) (hok : checkBuffers s n bufs = none) :
    (processSlot A bufs step k s).status = s.status.completed ∧
      ∀ a, OutsideBuffer (portOf s bufs 8) n a → OutsideBuffer (portOf s bufs 9) n a →
        (processSlot A bufs step k s).readByte a = s.readByte a := by
  obtain ⟨r, hslot⟩ := SlotArray.exists_of_allocAt halloc
  rw [processSlot_of_checked hslot hlen hn hok]
  exact ⟨hA.processEffect_status r, fun a => hA.processEffect_readByte r⟩

end ProcessPass

theorem exec_processOf_frame {u : UnitKind} {k n : Nat} {s : State} (halloc : allocBit u s k = some true)
    (hlen : s.length = n) (hn : 0 < n) (hok : checkBuffers s n (unitOperands u) = none) :
    ∃ t, exec (processOf u k) s = .next t ∧ t.status = s.status.completed ∧
      ∀ a, OutsideBuffer (portOf s (unitOperands u) 8) n a → OutsideBuffer (portOf s (unitOperands u) 9) n a →
        t.readByte a = s.readByte a := by
  cases u
  case osc => exact ⟨_, rfl, oscArray_lawful.processSlot_frame halloc hlen hn hok⟩
  case lfo => exact ⟨_, rfl, lfoArray_lawful.processSlot_frame halloc hlen hn hok⟩
  case env => exact ⟨_, rfl, envArray_lawful.processSlot_frame halloc hlen hn hok⟩
  case clk => exact ⟨_, rfl, clkArray_lawful.processSlot_frame halloc hlen hn hok⟩
  case seq => exact ⟨_, rfl, seqArray_lawful.processSlot_frame halloc hlen hn hok⟩

/-! ### How a command ends (R141, 60_exceptions.md R276) -/

/-- The command completed, or it was refused with a cause from 4 to 9 and changed STATUS alone. -/
def CompletedOrRefused (s t : State) : Prop :=
  t.status = done s.status ∨
    ∃ cause k, 4 ≤ cause ∧ cause ≤ 9 ∧ (cause < 7 → k = 0) ∧ t = { s with status := turnedAway cause k }

/-- The causes the slot and the buffer checks give have codes from 4 on (60_exceptions.md R270). -/
theorem completedOrRefused_refuse (s : State) {c : Cause} (k : Nat) (h : 4 ≤ c.code.toNat) :
    CompletedOrRefused s (s.refuse c k) := by
  cases hnames : c.namesArg with
  | false =>
    refine .inr ⟨c.code.toNat, 0, h, c.code_le, fun _ => rfl, ?_⟩
    rw [State.refuse, Status.refused_of_not_namesArg hnames]
  | true =>
    have h7 := c.namesArg_iff.1 hnames
    refine .inr ⟨c.code.toNat, k, h, c.code_le, fun hlt => by omega, ?_⟩
    rw [State.refuse, Status.refused_of_namesArg (cause := c.code.toNat) (by simp) hnames]

section SlotCommandsEnd

variable {α : Type} {A : SlotArray α} (hA : A.Lawful) (k : Nat) (s : State)

theorem completedOrRefused_of_allocated {c : Cause} (h : A.allocated s k = .error c) :
    CompletedOrRefused s (s.refuse c 0) := by
  obtain rfl | rfl := SlotArray.allocated_error h <;> exact completedOrRefused_refuse s 0 (by decide)

include hA

theorem SlotArray.Lawful.completedOrRefused_put (sl : Slot α) : CompletedOrRefused s (A.put s k sl).complete :=
  .inl (congrArg Status.completed (hA.set_status _ _))

theorem SlotArray.Lawful.completedOrRefused_createSlot (init : α) : CompletedOrRefused s (createSlot A init k s) := by
  obtain ⟨c, hc, e⟩ | ⟨d, -, e⟩ := createSlot_cases A init k s <;> rw [e]
  · obtain rfl | rfl := SlotArray.createRefusal_some hc <;> exact completedOrRefused_refuse s 0 (by decide)
  · exact hA.completedOrRefused_put k s _

theorem SlotArray.Lawful.completedOrRefused_destroySlot : CompletedOrRefused s (destroySlot A k s) := by
  obtain ⟨c, hc, e⟩ | ⟨r, -, e⟩ := destroySlot_cases A k s <;> rw [e]
  · exact completedOrRefused_of_allocated k s hc
  · exact hA.completedOrRefused_put k s _

theorem SlotArray.Lawful.completedOrRefused_updateSlot (f : α → α) : CompletedOrRefused s (updateSlot A f k s) := by
  obtain ⟨c, hc, e⟩ | ⟨r, -, e⟩ := updateSlot_cases A f k s <;> rw [e]
  · exact completedOrRefused_of_allocated k s hc
  · exact hA.completedOrRefused_put k s _

theorem SlotArray.Lawful.completedOrRefused_processSlot (bufs : List BufferOperand) (step : UnitStep α) :
    CompletedOrRefused s (processSlot A bufs step k s) := by
  obtain ⟨c, hc, e⟩ | ⟨r, -, -, e⟩ | ⟨c, a, -, hc, e⟩ | ⟨r, -, -, -, e⟩ :=
    processSlot_cases A bufs step k s <;> rw [e]
  · exact completedOrRefused_of_allocated k s hc
  · exact .inl rfl
  · obtain ⟨-, rfl | rfl | rfl⟩ := checkBuffers_some hc <;> exact completedOrRefused_refuse s a (by decide)
  · exact .inl (hA.processEffect_status r)

end SlotCommandsEnd

/-- One rule per shared slot operation, applied to the array of the command's unit. -/
theorem exec_completedOrRefused (i : Instr) (s : State) : ∃ t, exec i s = .next t ∧ CompletedOrRefused s t := by
  cases i <;> refine ⟨_, rfl, ?_⟩
  case nop => exact .inl rfl
  case createOsc => exact oscArray_lawful.completedOrRefused_createSlot _ _ _
  case createLfo => exact lfoArray_lawful.completedOrRefused_createSlot _ _ _
  case createEnv => exact envArray_lawful.completedOrRefused_createSlot _ _ _
  case createClk => exact clkArray_lawful.completedOrRefused_createSlot _ _ _
  case createSeq => exact seqArray_lawful.completedOrRefused_createSlot _ _ _
  case destroyOsc => exact oscArray_lawful.completedOrRefused_destroySlot _ _
  case destroyLfo => exact lfoArray_lawful.completedOrRefused_destroySlot _ _
  case destroyEnv => exact envArray_lawful.completedOrRefused_destroySlot _ _
  case destroyClk => exact clkArray_lawful.completedOrRefused_destroySlot _ _
  case destroySeq => exact seqArray_lawful.completedOrRefused_destroySlot _ _
  case setTypeOsc => exact oscArray_lawful.completedOrRefused_updateSlot _ _ _
  case setTypeLfo => exact lfoArray_lawful.completedOrRefused_updateSlot _ _ _
  case processOsc => exact oscArray_lawful.completedOrRefused_processSlot _ _ _ _
  case processLfo => exact lfoArray_lawful.completedOrRefused_processSlot _ _ _ _
  case processEnv => exact envArray_lawful.completedOrRefused_processSlot _ _ _ _
  case processClk => exact clkArray_lawful.completedOrRefused_processSlot _ _ _ _
  case processSeq => exact seqArray_lawful.completedOrRefused_processSlot _ _ _ _

/-! ### Host operations that answer a next state (R157, R158, 60_exceptions.md R274) -/

/-- The outcome is a next state, with the memory size and the pending host operations of `s`: all that the definedness
of the operations to come depends on. -/
def Continues (s : State) (o : CommandOutcome) : Prop :=
  ∃ t, o = .next t ∧ t.memBytes = s.memBytes ∧ t.host = s.host

theorem continues_exec (i : Instr) (s : State) : Continues s (exec i s) := by
  obtain ⟨t, ht, -⟩ := exec_completedOrRefused i s
  obtain ⟨-, hparams, -, -, hhost⟩ := Proofs.commandsLeaveTheHostsRegisters i s t ht
  exact ⟨t, ht, congrArg Params.memBytes hparams, hhost⟩

theorem continues_issueCommand (w : Word) (s : State) : Continues s (issueCommand w s) := by
  cases hw : decodeWord w with
  | ok i => rw [issueCommand_of_decodes hw]; exact continues_exec i s
  | error e => rw [issueCommand_of_error hw]; exact ⟨_, rfl, rfl, rfl⟩

theorem continues_writeRegister (r : Register) (v : Word) (s : State) : Continues s (writeRegister r v s) := by
  cases r
  case cmd => exact continues_issueCommand v s
  all_goals exact ⟨_, rfl, rfl, rfl⟩

section DefinedAccesses

variable {s : State} {w : Width}

theorem continues_hostRegRead {off : BitVec 8} (h : registerAccessDefined off w = true) :
    Continues s (hostRegRead off w s) := ⟨_, if_pos h, rfl, rfl⟩

theorem continues_hostRegWrite {off : BitVec 8} (v : Word) (h : registerAccessDefined off w = true) :
    Continues s (hostRegWrite off w v s) := by
  rw [hostRegWrite, if_pos h]
  exact continues_writeRegister _ v s

theorem continues_hostMemRead {a : Nat} (h : a + w.bytes ≤ s.memBytes) : Continues s (hostMemRead a w s) :=
  ⟨_, if_neg (not_lt.2 h), rfl, rfl⟩

theorem continues_hostMemWrite {a : Nat} (v : Word) (h : a + w.bytes ≤ s.memBytes) :
    Continues s (hostMemWrite a w v s) := ⟨_, if_neg (not_lt.2 h), rfl, rfl⟩

theorem continues_hostBusRead {a : Nat} (h : (hostBusTarget s a).Defined s.memBytes w) :
    Continues s (hostBusRead a w s) := by
  rw [hostBusRead]
  cases htarget : hostBusTarget s a <;> rw [htarget] at h
  case window => exact continues_hostRegRead h
  case memory => exact continues_hostMemRead h
  case stop => exact h.elim

theorem continues_hostBusWrite {a : Nat} (v : Word) (h : (hostBusTarget s a).Defined s.memBytes w) :
    Continues s (hostBusWrite a w v s) := by
  rw [hostBusWrite]
  cases htarget : hostBusTarget s a <;> rw [htarget] at h
  case window => exact continues_hostRegWrite v h
  case memory => exact continues_hostMemWrite v h
  case stop => exact h.elim

theorem continues_hostAccess {op : HostOp} (h : op.Defined s) : Continues s (hostAccess op s) := by
  cases op
  case regRead => exact continues_hostRegRead h
  case regWrite => exact continues_hostRegWrite _ h
  case memRead => exact continues_hostMemRead h
  case memWrite => exact continues_hostMemWrite _ h
  case busRead => exact continues_hostBusRead h
  case busWrite => exact continues_hostBusWrite _ h
  case powerOnReset => exact ⟨_, rfl, rfl, rfl⟩

end DefinedAccesses

/-- Whether an operation is defined depends on the memory size alone. -/
theorem HostOp.defined_congr {s t : State} (h : t.memBytes = s.memBytes) (op : HostOp) :
    op.Defined t ↔ op.Defined s := by
  have htarget : ∀ a, hostBusTarget t a = hostBusTarget s a := fun a => by
    have hmem : inSampleMemory t a = inSampleMemory s a := by rw [inSampleMemory, inSampleMemory, h]
    rw [hostBusTarget, hostBusTarget, hmem]
  cases op <;> simp only [HostOp.Defined, h, htarget]

/-- A step whose pending operations are all defined answers a next state, whose pending operations are so again. -/
theorem step_of_defined {s : State} (h : ∀ op ∈ s.host, op.Defined s) :
    ∃ t, step s = .next t ∧ ∀ op ∈ t.host, op.Defined t := by
  cases hhost : s.host with
  | nil => exact ⟨s, by simp only [step, hhost], h⟩
  | cons op rest =>
    rw [hhost, List.forall_mem_cons] at h
    obtain ⟨hop, hrest⟩ := h
    have hsame := HostOp.defined_congr (s := s) (t := { s with host := rest }) rfl
    obtain ⟨t, ht, hsize, hpending⟩ := continues_hostAccess ((hsame op).2 hop)
    refine ⟨t, (step_of_host hhost).trans ht, fun op' hop' => ?_⟩
    rw [hpending] at hop'
    exact (HostOp.defined_congr hsize op').2 (hrest op' hop')

/-- A run whose first step answers a next state is a run from that state. -/
theorem run_of_step {M : Host.Core} {s t : M.State} (h : M.step s = .next t) (n : Nat) :
    M.run (n + 1) s = M.run n t := by simp only [Host.Core.run, h]

end Sys2Proof.Machine

namespace Sys2Proof.Proofs

/-- Settles O28: the samples write the two output buffers alone; the slots and the host's fields are those of every
command, and only CREATE and DESTROY change an ALLOC bit. -/
theorem processCompletesAndTouchesOnlyItsOwn : Obligations.ProcessCompletesAndTouchesOnlyItsOwn := by
  intro s u k n halloc hlen hn hgood
  obtain ⟨t, ht, hstatus, hbytes⟩ := exec_processOf_frame halloc hlen hn (checkBuffers_of_buffersGood hgood)
  have hkept : allocBit u t k = allocBit u s k := by
    by_contra hne
    obtain ⟨hcmd, -⟩ | ⟨hcmd, -⟩ := allocChangesOnlyByCreateAndDestroy _ s t u k ht hne
    · exact processOf_ne_createOf u k hcmd
    · exact processOf_ne_destroyOf u k hcmd
  have hothers : ∀ v j, (v, j) ≠ (u, k) → sameSlot v j s t := fun v j hne =>
    commandsTouchOnlyTheSlotTheyName _ s t v j ht <| by
      rw [namedSlot_processOf]
      exact fun h => hne (Option.some.inj h).symm
  obtain ⟨hargs, hparams, hpower, hread, hhost⟩ := commandsLeaveTheHostsRegisters _ s t ht
  refine ⟨t, ht, hstatus, hkept.trans halloc, hothers, hargs, hparams, hpower, hread, hhost, fun a h8 h9 => ?_⟩
  refine hbytes a (fun hpresent => ?out8) (fun hpresent => ?out9)
  case out8 =>
    rw [(portOf_present hpresent).1]
    exact h8
  case out9 =>
    obtain ⟨haddr, hmem, hne⟩ := portOf_present hpresent
    rw [map_arg_unitOperands] at hmem
    rw [haddr]
    exact h9 hmem hne

/-- Settles O37: each shared slot operation completes or refuses, and every command is one of them. -/
theorem commandCompletesOrIsRefusedPrecisely : Obligations.CommandCompletesOrIsRefusedPrecisely :=
  exec_completedOrRefused

/-- Settles O45: definedness of the pending operations is kept by every step, so no step of the run stops. -/
theorem definedRunsNeverStop : Obligations.DefinedRunsNeverStop := by
  intro n
  induction n with
  | zero => exact fun s _ => ⟨s, rfl⟩
  | succ n ih =>
    intro s h
    obtain ⟨t, ht, hdefined⟩ := step_of_defined h
    exact (run_of_step (M := core) ht n) ▸ ih t hdefined

/-- Settles O20: NOP is the completion of R141 alone. -/
theorem nopOnlyCompletes : Obligations.NopOnlyCompletes := fun _ _ _ => rfl

/-- Settles O21: CREATE of a free slot puts the initial record into the array of its unit. -/
theorem createGivesTheInitialRecord : Obligations.CreateGivesTheInitialRecord := fun _ _ =>
  ⟨fun h => congrArg _ (createSlot_of_free (A := oscArray) OscState.init h),
    fun h => congrArg _ (createSlot_of_free (A := lfoArray) LfoState.init h),
    fun h => congrArg _ (createSlot_of_free (A := envArray) EnvState.init h),
    fun h => congrArg _ (createSlot_of_free (A := clkArray) ClkState.init h),
    fun h => congrArg _ (createSlot_of_free (A := seqArray) SeqState.init h)⟩

/-- Settles O22: DESTROY of an allocated slot puts the same record back with its ALLOC bit clear. -/
theorem destroyOnlyClearsAlloc : Obligations.DestroyOnlyClearsAlloc := fun _ _ =>
  ⟨fun _ h => congrArg _ (destroySlot_of_allocated (A := oscArray) h),
    fun _ h => congrArg _ (destroySlot_of_allocated (A := lfoArray) h),
    fun _ h => congrArg _ (destroySlot_of_allocated (A := envArray) h),
    fun _ h => congrArg _ (destroySlot_of_allocated (A := clkArray) h),
    fun _ h => congrArg _ (destroySlot_of_allocated (A := seqArray) h)⟩

/-- Settles O23: SET_TYPE is an update of the record's type alone. -/
theorem setTypeStoresArgZero : Obligations.SetTypeStoresArgZero := fun _ _ =>
  ⟨fun _ h => congrArg _ (updateSlot_of_allocated (A := oscArray) _ h),
    fun _ h => congrArg _ (updateSlot_of_allocated (A := lfoArray) _ h)⟩

/-- Settles O25: what DESTROY and then CREATE leave does not name the record the slot had. -/
theorem recreateForgetsTheRecord : Obligations.RecreateForgetsTheRecord := fun _ _ =>
  ⟨fun r r' h => recreate_forgets oscArray_lawful oscArray_overwrites h OscState.init r r',
    fun r r' h => recreate_forgets lfoArray_lawful lfoArray_overwrites h LfoState.init r r',
    fun r r' h => recreate_forgets envArray_lawful envArray_overwrites h EnvState.init r r',
    fun r r' h => recreate_forgets clkArray_lawful clkArray_overwrites h ClkState.init r r',
    fun r r' h => recreate_forgets seqArray_lawful seqArray_overwrites h SeqState.init r r'⟩

/-- Settles O26: with length <= 0 PROCESS completes before any buffer check. -/
theorem zeroLengthBlockOnlyCompletes : Obligations.ZeroLengthBlockOnlyCompletes :=
  fun _ _ _ halloc hlen => exec_processOf_of_empty halloc hlen

end Sys2Proof.Proofs

end

section
/-! The statements on PROCESS.OSC (42_oscillator.md): first what one sample of any PROCESS command comes to, then the
theorem. -/

open Sys2Proof Sys2Proof.Machine Sys2Proof.Claims

namespace Sys2Proof.Machine

/-! ### The ports of a command whose buffers pass their checks (R78, R80) -/

section Ports

variable {s : State} {u : UnitKind} {k : Fin 16}

theorem portOf_operand (hk : k ∈ (unitBuffers u).map Buffer.arg) : portOf s (unitOperands u) k = s.argAddr k := by
  rw [← map_arg_unitOperands] at hk
  exact if_pos (by simpa using hk)

theorem portOf_not_operand (hk : k ∉ (unitBuffers u).map Buffer.arg) : portOf s (unitOperands u) k = 0 := by
  rw [← map_arg_unitOperands] at hk
  exact if_neg (by simpa using hk)

theorem argAddr_eq_zero_iff : s.argAddr k = 0 ↔ s.arg k = 0 := BitVec.toNat_eq (y := 0#32) |>.symm

/-- An input operand of the command reads as the statements say. -/
theorem inputSample_operand (hk : k ∈ (unitBuffers u).map Buffer.arg) (i : Nat) :
    inputSample s.powerOns s.mem (portOf s (unitOperands u) k) i = input s k i := by
  rw [portOf_operand hk]
  exact if_congr argAddr_eq_zero_iff rfl rfl

/-- Every unit has a required output in ARG[8]. -/
theorem out8_mem_unitBuffers (u : UnitKind) : ⟨8, true, false⟩ ∈ unitBuffers u := by
  cases u <;> exact List.mem_cons_self

/-- An output sample to ARG[8] is written where the statements say. -/
theorem outputSample_out8 {n : Nat} (hgood : BuffersGood u s n) (m : Memory) (i : Nat) (y : F32) :
    outputSample m (portOf s (unitOperands u) 8) i y = Memory.write32 m (outAddr s 8 i) y := by
  have hmem := out8_mem_unitBuffers u
  have hpresent : s.argAddr 8 ≠ 0 := by
    rcases hgood _ hmem with ⟨-, hoptional⟩ | ⟨hne, -, -⟩
    · cases hoptional
    · exact hne
  rw [portOf_operand (List.mem_map_of_mem hmem)]
  exact if_neg hpresent

end Ports

/-! ### A PROCESS command of one sample (R154) -/

/-- With length 1 and good buffers, PROCESS is one sample from the slot's record and the state's memory and draws. -/
theorem processSlot_of_one {α : Type} {A : SlotArray α} {s : State} {u : UnitKind} {k : Nat} {r : α}
    (step : UnitStep α) (hslot : (A.get s)[k]? = some { alloc := true, data := r }) (hlen : s.arg 0 = 1)
    (hgood : BuffersGood u s 1) :
    let b := runSample s.powerOns (portsOf s (unitOperands u)) step 0 { data := r, mem := s.mem, draws := s.draws }
    processSlot A (unitOperands u) step k s =
      (A.put { s with mem := b.mem, draws := b.draws } k { alloc := true, data := b.data }).complete := by
  have hone : s.length = (1 : Nat) := by rw [State.length, hlen]; rfl
  exact processSlot_of_checked hslot hone Nat.one_pos (checkBuffers_of_buffersGood hgood)

/-! ### A PROCESS.OSC command of one sample -/

/-- The sample takes its inputs from ARG[12] and ARG[13] and has one output, to ARG[8] (R102, R170). -/
theorem runSample_osc {s : State} {n : Nat} (hgood : BuffersGood .osc s n) (step : UnitStep OscState) (i : Nat)
    (r : OscState) :
    let y := step s.draws r (input s 12 i) (input s 13 i)
    runSample s.powerOns (portsOf s (unitOperands .osc)) step i { data := r, mem := s.mem, draws := s.draws } =
      { data := y.data, mem := Memory.write32 s.mem (outAddr s 8 i) y.out8, draws := s.draws + 16 } := by
  have h9 : portOf s (unitOperands .osc) 9 = 0 := portOf_not_operand (by decide)
  have h12 := inputSample_operand (s := s) (u := .osc) (k := 12) (by decide) i
  have h13 := inputSample_operand (s := s) (u := .osc) (k := 13) (by decide) i
  simp only [runSample, portsOf, drawsPerSample, h9, h12, h13, outputSample_out8 hgood, outputSample_absent]

/-- A PROCESS.OSC of one sample is one Step_OSC (R170). -/
theorem exec_processOsc_one {s : State} {k : Nat} {r : OscState}
    (hslot : s.osc[k]? = some { alloc := true, data := r }) (hlen : s.arg 0 = 1) (hgood : BuffersGood .osc s 1) :
    let y := oscStep (oscParams s) s.draws r (input s 12 0) (input s 13 0)
    exec (.processOsc k) s = .next { s with
      osc := s.osc.set k { alloc := true, data := y.data }
      mem := Memory.write32 s.mem (outAddr s 8 0) y.out8
      draws := s.draws + 16
      status := done s.status } := by
  have hprocess := processSlot_of_one (A := oscArray) (oscStep (oscParams s)) hslot hlen hgood
  rw [runSample_osc hgood] at hprocess
  exact congrArg _ hprocess

end Sys2Proof.Machine

namespace Sys2Proof.Proofs

/-- Settles O29: a block of one sample is one Step_OSC, whose operations are those of R171 to R176, draw for draw. -/
theorem oscSampleFollowsItsRules : Obligations.OscSampleFollowsItsRules := by
  intro s k r hslot hlen hgood
  have hsample := exec_processOsc_one hslot hlen hgood
  simp only [oscStep, oscFinalFreq, oscMasterAdvance, oscSlaveAdvance, oscParams] at hsample
  exact hsample

end Sys2Proof.Proofs

end

section
/-! The statement on PROCESS.LFO (43_lfo.md): the type codes that give no signal, the optional phase output, and what
a command of one sample comes to; then the theorem. -/

open Sys2Proof Sys2Proof.Machine Sys2Proof.Claims

namespace Sys2Proof.Machine

/-! ### The signal and the edge (R191, R194) -/

/-- The type codes above 3 are the silent ones (R130). -/
theorem waveformOf_eq_silence_iff (t : Word) : waveformOf t = .silence ↔ ¬ t.toNat ≤ 3 := by
  have hcode (c : Word) : t = c ↔ t.toNat = c.toNat := BitVec.toNat_eq
  simp only [waveformOf, hcode, BitVec.toNat_ofNat]
  split_ifs <;> simp only [false_iff, true_iff] <;> omega

/-- The signal in the form of R194: silence is the answer to the type codes above 3. -/
theorem lfoSignal_eq (d : Nat) (p : LfoParams) (t : Word) (phase : F32) :
    lfoSignal d p t phase =
      if t.toNat ≤ 3 then mul32 (d + 4) (wave d t phase halfF) (div32 (d + 3) p.gainParam thousandF) else zeroF := by
  rw [lfoSignal, if_congr (waveformOf_eq_silence_iff t) rfl rfl, ite_not]

/-- An edge: the memory was low and the input is high (R128). -/
theorem risingEdge_iff (m : Bool) (x : F32) : risingEdge m x = true ↔ m = false ∧ level x = true := by
  simp [risingEdge]

/-! ### A PROCESS.LFO command of one sample -/

/-- The first output sample to an optional ARG[9] is written as the statements say (R78, R80). -/
theorem outputSample_out9 {u : UnitKind} (hk : 9 ∈ (unitBuffers u).map Buffer.arg) (s : State) (m : Memory) (y : F32) :
    outputSample m (portOf s (unitOperands u) 9) 0 y = withOut9 s m y := by
  rw [portOf_operand hk]
  exact if_congr argAddr_eq_zero_iff rfl rfl

/-- The first sample takes rateIn from ARG[12] and resetIn from ARG[13], and writes the signal to ARG[8] and then the
phase to ARG[9] when that is present (R103, R190). -/
theorem runSample_lfo {s : State} {n : Nat} (hgood : BuffersGood .lfo s n) (step : UnitStep LfoState) (r : LfoState) :
    let y := step s.draws r (input s 12 0) (input s 13 0)
    runSample s.powerOns (portsOf s (unitOperands .lfo)) step 0 { data := r, mem := s.mem, draws := s.draws } =
      { data := y.data
        mem := withOut9 s (Memory.write32 s.mem (outAddr s 8 0) y.out8) y.out9
        draws := s.draws + 16 } := by
  have h12 := inputSample_operand (s := s) (u := .lfo) (k := 12) (by decide) 0
  have h13 := inputSample_operand (s := s) (u := .lfo) (k := 13) (by decide) 0
  have h9 := outputSample_out9 (u := .lfo) (by decide) s
  simp only [runSample, portsOf, drawsPerSample, h9, h12, h13, outputSample_out8 hgood]

/-- A PROCESS.LFO of one sample is one Step_LFO (R190). -/
theorem exec_processLfo_one {s : State} {k : Nat} {r : LfoState}
    (hslot : s.lfo[k]? = some { alloc := true, data := r }) (hlen : s.arg 0 = 1) (hgood : BuffersGood .lfo s 1) :
    let y := lfoStep (lfoParams s) s.draws r (input s 12 0) (input s 13 0)
    exec (.processLfo k) s = .next { s with
      lfo := s.lfo.set k { alloc := true, data := y.data }
      mem := withOut9 s (Memory.write32 s.mem (outAddr s 8 0) y.out8) y.out9
      draws := s.draws + 16
      status := done s.status } := by
  have hprocess := processSlot_of_one (A := lfoArray) (lfoStep (lfoParams s)) hslot hlen hgood
  rw [runSample_lfo hgood] at hprocess
  exact congrArg _ hprocess

end Sys2Proof.Machine

namespace Sys2Proof.Proofs

/-- Settles O30: a block of one sample is one Step_LFO, whose operations are those of R191 to R195, draw for draw. -/
theorem lfoSampleFollowsItsRules : Obligations.LfoSampleFollowsItsRules := by
  intro s k r hslot hlen hgood
  have hsample := exec_processLfo_one hslot hlen hgood
  simp only [lfoStep, lfoFreq, lfoAdvance, lfoSignal_eq, lfoParams, risingEdge_iff] at hsample
  exact hsample

end Sys2Proof.Proofs

end

section
/-! The statements on PROCESS.ENV (44_envelope.md): what the trigger and the dispatch leave in each field, what a
command of one sample comes to, and when a stage completes; then the theorems. -/

open Sys2Proof Sys2Proof.Machine Sys2Proof.Claims

namespace Sys2Proof.Machine

/-! ### The trigger and the dispatch, field by field (R211 to R215) -/

/-- R211: an edge enters Attack with no time elapsed; the edge memory is the level of the input in either case. -/
theorem envTrigger_eq (r : EnvState) (x : F32) :
    envTrigger r x =
      { stage := if r.lastTrig = false ∧ level x = true then .attack else r.stage
        elapsed := if r.lastTrig = false ∧ level x = true then zeroF else r.elapsed
        lastTrig := level x
        currentValue := r.currentValue } := by
  rw [envTrigger, if_congr (risingEdge_iff r.lastTrig x) rfl rfl]
  split_ifs <;> rfl

section EnvDispatch

variable (d : Nat) (p : EnvParams) (dt : F32) (r : EnvState)

/-- R213: v in Attack is 1.0 when its duration is reached, and the fraction of it before. -/
theorem envAttack_value :
    (envAttack d p dt r).2 =
      if ge32 (add32 d r.elapsed dt) p.attack then oneF else div32 (d + 1) (add32 d r.elapsed dt) p.attack := by
  simp only [envAttack]; split_ifs <;> rfl

/-- R214: v in Decay is 0.0 when its duration is reached, and the cube of what is left of it before. -/
theorem envDecay_value :
    let c := clampnn (sub32 (d + 2) oneF (div32 (d + 1) (add32 d r.elapsed dt) p.decay))
    (envDecay d p dt r).2 =
      if ge32 (add32 d r.elapsed dt) p.decay then zeroF else mul32 (d + 4) (mul32 (d + 3) c c) c := by
  simp only [envDecay]; split_ifs <;> rfl

theorem envStage_stage :
    (envStage d p dt r).1.stage =
      match r.stage with
      | .idle => .idle
      | .attack => if ge32 (add32 d r.elapsed dt) p.attack then .decay else .attack
      | .decay => if ge32 (add32 d r.elapsed dt) p.decay then .idle else .decay := by
  cases hs : r.stage
  case idle => simp only [envStage, hs]
  case attack => simp only [envStage, hs, envAttack_stage]
  case decay => simp only [envStage, hs, envDecay_stage]

theorem envStage_elapsed :
    (envStage d p dt r).1.elapsed =
      match r.stage with
      | .idle => r.elapsed
      | .attack => if ge32 (add32 d r.elapsed dt) p.attack then zeroF else add32 d r.elapsed dt
      | .decay => add32 d r.elapsed dt := by
  cases hs : r.stage
  case idle => simp only [envStage, hs]
  case attack => simp only [envStage, hs, envAttack_elapsed]
  case decay => simp only [envStage, hs, envDecay_elapsed]

theorem envStage_value :
    let elapsed := add32 d r.elapsed dt
    let c := clampnn (sub32 (d + 2) oneF (div32 (d + 1) elapsed p.decay))
    (envStage d p dt r).2 =
      match r.stage with
      | .idle => r.currentValue
      | .attack => if ge32 elapsed p.attack then oneF else div32 (d + 1) elapsed p.attack
      | .decay => if ge32 elapsed p.decay then zeroF else mul32 (d + 4) (mul32 (d + 3) c c) c := by
  cases hs : r.stage
  case idle => simp only [envStage, hs]
  case attack => simp only [envStage, hs, envAttack_value]
  case decay => simp only [envStage, hs, envDecay_value]

theorem envAttack_lastTrig : (envAttack d p dt r).1.lastTrig = r.lastTrig := by
  simp only [envAttack]; split_ifs <;> rfl

theorem envDecay_lastTrig : (envDecay d p dt r).1.lastTrig = r.lastTrig := by
  simp only [envDecay]; split_ifs <;> rfl

/-- The edge memory is written by R211 alone. -/
theorem envStage_lastTrig : (envStage d p dt r).1.lastTrig = r.lastTrig := by
  cases hs : r.stage
  case idle => simp only [envStage, hs]
  case attack => simp only [envStage, hs, envAttack_lastTrig]
  case decay => simp only [envStage, hs, envDecay_lastTrig]

end EnvDispatch

/-! ### A PROCESS.ENV command of one sample -/

/-- The first sample takes trigIn from ARG[12] and nothing from ARG[13], and writes the value to ARG[8] and then the
phase to ARG[9] when that is present (R104, R210). -/
theorem runSample_env {s : State} {n : Nat} (hgood : BuffersGood .env s n) (step : UnitStep EnvState) (r : EnvState) :
    let y := step s.draws r (input s 12 0) zeroF
    runSample s.powerOns (portsOf s (unitOperands .env)) step 0 { data := r, mem := s.mem, draws := s.draws } =
      { data := y.data
        mem := withOut9 s (Memory.write32 s.mem (outAddr s 8 0) y.out8) y.out9
        draws := s.draws + 16 } := by
  have h12 := inputSample_operand (s := s) (u := .env) (k := 12) (by decide) 0
  have h13 : portOf s (unitOperands .env) 13 = 0 := portOf_not_operand (by decide)
  have h9 := outputSample_out9 (u := .env) (by decide) s
  simp only [runSample, portsOf, drawsPerSample, h9, h12, h13, outputSample_out8 hgood, inputSample_absent]

/-- A PROCESS.ENV of one sample is one Step_ENV (R210). -/
theorem exec_processEnv_one {s : State} {k : Nat} {r : EnvState}
    (hslot : s.env[k]? = some { alloc := true, data := r }) (hlen : s.arg 0 = 1) (hgood : BuffersGood .env s 1) :
    let y := envStep (envParams s) s.draws r (input s 12 0) zeroF
    exec (.processEnv k) s = .next { s with
      env := s.env.set k { alloc := true, data := y.data }
      mem := withOut9 s (Memory.write32 s.mem (outAddr s 8 0) y.out8) y.out9
      draws := s.draws + 16
      status := done s.status } := by
  have hprocess := processSlot_of_one (A := envArray) (envStep (envParams s)) hslot hlen hgood
  rw [runSample_env hgood] at hprocess
  exact congrArg _ hprocess

/-! ### Stages that complete (R213, R214, R219, R220) -/

/-- A phase, 0.0 for one, plus an increment that is not negative is not negative; the increment may be infinite. -/
theorem le32_zeroF_add32_phase {x y : F32} (d : Nat) (hx : inUnitInterval x) (hy : le32 zeroF y = true) :
    le32 zeroF (add32 d x y) = true := by
  by_cases hfin : isFinite y = true
  case pos =>
    rw [le32_iff_value isFinite_zeroF (isFinite_add32_phase d hx hfin), value32_zeroF]
    exact value32_add32_phase d hx hfin hy
  case neg =>
    have hnan := (le32_iff.1 hy).2.1
    have hinf : isInf y = true := by
      simp only [isFinite, isNaN, isInf, decide_eq_true_eq, decide_eq_false_iff_not] at hfin hnan ⊢
      omega
    have hfx := isFinite_of_inUnitInterval hx
    have hsum : add32 d x y = y := by
      simp [add32, hnan, hinf, isNaN_eq_false_of_isFinite hfx, isInf_eq_false_of_isFinite hfx]
    rwa [hsum]

section EnvCompletes

variable {p : EnvParams} {d : Nat} {r : EnvState} {x : F32} (y : F32)

/-- R213: an Attack whose duration is reached ends in Decay with no time elapsed and gives 1.0. -/
theorem envStep_attack_reached (hs : (envTrigger r x).stage = .attack)
    (hreached : ge32 (add32 (d + 1) (envTrigger r x).elapsed (div32 d oneF p.sampleRate)) p.attack = true) :
    (envStep p d r x y).data.stage = .decay ∧ (envStep p d r x y).data.elapsed = zeroF ∧
      (envStep p d r x y).out8 = oneF := by
  have hone : clamp01 oneF = oneF := by decide
  simp only [envStep, envStage_stage, envStage_elapsed, envStage_value, hs, hreached, if_true, hone, and_self]

/-- R214, R217: a Decay whose duration is reached ends in Idle and gives 0.0 in both outputs. -/
theorem envStep_decay_reached (hs : (envTrigger r x).stage = .decay)
    (hreached : ge32 (add32 (d + 1) (envTrigger r x).elapsed (div32 d oneF p.sampleRate)) p.decay = true) :
    (envStep p d r x y).data.stage = .idle ∧ (envStep p d r x y).out8 = zeroF ∧
      (envStep p d r x y).out9 = zeroF := by
  simp only [envStep, envPhase, envStage_stage, envStage_value, hs, hreached, if_true, clamp01_zeroF, and_self]

end EnvCompletes

end Sys2Proof.Machine

namespace Sys2Proof.Proofs

/-- Settles O31: a block of one sample is one Step_ENV, whose fields and outputs are those of R211 to R217, draw for
draw. -/
theorem envSampleFollowsItsRules : Obligations.EnvSampleFollowsItsRules := by
  intro s k r hslot hlen hgood
  have hsample := exec_processEnv_one hslot hlen hgood
  simp only [envStep, envPhase, envStage_stage, envStage_elapsed, envStage_value, envStage_lastTrig, envTrigger_eq,
    envParams] at hsample
  exact hsample

/-- Settles O51: a duration at or below zero is reached by every elapsed time that is not negative. -/
theorem zeroDurationStagesTakeOneSample : Obligations.ZeroDurationStagesTakeOneSample := by
  intro p d r x y
  refine ⟨fun hlow hhigh hattack hdt => ?edge, fun hno hs hattack helapsed => ?attack,
    fun hno hs hdecay helapsed => ?decay⟩
  case edge =>
    have htrigger : envTrigger r x = { r with stage := .attack, elapsed := zeroF, lastTrig := level x } :=
      if_pos ((risingEdge_iff r.lastTrig x).2 ⟨hlow, hhigh⟩)
    have helapsed := le32_zeroF_add32_phase (d + 1) inUnitInterval_zeroF hdt
    exact envStep_attack_reached y (by rw [htrigger]) (by rw [htrigger]; exact le32_trans hattack helapsed)
  case attack =>
    have htrigger := envTrigger_of_no_edge (risingEdge_of_held hno)
    exact envStep_attack_reached y (by rwa [htrigger]) (by rw [htrigger]; exact le32_trans hattack helapsed)
  case decay =>
    have htrigger := envTrigger_of_no_edge (risingEdge_of_held hno)
    exact envStep_decay_reached y (by rwa [htrigger]) (by rw [htrigger]; exact le32_trans hdecay helapsed)

end Sys2Proof.Proofs

end

section
/-! The statements on PROCESS.CLK (45_clock.md): what one sample leaves, what a command of one sample comes to, and
the first period of a fresh clock; then the theorems. -/

open Sys2Proof Sys2Proof.Machine Sys2Proof.Claims

namespace Sys2Proof.Machine

/-! ### The period, the counter and the gate (R231, R233, R234) -/

theorem clkConsts_period_le (d : Nat) (sampleRate bpm : F32) : (clkConsts d sampleRate bpm).period ≤ 2 ^ 32 - 1 :=
  truncSatU32_le _

/-- No count up to the largest period is too large for the counter (R243). -/
theorem toNat_counter {i : Nat} (h : i ≤ 2 ^ 32 - 1) : (BitVec.ofNat 32 i).toNat = i :=
  (BitVec.toNat_ofNat ..).trans (Nat.mod_eq_of_lt (by omega))

theorem clkBeat_of_le {n : Nat} {r : ClkState} (h : n ≤ r.counter.toNat + 1) :
    clkBeat n r = { counter := 0, high := true, sub := r.sub + 1 } := if_pos h

theorem clkBeat_of_not_le {n : Nat} {r : ClkState} (h : ¬ n ≤ r.counter.toNat + 1) :
    clkBeat n r = { r with counter := BitVec.ofNat 32 (r.counter.toNat + 1) } := if_neg h

/-- R234: the gate writes `high` alone, and can only drop it. -/
theorem clkGate_eq (pulse : F32) (r : ClkState) :
    clkGate pulse r = { r with high := if gt32 (cvtU32F32 r.counter.toNat) pulse then false else r.high } := by
  rw [clkGate]
  split_ifs <;> rfl

theorem cvtU32F32_of_counter_zero : cvtU32F32 (0 : BitVec 32).toNat = zeroF := by decide

section ClkStep

variable {c : ClkConsts} (d : Nat) (r : ClkState) (x y : F32)

/-- R233, R234: the record after a sample. Its counter is a mathematical sum, because no period is above 2^32 - 1
(R243). -/
theorem clkStep_data (hperiod : c.period ≤ 2 ^ 32 - 1) :
    let beat := c.period ≤ r.counter.toNat + 1
    let counter := if beat then 0 else r.counter.toNat + 1
    (clkStep c d r x y).data =
      { counter := BitVec.ofNat 32 counter
        sub := if beat then r.sub + 1 else r.sub
        high := if gt32 (cvtU32F32 counter) c.pulse then false else if beat then true else r.high } := by
  by_cases hbeat : c.period ≤ r.counter.toNat + 1
  case pos =>
    simp only [clkStep, clkBeat_of_le hbeat, clkGate_eq, hbeat, if_true]
    rfl
  case neg =>
    have hcounter := toNat_counter (i := r.counter.toNat + 1) (by omega)
    simp only [clkStep, clkBeat_of_not_le hbeat, clkGate_eq, hcounter, hbeat, if_false]

/-- R235: the trigger output is the gate. -/
theorem clkStep_out8 : (clkStep c d r x y).out8 = if (clkStep c d r x y).data.high then oneF else zeroF := rfl

/-- R236: the downbeat output is the gate in sub-divider value 0. -/
theorem clkStep_out9 :
    (clkStep c d r x y).out9 =
      if (clkStep c d r x y).data.high = true ∧ (clkStep c d r x y).data.sub = 0 then oneF else zeroF :=
  if_congr (by rw [Bool.and_eq_true, decide_eq_true_eq]; rfl) rfl rfl

variable {r}

/-- R233: a beat, whatever the gate then does. -/
theorem clkStep_counts_of_beat (hbeat : c.period ≤ r.counter.toNat + 1) :
    (clkStep c d r x y).data.counter = 0 ∧ (clkStep c d r x y).data.sub = r.sub + 1 := by
  simp only [clkStep, clkBeat_of_le hbeat, clkGate_eq, and_self]

/-- A beat raises the trigger, unless the pulse width is negative (R242). -/
theorem clkStep_data_of_beat (hbeat : c.period ≤ r.counter.toNat + 1) (hpulse : gt32 zeroF c.pulse = false) :
    (clkStep c d r x y).data = { counter := 0, sub := r.sub + 1, high := true } := by
  simp only [clkStep, clkBeat_of_le hbeat, clkGate_eq, cvtU32F32_of_counter_zero, hpulse, Bool.false_eq_true, if_false]

/-- With the trigger low, a sample without a beat only counts. -/
theorem clkStep_data_of_low (hbeat : ¬ c.period ≤ r.counter.toNat + 1) (hlow : r.high = false) :
    (clkStep c d r x y).data =
      { counter := BitVec.ofNat 32 (r.counter.toNat + 1), sub := r.sub, high := false } := by
  simp only [clkStep, clkBeat_of_not_le hbeat, clkGate_eq, hlow, ite_self]

end ClkStep

/-! ### A PROCESS.CLK command of one sample -/

/-- The first sample has no inputs, and writes the trigger to ARG[8] and then the downbeat to ARG[9] when that is
present (R105, R230). -/
theorem runSample_clk {s : State} {n : Nat} (hgood : BuffersGood .clk s n) (step : UnitStep ClkState) (r : ClkState) :
    let y := step s.draws r zeroF zeroF
    runSample s.powerOns (portsOf s (unitOperands .clk)) step 0 { data := r, mem := s.mem, draws := s.draws } =
      { data := y.data
        mem := withOut9 s (Memory.write32 s.mem (outAddr s 8 0) y.out8) y.out9
        draws := s.draws + 16 } := by
  have h12 : portOf s (unitOperands .clk) 12 = 0 := portOf_not_operand (by decide)
  have h13 : portOf s (unitOperands .clk) 13 = 0 := portOf_not_operand (by decide)
  have h9 := outputSample_out9 (u := .clk) (by decide) s
  simp only [runSample, portsOf, drawsPerSample, h9, h12, h13, outputSample_out8 hgood, inputSample_absent]

/-- A PROCESS.CLK of one sample is one Step_CLK with the constants of BlockInit_CLK (R230). -/
theorem exec_processClk_one {s : State} {k : Nat} {r : ClkState}
    (hslot : s.clk[k]? = some { alloc := true, data := r }) (hlen : s.arg 0 = 1) (hgood : BuffersGood .clk s 1) :
    let y := clkStep (clkConsts s.draws (s.arg 1) (s.arg 2)) s.draws r zeroF zeroF
    exec (.processClk k) s = .next { s with
      clk := s.clk.set k { alloc := true, data := y.data }
      mem := withOut9 s (Memory.write32 s.mem (outAddr s 8 0) y.out8) y.out9
      draws := s.draws + 16
      status := done s.status } := by
  have hprocess := processSlot_of_one (A := clkArray) (clkStep (clkConsts s.draws (s.arg 1) (s.arg 2))) hslot hlen hgood
  rw [runSample_clk hgood] at hprocess
  exact congrArg _ hprocess

/-! ### Runs whose records and outputs are known beforehand -/

/-- The last sample of a run is one sample on the state the others leave. -/
theorem runBlock_succ_last {α : Type} (e : Nat) (p : Ports) (step : UnitStep α) (n : Nat) (b : BlockState α) :
    runBlock e p step (n + 1) 0 b = runSample e p step n (runBlock e p step n 0 b) := by
  rw [runBlock_add, Nat.zero_add]
  rfl

section RunAlong

variable {α : Type} {p : Ports} {step : UnitStep α} {record : Nat → α} {output : Nat → F32}

/-- Step takes record `i` of the sequence to the next one and gives output `i`, whatever the draws and the inputs. -/
def StepsAlong (step : UnitStep α) (record : Nat → α) (output : Nat → F32) (i : Nat) : Prop :=
  ∀ d x y, (step d (record i) x y).data = record (i + 1) ∧ (step d (record i) x y).out8 = output i

theorem runSample_along (e : Nat) {i : Nat} {b : BlockState α} (h8 : p.out8 ≠ 0) (h9 : p.out9 = 0)
    (hstep : StepsAlong step record output i) (hb : b.data = record i) :
    (runSample e p step i b).data = record (i + 1) ∧
      (runSample e p step i b).mem = Memory.write32 b.mem (p.out8 + 4 * i) (output i) := by
  obtain ⟨hdata, hout⟩ := hstep b.draws (inputSample e b.mem p.in12 i) (inputSample e b.mem p.in13 i)
  rw [runSample, hb]
  exact ⟨hdata, by rw [h9, outputSample_absent, outputSample, if_neg h8, hout]⟩

/-- A run goes along the sequence, and with ARG[8] the only output its words are the outputs of the steps. -/
theorem runBlock_along (e : Nat) {n : Nat} {b : BlockState α} (h8 : p.out8 ≠ 0) (h9 : p.out9 = 0)
    (hstep : ∀ i < n, StepsAlong step record output i) (hb : b.data = record 0) :
    (runBlock e p step n 0 b).data = record n ∧
      ∀ i < n, Memory.read32 e (runBlock e p step n 0 b).mem (p.out8 + 4 * i) = output i := by
  induction n with
  | zero => exact ⟨hb, fun i hi => absurd hi i.not_lt_zero⟩
  | succ n ih =>
    obtain ⟨hdata, hwords⟩ := ih fun i hi => hstep i (Nat.lt_succ_of_lt hi)
    obtain ⟨hnext, hmem⟩ := runSample_along e h8 h9 (hstep n n.lt_succ_self) hdata
    rw [runBlock_succ_last, hmem]
    refine ⟨hnext, fun i hi => ?_⟩
    rcases Nat.lt_succ_iff_lt_or_eq.1 hi with hlt | rfl
    · rw [Memory.read32_write32_apart _ _ _ (by omega), hwords i hlt]
    · exact Memory.read32_write32 ..

end RunAlong

theorem argAddr_out8_ne_zero {s : State} {u : UnitKind} {n : Nat} (hgood : BuffersGood u s n) : s.argAddr 8 ≠ 0 :=
  ((hgood _ (out8_mem_unitBuffers u)).resolve_left (by simp)).1

/-- A PROCESS.CLK with good buffers and no downbeat output whose samples go along a sequence. -/
theorem exec_processClk_along {s : State} {k n : Nat} {record : Nat → ClkState} {output : Nat → F32}
    (hslot : s.clk[k]? = some { alloc := true, data := record 0 }) (hlen : s.length = n) (hn : 0 < n)
    (hgood : BuffersGood .clk s n) (h9 : s.arg 9 = 0)
    (hstep : ∀ i < n, StepsAlong (clkStep (clkConsts s.draws (s.arg 1) (s.arg 2))) record output i) :
    ∃ t, exec (.processClk k) s = .next t ∧ (∀ i < n, t.readWord (outAddr s 8 i) = output i) ∧
      t.clk[k]? = some { alloc := true, data := record n } := by
  have hprocess := processSlot_of_checked (A := clkArray)
    (step := clkStep (clkConsts s.draws (s.arg 1) (s.arg 2))) hslot hlen hn (checkBuffers_of_buffersGood hgood)
  have hport8 : portOf s (unitOperands .clk) 8 = s.argAddr 8 := portOf_operand (by decide)
  have hport9 : portOf s (unitOperands .clk) 9 = 0 := (portOf_operand (by decide)).trans (argAddr_eq_zero_iff.2 h9)
  have hpresent : s.argAddr 8 ≠ 0 := argAddr_out8_ne_zero hgood
  obtain ⟨hdata, hwords⟩ := runBlock_along (p := portsOf s (unitOperands .clk)) s.powerOns
    (b := { data := record 0, mem := s.mem, draws := s.draws }) (hport8.trans_ne hpresent) hport9 hstep rfl
  refine ⟨_, congrArg Host.Outcome.next hprocess, fun i hi => ?words, ?record⟩
  case words =>
    rw [← hwords i hi, portsOf, hport8]
    rfl
  case record =>
    rw [← hdata]
    exact clkArray_lawful.getElem?_put (List.getElem?_eq_some_iff.1 hslot).1 _

/-! ### The first period of a fresh clock (R238) -/

/-- The record of a fresh clock of period `N` after its first `i` samples, as far as the first beat. -/
def firstPeriodRecord (N i : Nat) : ClkState :=
  if i = N then { counter := 0, sub := 1, high := true } else { counter := BitVec.ofNat 32 i, sub := 0, high := false }

/-- The trigger of a fresh clock of period `N` in sample `i`, as far as the first beat. -/
def firstPeriodTrigger (N i : Nat) : F32 := if i + 1 = N then oneF else zeroF

theorem firstPeriodRecord_of_ne {N i : Nat} (h : i ≠ N) :
    firstPeriodRecord N i = { counter := BitVec.ofNat 32 i, sub := 0, high := false } := if_neg h

/-- The counter comes to the period in sample `N - 1`; before that the gate has nothing to drop. -/
theorem stepsAlong_firstPeriod {c : ClkConsts} (hperiod : c.period ≤ 2 ^ 32 - 1) (hpulse : gt32 zeroF c.pulse = false)
    {i : Nat} (hi : i < c.period) :
    StepsAlong (clkStep c) (firstPeriodRecord c.period) (firstPeriodTrigger c.period) i := by
  intro d x y
  have hcounter := toNat_counter (i := i) (by omega)
  rw [firstPeriodRecord_of_ne hi.ne, clkStep_out8]
  by_cases hlast : i + 1 = c.period
  case pos =>
    rw [clkStep_data_of_beat d x y (by rw [hcounter]; omega) hpulse]
    exact ⟨(if_pos hlast).symm, (if_pos hlast).symm⟩
  case neg =>
    rw [clkStep_data_of_low d x y (by rw [hcounter]; omega) rfl, hcounter, firstPeriodRecord_of_ne hlast]
    exact ⟨rfl, (if_neg hlast).symm⟩

end Sys2Proof.Machine

namespace Sys2Proof.Proofs

/-- Settles O32: a block of one sample is one Step_CLK, whose record and outputs are those of R231 and R233 to R236. -/
theorem clkSampleFollowsItsRules : Obligations.ClkSampleFollowsItsRules := by
  intro s k r hslot hlen hgood
  have hsample := exec_processClk_one hslot hlen hgood
  simp only [clkStep_out8, clkStep_out9, clkStep_data _ _ _ _ (clkConsts_period_le ..)] at hsample
  exact hsample

/-- Settles O52: a fresh clock goes along the records and triggers of its first period. -/
theorem firstBeatComesAtTheEndOfThePeriod : Obligations.FirstBeatComesAtTheEndOfThePeriod := by
  intro s k n hslot hlen hn hgood h9 c hnc hpulse
  have hperiod : c.period ≤ 2 ^ 32 - 1 := clkConsts_period_le ..
  have hfresh := firstPeriodRecord_of_ne (N := c.period) (i := 0) (by omega)
  obtain ⟨t, hexec, hwords, hrecord⟩ := exec_processClk_along (hfresh ▸ hslot) hlen hn hgood h9
    fun i hi => stepsAlong_firstPeriod hperiod hpulse (hi.trans_le hnc)
  refine ⟨t, hexec, fun i hi hlow => ?low, fun hbeat => ?beat, hrecord⟩
  case low => exact (hwords i hi).trans (if_neg hlow)
  case beat => exact (hwords (n - 1) (by omega)).trans (if_pos (by omega))

/-- Settles O53: a period of at most 1 is reached by every increment. -/
theorem periodOfOneBeatsEverySample : Obligations.PeriodOfOneBeatsEverySample := by
  intro c d r x y hperiod
  have hbeat : c.period ≤ r.counter.toNat + 1 := by omega
  obtain ⟨hcounter, hsub⟩ := clkStep_counts_of_beat d x y hbeat
  refine ⟨hcounter, hsub, fun hpulse => ?_⟩
  have hdata := clkStep_data_of_beat d x y hbeat (lt32_eq_false_of_le32 hpulse)
  have hround : r.sub + 1 = 0 ↔ r.sub = 7 := by generalize r.sub = sub; revert sub; decide
  simp only [clkStep_out8, clkStep_out9, hdata, hround, true_and, if_true]
  exact ⟨rfl, rfl⟩

end Sys2Proof.Proofs

end

section
/-! The statements on PROCESS.SEQ (46_sequencer.md): one sample in the form of the rules, and a run of samples as their
repetition; then the theorems. -/

open Sys2Proof Sys2Proof.Machine Sys2Proof.Claims

namespace Sys2Proof.Machine

/-! ### The table and one sample (R251 to R256) -/

/-- The latched entry at an index is the word at that index of the table (R251). -/
theorem tableEntry_latchTable (s : State) (j : BitVec 3) :
    tableEntry (latchTable s) j = s.readWord ((s.arg 14).toNat + 4 * j.toNat) := by
  simp only [tableEntry, latchTable, Fin.getElem_fin, Vector.getElem_ofFn]
  rfl

section SeqStep

variable (table : StepTable) (d : Nat) (r : SeqState) (x y : F32)

/-- R252 to R255: the record after a sample. -/
theorem seqStep_data :
    let start := if r.lastReset = false ∧ level y = true then 0 else r.index
    (seqStep table d r x y).data =
      { index := if r.lastTrig = false ∧ level x = true then start + 1 else start
        lastTrig := level x
        lastReset := level y } := by
  simp only [seqStep, seqAdvance, risingEdge_iff]

/-- R256: the output is the entry at the new index over 1000. -/
theorem seqStep_out8 :
    (seqStep table d r x y).out8 = div32 d (tableEntry table (seqStep table d r x y).data.index) thousandF := rfl

variable {r x y}

/-- A reset edge together with a trigger edge: the reset comes first, so the trigger leads to index 1 (R257). -/
theorem seqStep_index_of_reset_and_trigger (hreset : risingEdge r.lastReset y = true)
    (htrig : risingEdge r.lastTrig x = true) : (seqStep table d r x y).data.index = 1 := by
  rw [seqStep_index, if_pos htrig, if_pos hreset]
  rfl

/-- A reset edge without a trigger edge leads to index 0 (R257). -/
theorem seqStep_index_of_reset (hreset : risingEdge r.lastReset y = true)
    (htrig : risingEdge r.lastTrig x = false) : (seqStep table d r x y).data.index = 0 := by
  rw [seqStep_index, if_neg (ne_true_of_eq_false htrig), if_pos hreset]

end SeqStep

/-! ### The samples of a PROCESS.SEQ command (R250, R251) -/

section SeqRun

variable (table : StepTable) (r : SeqState) (s : State) (i : Nat)

/-- The samples of the rules write the sample memory and the count of draws, and no other field of the state. -/
theorem afterSeqSamples_state (T : BitVec 3 → F32) :
    ∃ m d, (afterSeqSamples T s r i).2 = { s with mem := m, draws := d } := by
  induction i with
  | zero => exact ⟨s.mem, s.draws, rfl⟩
  | succ i ih =>
    obtain ⟨m, d, h⟩ := ih
    simp only [afterSeqSamples, h]
    exact ⟨_, _, rfl⟩

/-- One more sample of the rules is one Step_SEQ with the same table (R252 to R256). -/
theorem afterSeqSamples_succ :
    let q := (afterSeqSamples (tableEntry table) s r i).1
    let t := (afterSeqSamples (tableEntry table) s r i).2
    let y := seqStep table t.draws q (input t 12 i) (input t 13 i)
    afterSeqSamples (tableEntry table) s r (i + 1) =
      (y.data, { t with mem := Memory.write32 t.mem (outAddr t 8 i) y.out8, draws := t.draws + 16 }) := by
  simp only [seqStep_out8, seqStep_data]
  rfl

variable {s} {n : Nat}

/-- The sample takes trigIn from ARG[12] and resetIn from ARG[13] and has one output, to ARG[8] (R106, R250). -/
theorem runSample_seq (hgood : BuffersGood .seq s n) (step : UnitStep SeqState) :
    let y := step s.draws r (input s 12 i) (input s 13 i)
    runSample s.powerOns (portsOf s (unitOperands .seq)) step i { data := r, mem := s.mem, draws := s.draws } =
      { data := y.data, mem := Memory.write32 s.mem (outAddr s 8 i) y.out8, draws := s.draws + 16 } := by
  have h9 : portOf s (unitOperands .seq) 9 = 0 := portOf_not_operand (by decide)
  have h12 := inputSample_operand (s := s) (u := .seq) (k := 12) (by decide) i
  have h13 := inputSample_operand (s := s) (u := .seq) (k := 13) (by decide) i
  simp only [runSample, portsOf, drawsPerSample, h9, h12, h13, outputSample_out8 hgood, outputSample_absent]

/-- A run of Step_SEQ from sample 0 goes through the records, memories and draws of the rules. -/
theorem runBlock_seq (hgood : BuffersGood .seq s n) :
    let b := afterSeqSamples (tableEntry table) s r i
    runBlock s.powerOns (portsOf s (unitOperands .seq)) (seqStep table) i 0
      { data := r, mem := s.mem, draws := s.draws } = { data := b.1, mem := b.2.mem, draws := b.2.draws } := by
  induction i with
  | zero => rfl
  | succ i ih =>
    obtain ⟨m, d, hstate⟩ := afterSeqSamples_state r s i (tableEntry table)
    rw [runBlock_succ_last, ih, afterSeqSamples_succ, hstate]
    exact runSample_seq (s := { s with mem := m, draws := d }) _ i hgood _

/-- A PROCESS.SEQ with good buffers is its samples by the rules, with the table latched before sample 0 (R250). -/
theorem exec_processSeq {k : Nat} (hslot : s.seq[k]? = some { alloc := true, data := r }) (hlen : s.length = n)
    (hn : 0 < n) (hgood : BuffersGood .seq s n) :
    let b := afterSeqSamples (tableEntry (latchTable s)) s r n
    exec (.processSeq k) s = .next { s with
      seq := s.seq.set k { alloc := true, data := b.1 }
      mem := b.2.mem
      draws := s.draws + 16 * n
      status := done s.status } := by
  have hrun := runBlock_seq (latchTable s) r n hgood
  have hdraws : (afterSeqSamples (tableEntry (latchTable s)) s r n).2.draws = s.draws + 16 * n := by
    have h := congrArg BlockState.draws hrun
    rw [runBlock_draws, drawsPerSample, Nat.mul_comm] at h
    exact h.symm
  have hprocess := processSlot_of_checked (A := seqArray) (step := seqStep (latchTable s)) hslot hlen hn
    (checkBuffers_of_buffersGood hgood)
  rw [processEffect, hrun, hdraws] at hprocess
  exact congrArg _ hprocess

end SeqRun

end Sys2Proof.Machine

namespace Sys2Proof.Proofs

/-- Settles O33: by induction on the samples the loop goes through the states of R252 to R256, and the table it uses
was read from the memory before sample 0. -/
theorem seqSampleFollowsItsRules : Obligations.SeqSampleFollowsItsRules := by
  intro s k n r hslot hlen hn hgood
  rw [← funext (tableEntry_latchTable s)]
  exact exec_processSeq r hslot hlen hn hgood

/-- Settles O54: the reset comes before the advance, and a held trigger gives no advance. -/
theorem seqResetThenTriggerGivesIndexOne : Obligations.SeqResetThenTriggerGivesIndexOne := by
  intro table d r t q hlow hreset htrig
  have hedge : risingEdge r.lastReset q = true := (risingEdge_iff ..).2 ⟨hlow, hreset⟩
  refine ⟨fun hrise => ?edge, fun hheld => ?held⟩
  case edge =>
    have hindex := seqStep_index_of_reset_and_trigger table d hedge ((risingEdge_iff ..).2 ⟨hrise, htrig⟩)
    exact ⟨hindex, by rw [seqStep_out8, hindex]; rfl⟩
  case held =>
    have hindex := seqStep_index_of_reset table d hedge (risingEdge_of_held (x := t) (.inl hheld))
    exact ⟨hindex, by rw [seqStep_out8, hindex]; rfl⟩

end Sys2Proof.Proofs

end

section
/-! The statements on exceptions, the idle block and reset (60_exceptions.md, 70_reset_and_hazards.md): first what the
refusal checks read, then one theorem per statement. -/

open Sys2Proof Sys2Proof.Machine Sys2Proof.Claims

namespace Sys2Proof.Machine

/-! ### What the refusal checks read (60_exceptions.md R271, R272) -/

/-- STATUS records the same outcome in both states; ERR, which is sticky, is left out (10_state.md R32 to R34). -/
def SameOutcome (t t' : State) : Prop :=
  t.status.lastOk = t'.status.lastOk ∧ t.status.cause = t'.status.cause ∧ t.status.faultArg = t'.status.faultArg

theorem sameOutcome_complete (s s' : State) : SameOutcome s.complete s'.complete := ⟨rfl, rfl, rfl⟩

theorem sameOutcome_refuse (s s' : State) (c : Cause) (k : Nat) : SameOutcome (s.refuse c k) (s'.refuse c k) :=
  ⟨rfl, rfl, rfl⟩

/-- The buffer checks read the buffer registers and MEM_BYTES alone. -/
theorem checkBuffers_congr {s s' : State} {bufs : List BufferOperand} (n : Nat)
    (hargs : ∀ k ∈ bufs.map BufferOperand.arg, s.arg k = s'.arg k) (hmem : s.memBytes = s'.memBytes) :
    checkBuffers s n bufs = checkBuffers s' n bufs := by
  induction bufs with
  | nil => rfl
  | cons b rest ih =>
    obtain ⟨hb, hrest⟩ := List.forall_mem_cons.1 hargs
    simp only [checkBuffers, State.argAddr, hb, hmem, ih hrest]

section SlotCommandsOutcome

variable {α : Type} {A : SlotArray α} {k : Nat} {s s' : State} (halloc : A.allocAt s k = A.allocAt s' k)
include halloc

/-- Where the ALLOC bits agree, the slot checks find the same cause in both states, or the slot is allocated in both. -/
theorem SlotArray.allocated_congr :
    (∃ c, A.allocated s k = .error c ∧ A.allocated s' k = .error c) ∨
    (∃ r r', A.allocated s k = .ok r ∧ A.allocated s' k = .ok r') := by
  cases h : A.allocAt s k with
  | none =>
    have hcause : slotCause (A.allocAt s k) = some .badSlot := congrArg slotCause h
    exact .inl ⟨_, A.allocated_of_slotCause hcause, A.allocated_of_slotCause (halloc ▸ hcause)⟩
  | some b =>
    cases b with
    | false =>
      have hcause : slotCause (A.allocAt s k) = some .slotFree := congrArg slotCause h
      exact .inl ⟨_, A.allocated_of_slotCause hcause, A.allocated_of_slotCause (halloc ▸ hcause)⟩
    | true =>
      obtain ⟨r, hr⟩ := SlotArray.exists_of_allocAt h
      obtain ⟨r', hr'⟩ := SlotArray.exists_of_allocAt (halloc ▸ h)
      exact .inr ⟨r, r', SlotArray.allocated_ok.2 hr, SlotArray.allocated_ok.2 hr'⟩

theorem sameOutcome_createSlot (init : α) : SameOutcome (createSlot A init k s) (createSlot A init k s') := by
  simp only [createSlot, A.createRefusal_eq, halloc]
  cases createCause (A.allocAt s' k) with
  | some c => exact sameOutcome_refuse _ _ _ _
  | none => exact sameOutcome_complete _ _

theorem sameOutcome_destroySlot : SameOutcome (destroySlot A k s) (destroySlot A k s') := by
  obtain ⟨c, hc, hc'⟩ | ⟨r, r', hr, hr'⟩ := SlotArray.allocated_congr halloc
  · simp only [destroySlot, hc, hc']
    exact sameOutcome_refuse _ _ _ _
  · simp only [destroySlot, hr, hr']
    exact sameOutcome_complete _ _

theorem sameOutcome_updateSlot (f f' : α → α) : SameOutcome (updateSlot A f k s) (updateSlot A f' k s') := by
  obtain ⟨c, hc, hc'⟩ | ⟨r, r', hr, hr'⟩ := SlotArray.allocated_congr halloc
  · simp only [updateSlot, hc, hc']
    exact sameOutcome_refuse _ _ _ _
  · simp only [updateSlot, hr, hr']
    exact sameOutcome_complete _ _

/-- The outcome of PROCESS is found before the first sample, so it does not depend on Step. -/
theorem sameOutcome_processSlot {bufs : List BufferOperand} (step step' : UnitStep α)
    (hargs : ∀ k ∈ 0 :: bufs.map BufferOperand.arg, s.arg k = s'.arg k) (hmem : s.memBytes = s'.memBytes) :
    SameOutcome (processSlot A bufs step k s) (processSlot A bufs step' k s') := by
  obtain ⟨hzero, hbufs⟩ := List.forall_mem_cons.1 hargs
  have hlen : s.length = s'.length := congrArg s32 hzero
  obtain ⟨c, hc, hc'⟩ | ⟨r, r', hr, hr'⟩ := SlotArray.allocated_congr halloc
  · simp only [processSlot, hc, hc']
    exact sameOutcome_refuse _ _ _ _
  · simp only [processSlot, hr, hr', hlen, checkBuffers_congr s'.length.toNat hbufs hmem]
    split_ifs with hempty
    · exact sameOutcome_complete _ _
    · cases checkBuffers s' s'.length.toNat bufs with
      | some failure => exact sameOutcome_refuse _ _ _ _
      | none => exact sameOutcome_complete _ _

end SlotCommandsOutcome

end Sys2Proof.Machine

namespace Sys2Proof.Proofs

/-- Settles O42: one rule per shared slot operation, applied to the array of the command's unit; PROCESS alone reads
ARG registers, and those of its checks are in the list. -/
theorem refusalChecksReadOnlyTheRequest : Obligations.RefusalChecksReadOnlyTheRequest := by
  intro i s s' t t' hargs hmem halloc h h'
  change SameOutcome t t'
  cases i <;> obtain rfl := Host.Outcome.next.inj h <;> obtain rfl := Host.Outcome.next.inj h'
  case nop => exact sameOutcome_complete _ _
  case createOsc k => exact sameOutcome_createSlot (A := oscArray) (halloc .osc k) _
  case createLfo k => exact sameOutcome_createSlot (A := lfoArray) (halloc .lfo k) _
  case createEnv k => exact sameOutcome_createSlot (A := envArray) (halloc .env k) _
  case createClk k => exact sameOutcome_createSlot (A := clkArray) (halloc .clk k) _
  case createSeq k => exact sameOutcome_createSlot (A := seqArray) (halloc .seq k) _
  case destroyOsc k => exact sameOutcome_destroySlot (A := oscArray) (halloc .osc k)
  case destroyLfo k => exact sameOutcome_destroySlot (A := lfoArray) (halloc .lfo k)
  case destroyEnv k => exact sameOutcome_destroySlot (A := envArray) (halloc .env k)
  case destroyClk k => exact sameOutcome_destroySlot (A := clkArray) (halloc .clk k)
  case destroySeq k => exact sameOutcome_destroySlot (A := seqArray) (halloc .seq k)
  case setTypeOsc k => exact sameOutcome_updateSlot (A := oscArray) (halloc .osc k) _ _
  case setTypeLfo k => exact sameOutcome_updateSlot (A := lfoArray) (halloc .lfo k) _ _
  case processOsc k => exact sameOutcome_processSlot (A := oscArray) (halloc .osc k) _ _ hargs hmem
  case processLfo k => exact sameOutcome_processSlot (A := lfoArray) (halloc .lfo k) _ _ hargs hmem
  case processEnv k => exact sameOutcome_processSlot (A := envArray) (halloc .env k) _ _ hargs hmem
  case processClk k => exact sameOutcome_processSlot (A := clkArray) (halloc .clk k) _ _ hargs hmem
  case processSeq k => exact sameOutcome_processSlot (A := seqArray) (halloc .seq k) _ _ hargs hmem

/-- Settles O4: `step` answers the state itself when no operation is pending. -/
theorem idleBlockHoldsItsState : Obligations.IdleBlockHoldsItsState := by
  intro s h
  simp only [step, h]

/-- Settles O2: the step is `powerOnReset`, whose state has no written byte, so every byte is a draw of the new
power-on. -/
theorem powerOnResetReplacesTheWholeState : Obligations.PowerOnResetReplacesTheWholeState := by
  intro s rest h
  have hargs (k : Fin 16) : (powerOnReset { s with host := rest }).arg k = 0x00000000#32 :=
    Vector.getElem_replicate k.isLt
  exact ⟨powerOnReset { s with host := rest }, step_of_host h,
    { status := rfl, args := hargs, osc := rfl, lfo := rfl, env := rfl, clk := rfl, seq := rfl, memBytes := rfl },
    fun _ => rfl, rfl⟩

/-- Settles O43: the power-on state has the invariant for legal parameters, and those of `State.reset` are legal. -/
theorem powerOnStateHasTheInvariant : Obligations.PowerOnStateHasTheInvariant :=
  ⟨fun _ => State.inv_powerOn, State.inv_powerOn (by decide)⟩

end Sys2Proof.Proofs

end

section
/-! The statements on block boundaries (70_reset_and_hazards.md R315): a PROCESS command on a part of a block runs that
part's samples of the whole block, so two commands on the parts run what one runs on the whole. First the laws they
share, then one theorem per statement. -/

open Sys2Proof Sys2Proof.Machine Sys2Proof.Claims

namespace Sys2Proof.Machine

/-! ### The buffers that hold a word per sample -/

/-- The ARG registers of the unit's sample buffers: every buffer but the step table (30_encoding.md R102 to R106). -/
def sampleArgs (u : UnitKind) : List (Fin 16) := ((unitBuffers u).filter fun b => !b.table).map Buffer.arg

theorem arg_mem_sampleArgs {u : UnitKind} {b : Buffer} (hb : b ∈ unitBuffers u) (ht : b.table = false) :
    b.arg ∈ sampleArgs u := List.mem_map_of_mem (List.mem_filter.2 ⟨hb, by rw [ht]; rfl⟩)

theorem exists_of_mem_sampleArgs {u : UnitKind} {k : Fin 16} (hk : k ∈ sampleArgs u) :
    ∃ b ∈ unitBuffers u, b.table = false ∧ b.arg = k := by
  obtain ⟨b, hb, rfl⟩ := List.mem_map.1 hk
  obtain ⟨hmem, htable⟩ := List.mem_filter.1 hb
  exact ⟨b, hmem, by simpa using htable, rfl⟩

theorem sampleArgs_nodup (u : UnitKind) : (sampleArgs u).Nodup := by cases u <;> decide

theorem zero_notMem_sampleArgs (u : UnitKind) : 0 ∉ sampleArgs u := by cases u <;> decide

theorem unitBuffers_arg_ne_zero {u : UnitKind} : ∀ b ∈ unitBuffers u, b.arg ≠ 0 := by cases u <;> decide

theorem table_notMem_sampleArgs {u : UnitKind} : ∀ b ∈ unitBuffers u, b.table = true → b.arg ∉ sampleArgs u := by
  cases u <;> decide

theorem mem_sampleArgs_of_operand {u : UnitKind} :
    ∀ k ∈ (unitBuffers u).map Buffer.arg, k ≠ 14 → k ∈ sampleArgs u := by cases u <;> decide

theorem notMem_sampleArgs_of_le_four (u : UnitKind) : ∀ k : Fin 16, k ≤ 4 → k ∉ sampleArgs u := by
  cases u <;> decide

/-! ### What the host's next request changes -/

/-- The state with another STATUS, other ARG registers, another sample memory and another count of draws. -/
def State.withRun (s : State) (status : Status) (args : Vector Word 16) (mem : Memory) (draws : Nat) : State :=
  { s with status := status, args := args, mem := mem, draws := draws }

/-- The state with other ARG registers. -/
def State.withArgs (s : State) (args : Vector Word 16) : State := s.withRun s.status args s.mem s.draws

theorem movePast_eq_withArgs (n : Nat) (s : State) (k : Fin 16) :
    movePast n s k = s.withArgs (movePast n s k).args := by
  simp only [movePast]
  split_ifs <;> rfl

theorem foldl_movePast_eq_withArgs (n : Nat) (l : List (Fin 16)) (s : State) :
    l.foldl (movePast n) s = s.withArgs (l.foldl (movePast n) s).args := by
  induction l generalizing s with
  | nil => rfl
  | cons k rest ih =>
    rw [List.foldl_cons, ih, movePast_eq_withArgs]
    rfl

theorem firstPart_eq_withArgs (s : State) (n : Nat) : firstPart s n = s.withArgs (firstPart s n).args := rfl

theorem secondPart_eq_withArgs (s : State) (n m : Nat) (l : List (Fin 16)) :
    secondPart s n m l = s.withArgs (secondPart s n m l).args := by
  rw [secondPart, foldl_movePast_eq_withArgs]
  rfl

theorem arg_movePast_of_ne {k j : Fin 16} (n : Nat) (s : State) (h : k ≠ j) : (movePast n s k).arg j = s.arg j := by
  simp only [movePast]
  split_ifs
  · rfl
  · exact State.setArg_arg_ne s _ h

/-- A buffer address moved past `n` samples, when the sum is an address again. -/
theorem argAddr_movePast {n : Nat} {s : State} {k : Fin 16} (hfits : s.argAddr k ≠ 0 → s.argAddr k + 4 * n < 2 ^ 32) :
    (movePast n s k).argAddr k = shiftBase (s.argAddr k) n := by
  by_cases h0 : s.arg k = 0
  · rw [movePast, if_pos h0, argAddr_eq_zero_iff.2 h0, shiftBase_zero]
  · have hne : s.argAddr k ≠ 0 := mt argAddr_eq_zero_iff.1 h0
    have hlt := hfits hne
    rw [movePast, if_neg h0, shiftBase_ne hne, State.argAddr, State.setArg_arg_self, BitVec.toNat_add,
      BitVec.toNat_ofNat]
    simp only [State.argAddr] at hlt ⊢
    omega

theorem arg_foldl_movePast_of_notMem (n : Nat) {l : List (Fin 16)} {j : Fin 16} (h : j ∉ l) (s : State) :
    (l.foldl (movePast n) s).arg j = s.arg j := by
  induction l generalizing s with
  | nil => rfl
  | cons k rest ih =>
    obtain ⟨hk, hrest⟩ := not_or.1 (mt List.mem_cons.2 h)
    rw [List.foldl_cons, ih hrest, arg_movePast_of_ne n s (Ne.symm hk)]

theorem argAddr_foldl_movePast {n : Nat} {l : List (Fin 16)} {k : Fin 16} (hl : l.Nodup) (hk : k ∈ l) {s : State}
    (hfits : s.argAddr k ≠ 0 → s.argAddr k + 4 * n < 2 ^ 32) :
    (l.foldl (movePast n) s).argAddr k = shiftBase (s.argAddr k) n := by
  induction l generalizing s with
  | nil => nomatch hk
  | cons c rest ih =>
    obtain ⟨hc, hrest⟩ := List.nodup_cons.1 hl
    rw [List.foldl_cons]
    by_cases hkc : k = c
    · subst hkc
      rw [State.argAddr, arg_foldl_movePast_of_notMem n hc]
      exact argAddr_movePast hfits
    · have hsame : (movePast n s c).argAddr k = s.argAddr k :=
        congrArg BitVec.toNat (arg_movePast_of_ne n s (Ne.symm hkc))
      rw [ih hrest (List.mem_of_ne_of_mem hkc hk) (hsame ▸ hfits), hsame]

theorem length_setArg_zero (s : State) {n : Nat} (hn : n < 2 ^ 31) : (s.setArg 0 (BitVec.ofNat 32 n)).length = n := by
  have hnat : (BitVec.ofNat 32 n).toNat = n := by rw [BitVec.toNat_ofNat]; omega
  rw [State.length, State.setArg_arg_self, s32, BitVec.toInt_eq_toNat_of_lt (by omega), hnat]

/-! ### A part of a block -/

/-- `t` asks for `j` samples of the block `s` asks for, from sample `i` on: its sample buffers start at that sample, and
every other operand is that of `s`. -/
structure IsPart (u : UnitKind) (i j : Nat) (s t : State) : Prop where
  length : t.length = j
  fixed : ∀ k, k ≠ 0 → k ∉ sampleArgs u → t.arg k = s.arg k
  moved : ∀ k ∈ sampleArgs u, t.argAddr k = shiftBase (s.argAddr k) i
  memBytes : t.memBytes = s.memBytes
  powerOns : t.powerOns = s.powerOns

theorem shiftBase_by_zero (base : Nat) : shiftBase base 0 = base := by
  simp only [shiftBase]
  split_ifs <;> omega

theorem isPart_whole {u : UnitKind} {s : State} {n : Nat} (hlen : s.length = n) : IsPart u 0 n s s where
  length := hlen
  fixed _ _ _ := rfl
  moved _ _ := (shiftBase_by_zero _).symm
  memBytes := rfl
  powerOns := rfl

theorem isPart_firstPart (u : UnitKind) (s : State) {n : Nat} (hn : n < 2 ^ 31) : IsPart u 0 n s (firstPart s n) where
  length := length_setArg_zero s hn
  fixed _ h0 _ := State.setArg_arg_ne s _ (Ne.symm h0)
  moved k hk := by
    have h0 : (0 : Fin 16) ≠ k := fun h => zero_notMem_sampleArgs u (h ▸ hk)
    rw [State.argAddr, firstPart, State.setArg_arg_ne s _ h0, shiftBase_by_zero]
    rfl
  memBytes := rfl
  powerOns := rfl

section Parts

variable {u : UnitKind} {i j n m : Nat} {s t : State}

/-- `s` asks the unit for `n + m` samples, some of them in each part, and its buffers pass their checks. -/
structure IsSplit (u : UnitKind) (s : State) (n m : Nat) : Prop where
  first : 0 < n
  second : 0 < m
  length : s.length = ((n + m : Nat) : Int)
  good : BuffersGood u s (n + m)
  memBytes : s.memBytes ≤ 2 ^ 32

theorem IsSplit.lt (h : IsSplit u s n m) : n + m < 2 ^ 31 := by
  have hbound := BitVec.toInt_lt (x := s.arg 0)
  have hlen := h.length
  simp only [State.length, s32] at hlen
  omega

/-- A present sample buffer of a checked block does not reach past the addresses of 32 bits (20_memory.md R79). -/
theorem IsSplit.argAddr_lt (h : IsSplit u s n m) {k : Fin 16} (hk : k ∈ sampleArgs u) (h0 : s.argAddr k ≠ 0) :
    s.argAddr k + 4 * n < 2 ^ 32 := by
  have hm := h.second
  have hmem := h.memBytes
  obtain ⟨b, hb, htable, rfl⟩ := exists_of_mem_sampleArgs hk
  obtain ⟨hnull, -⟩ | ⟨-, -, hend⟩ := h.good b hb
  · exact absurd hnull h0
  · simp only [Buffer.bytes, htable, Bool.false_eq_true, if_false] at hend
    simp only [State.argAddr]
    omega

/-- The second request asks for the next samples, when the first command has left the first request's operands. -/
theorem IsSplit.isPart_secondPart (h : IsSplit u s n m) (hargs : t.args = (firstPart s n).args)
    (hbytes : t.memBytes = s.memBytes) (hpowerOns : t.powerOns = s.powerOns) :
    IsPart u n m s (secondPart t n m (sampleArgs u)) := by
  have hlt : m < 2 ^ 31 := by have := h.lt; omega
  have hfirst (k : Fin 16) (h0 : k ≠ 0) : t.arg k = s.arg k := by
    rw [State.arg, hargs]
    exact State.setArg_arg_ne s _ (Ne.symm h0)
  have hsecond := secondPart_eq_withArgs t n m (sampleArgs u)
  refine ⟨length_setArg_zero _ hlt, fun k h0 hk => ?fixed, fun k hk => ?moved, ?memBytes, ?powerOns⟩
  case fixed =>
    rw [secondPart, State.setArg_arg_ne _ _ (Ne.symm h0), arg_foldl_movePast_of_notMem n hk, hfirst k h0]
  case moved =>
    have h0 : k ≠ 0 := fun h => zero_notMem_sampleArgs u (h ▸ hk)
    have haddr : t.argAddr k = s.argAddr k := congrArg BitVec.toNat (hfirst k h0)
    rw [State.argAddr, secondPart, State.setArg_arg_ne _ _ (Ne.symm h0), ← haddr]
    exact argAddr_foldl_movePast (sampleArgs_nodup u) hk (haddr ▸ h.argAddr_lt hk)
  case memBytes => rw [hsecond]; exact hbytes
  case powerOns => rw [hsecond]; exact hpowerOns

/-- The buffers of a part pass the checks the buffers of the block pass. -/
theorem IsPart.buffersGood (h : IsPart u i j s t) (hij : i + j ≤ n) (hgood : BuffersGood u s n) :
    BuffersGood u t j := by
  intro b hb
  have hbuf := hgood b hb
  rw [Buffer.Good, h.memBytes]
  cases htable : b.table with
  | true =>
    rw [h.fixed b.arg (unitBuffers_arg_ne_zero b hb) (table_notMem_sampleArgs b hb htable)]
    simp only [Buffer.Good, Buffer.bytes, htable, if_true] at hbuf ⊢
    exact hbuf
  | false =>
    have haddr := h.moved b.arg (arg_mem_sampleArgs hb htable)
    simp only [State.argAddr] at haddr
    simp only [Buffer.Good, Buffer.bytes, htable, Bool.false_eq_true, if_false] at hbuf ⊢
    rw [haddr]
    obtain ⟨hnull, hoptional⟩ | ⟨hpresent, haligned, hend⟩ := hbuf
    · exact .inl ⟨by rw [hnull, shiftBase_zero], hoptional⟩
    · rw [shiftBase_ne hpresent]
      exact .inr ⟨by omega, by omega, by omega⟩

theorem IsPart.portOf_eq (h : IsPart u i j s t) {k : Fin 16} (hk : k ≠ 14) :
    portOf t (unitOperands u) k = shiftBase (portOf s (unitOperands u) k) i := by
  by_cases hop : k ∈ (unitBuffers u).map Buffer.arg
  · rw [portOf_operand hop, portOf_operand hop, h.moved k (mem_sampleArgs_of_operand k hop hk)]
  · rw [portOf_not_operand hop, portOf_not_operand hop, shiftBase_zero]

theorem IsPart.portsOf_eq (h : IsPart u i j s t) :
    portsOf t (unitOperands u) = shiftPorts (portsOf s (unitOperands u)) i := by
  simp only [portsOf, shiftPorts, h.portOf_eq (k := 8) (by decide), h.portOf_eq (k := 9) (by decide),
    h.portOf_eq (k := 12) (by decide), h.portOf_eq (k := 13) (by decide)]

end Parts

/-! ### PROCESS on a part of a block -/

/-- The array is read and written apart from STATUS, the ARG registers, the sample memory and the count of draws. -/
structure SlotArray.Apart {α : Type} (A : SlotArray α) : Prop where
  get_withRun : ∀ (s : State) st a m d, A.get (s.withRun st a m d) = A.get s
  set_withRun : ∀ (s : State) st a m d l, A.set (s.withRun st a m d) l = (A.set s l).withRun st a m d

theorem oscArray_apart : oscArray.Apart := ⟨fun _ _ _ _ _ => rfl, fun _ _ _ _ _ _ => rfl⟩

theorem lfoArray_apart : lfoArray.Apart := ⟨fun _ _ _ _ _ => rfl, fun _ _ _ _ _ _ => rfl⟩

theorem envArray_apart : envArray.Apart := ⟨fun _ _ _ _ _ => rfl, fun _ _ _ _ _ _ => rfl⟩

theorem clkArray_apart : clkArray.Apart := ⟨fun _ _ _ _ _ => rfl, fun _ _ _ _ _ _ => rfl⟩

theorem seqArray_apart : seqArray.Apart := ⟨fun _ _ _ _ _ => rfl, fun _ _ _ _ _ _ => rfl⟩

/-- The state after a PROCESS command on slot `k` of `s` whose samples end in `b`, with ARG registers `args`. -/
def afterBlock {α : Type} (A : SlotArray α) (k : Nat) (s : State) (args : Vector Word 16) (b : BlockState α) : State :=
  (A.put s k { alloc := true, data := b.data }).withRun s.status.completed args b.mem b.draws

/-- The record, memory and draws after the first `n` samples of the block `s` asks the unit for. -/
def blockOf {α : Type} (u : UnitKind) (s : State) (step : UnitStep α) (r : α) (n : Nat) : BlockState α :=
  runBlock s.powerOns (portsOf s (unitOperands u)) step n 0 { data := r, mem := s.mem, draws := s.draws }

/-- The state after the first command of a split, on the first `n` samples. -/
def afterFirst {α : Type} (A : SlotArray α) (u : UnitKind) (k : Nat) (s : State) (step : UnitStep α) (r : α) (n : Nat) :
    State := afterBlock A k s (firstPart s n).args (blockOf u s step r n)

/-- Whatever BlockInit reads is the same in `t` as in `s`, if it lies in no sample buffer: the other operands, and the
bytes outside the first `n` output words. -/
structure SameBlockInputs (u : UnitKind) (n : Nat) (s t : State) : Prop where
  args : ∀ k, k ≠ 0 → k ∉ sampleArgs u → t.arg k = s.arg k
  bytes : ∀ a, OutsideBuffer (portOf s (unitOperands u) 8) n a → OutsideBuffer (portOf s (unitOperands u) 9) n a →
    t.readByte a = s.readByte a

section ProcessPart

variable {α : Type} {A : SlotArray α} (hA : A.Lawful) (hO : A.Overwrites) (hW : A.Apart) {u : UnitKind}
  {k i j n m : Nat} {s t : State} {step : UnitStep α} {r : α}

include hW in
theorem SlotArray.Apart.put_withRun (st : Status) (a : Vector Word 16) (m : Memory) (d : Nat) (sl : Slot α) :
    A.put (s.withRun st a m d) k sl = (A.put s k sl).withRun st a m d := by
  rw [SlotArray.put, SlotArray.put, hW.set_withRun, hW.get_withRun]

include hW in
/-- The effect of a PROCESS command is where its samples end, with the ARG registers as they were (R154). -/
theorem processEffect_eq (bufs : List BufferOperand) : processEffect A bufs step k n r s = afterBlock A k s s.args
    (runBlock s.powerOns (portsOf s bufs) step n 0 { data := r, mem := s.mem, draws := s.draws }) := by
  rw [processEffect]
  generalize runBlock s.powerOns (portsOf s bufs) step n 0 _ = b
  exact congrArg State.complete (hW.put_withRun s.status s.args b.mem b.draws _)

include hW in
/-- A PROCESS command on samples `i` to `i + j - 1` of a checked block runs those samples of that block. -/
theorem IsPart.processSlot_eq (h : IsPart u i j s t) (hij : i + j ≤ n) (hj : 0 < j) (hgood : BuffersGood u s n)
    (hslot : (A.get t)[k]? = some { alloc := true, data := r }) :
    processSlot A (unitOperands u) step k t = afterBlock A k t t.args
      (runBlock s.powerOns (portsOf s (unitOperands u)) step j i { data := r, mem := t.mem, draws := t.draws }) := by
  rw [processSlot_of_checked hslot h.length hj (checkBuffers_of_buffersGood (h.buffersGood hij hgood)),
    processEffect_eq hW, h.portsOf_eq, h.powerOns, runBlock_shift, Nat.add_zero]

include hW in
theorem afterBlock_withArgs (args args' : Vector Word 16) (b : BlockState α) :
    afterBlock A k (s.withArgs args) args' b = afterBlock A k s args' b := by
  rw [afterBlock, State.withArgs, hW.put_withRun]
  rfl

include hA hO hW in
/-- A second command on the slot leaves nothing of the first but the ARG registers. -/
theorem afterBlock_afterBlock (args args' : Vector Word 16) (b b' : BlockState α) :
    afterBlock A k ((afterBlock A k s args b).withArgs args') args' b' = afterBlock A k s args' b' := by
  rw [afterBlock, afterBlock, State.withArgs, hW.put_withRun, hW.put_withRun, hO.put_put hA]
  rfl

/-- After the first `n` samples come the next `m`. -/
theorem blockOf_add : runBlock s.powerOns (portsOf s (unitOperands u)) step m n (blockOf u s step r n) =
    blockOf u s step r (n + m) := by
  rw [blockOf, blockOf, runBlock_add, Nat.zero_add]

/-- The samples leave what BlockInit reads outside the output buffers. -/
theorem blockOf_byteAt {a : Nat} (h8 : OutsideBuffer (portOf s (unitOperands u) 8) n a)
    (h9 : OutsideBuffer (portOf s (unitOperands u) 9) n a) :
    Memory.byteAt s.powerOns (blockOf u s step r n).mem a = s.readByte a :=
  byteAt_runBlock_outside _ _ (portsOf s (unitOperands u)) step n _ h8 h9

include hW in
/-- The first command runs the first `n` samples. -/
theorem processSlot_firstPart (h : IsSplit u s n m) (hslot : (A.get s)[k]? = some { alloc := true, data := r }) :
    processSlot A (unitOperands u) step k (firstPart s n) = afterFirst A u k s step r n := by
  have hlt : n < 2 ^ 31 := by have := h.lt; omega
  have hget : (A.get (firstPart s n))[k]? = some { alloc := true, data := r } := by
    rw [firstPart_eq_withArgs, State.withArgs, hW.get_withRun, hslot]
  rw [(isPart_firstPart u s hlt).processSlot_eq hW (by omega) h.first h.good hget, firstPart_eq_withArgs,
    afterBlock_withArgs hW]
  rfl

include hA in
theorem isPart_secondPart_afterFirst (h : IsSplit u s n m) :
    IsPart u n m s (secondPart (afterFirst A u k s step r n) n m (sampleArgs u)) :=
  h.isPart_secondPart rfl (hA.set_memBytes _ _) (hA.set_powerOns _ _)

include hA hO hW in
/-- The second command goes on from the record, the memory and the draws of the first. -/
theorem processSlot_secondPart (h : IsSplit u s n m) (hk : k < (A.get s).length) :
    ∃ args, processSlot A (unitOperands u) step k (secondPart (afterFirst A u k s step r n) n m (sampleArgs u)) =
      afterBlock A k s args (blockOf u s step r (n + m)) := by
  have hpart : IsPart u n m s (secondPart (afterFirst A u k s step r n) n m (sampleArgs u)) :=
    isPart_secondPart_afterFirst hA h
  rw [secondPart_eq_withArgs] at hpart ⊢
  generalize (secondPart (afterFirst A u k s step r n) n m (sampleArgs u)).args = args at hpart ⊢
  have hget : (A.get ((afterFirst A u k s step r n).withArgs args))[k]? =
      some { alloc := true, data := (blockOf u s step r n).data } := by
    rw [State.withArgs, hW.get_withRun, afterFirst, afterBlock, hW.get_withRun, hA.getElem?_put hk]
  refine ⟨args, ?_⟩
  calc processSlot A (unitOperands u) step k ((afterFirst A u k s step r n).withArgs args)
    _ = afterBlock A k ((afterFirst A u k s step r n).withArgs args) args
          (runBlock s.powerOns (portsOf s (unitOperands u)) step m n (blockOf u s step r n)) :=
        hpart.processSlot_eq hW le_rfl h.second h.good hget
    _ = afterBlock A k s args (blockOf u s step r (n + m)) := by
        rw [afterFirst, afterBlock_afterBlock hA hO hW, blockOf_add]

include hA in
/-- What BlockInit reads outside the sample buffers is as before, when the second command starts. -/
theorem sameBlockInputs_secondPart (h : IsSplit u s n m) :
    SameBlockInputs u n s (secondPart (afterFirst A u k s step r n) n m (sampleArgs u)) where
  args := (isPart_secondPart_afterFirst hA h).fixed
  bytes a h8 h9 := by
    rw [State.readByte, (isPart_secondPart_afterFirst hA h).powerOns, secondPart_eq_withArgs]
    exact blockOf_byteAt h8 h9

include hA hO hW in
/-- A block of a unit may be split where its Step, the parameters applied, depends on nothing the first part changes. -/
theorem splitsInvisibly_of_step {cmd : Instr} {stepOf : State → UnitStep α}
    (hexec : ∀ t, exec cmd t = .next (processSlot A (unitOperands u) (stepOf t) k t))
    (hstep : ∀ t, SameBlockInputs u n s t → stepOf t = stepOf s)
    (h : IsSplit u s n m) (halloc : A.allocAt s k = some true) : SplitsInvisibly cmd (sampleArgs u) s n m := by
  obtain ⟨r, hslot⟩ := SlotArray.exists_of_allocAt halloc
  obtain ⟨hk, -⟩ := List.getElem?_eq_some_iff.1 hslot
  obtain ⟨args, hrest⟩ := processSlot_secondPart hA hO hW (step := stepOf s) (r := r) h hk
  have hfirst : exec cmd (firstPart s n) = .next (afterFirst A u k s (stepOf s) r n) := by
    have hinputs : SameBlockInputs u n s (firstPart s n) :=
      ⟨(isPart_firstPart u s (by have := h.lt; omega)).fixed, fun _ _ _ => rfl⟩
    rw [hexec, hstep _ hinputs, processSlot_firstPart hW h hslot]
  have hsecond : exec cmd (secondPart (afterFirst A u k s (stepOf s) r n) n m (sampleArgs u)) =
      .next (afterBlock A k s args (blockOf u s (stepOf s) r (n + m))) := by
    rw [hexec, hstep _ (sameBlockInputs_secondPart hA h), hrest]
  have hwhole : exec cmd s = .next (afterBlock A k s s.args (blockOf u s (stepOf s) r (n + m))) := by
    rw [hexec, (isPart_whole h.length).processSlot_eq hW (by omega) (Nat.add_pos_left h.first m) h.good hslot]
    rfl
  exact ⟨_, _, _, hfirst, hsecond, hwhole, rfl, rfl, rfl, rfl, rfl, rfl, rfl, rfl⟩

end ProcessPart

/-! ### What each unit's BlockInit reads -/

/-- The block-rate parameters stand in ARG[1] to ARG[4], which hold no buffer (30_encoding.md R102 to R105). -/
theorem SameBlockInputs.params {u : UnitKind} {n : Nat} {s t : State} (h : SameBlockInputs u n s t) :
    t.argF 1 = s.argF 1 ∧ t.argF 2 = s.argF 2 ∧ t.argF 3 = s.argF 3 ∧ t.argF 4 = s.argF 4 := by
  have harg (k : Fin 16) (h0 : k ≠ 0) (h4 : k ≤ 4) : t.argF k = s.argF k :=
    h.args k h0 (notMem_sampleArgs_of_le_four u k h4)
  exact ⟨harg 1 (by decide) (by decide), harg 2 (by decide) (by decide), harg 3 (by decide) (by decide),
    harg 4 (by decide) (by decide)⟩

section BlockInit

variable {n : Nat} {s t : State}

theorem oscParams_of_sameBlockInputs (h : SameBlockInputs .osc n s t) : oscParams t = oscParams s := by
  obtain ⟨h1, h2, h3, h4⟩ := h.params
  rw [oscParams, h1, h2, h3, h4, oscParams]

theorem lfoParams_of_sameBlockInputs (h : SameBlockInputs .lfo n s t) : lfoParams t = lfoParams s := by
  obtain ⟨h1, h2, h3, -⟩ := h.params
  rw [lfoParams, h1, h2, h3, lfoParams]

theorem envParams_of_sameBlockInputs (h : SameBlockInputs .env n s t) : envParams t = envParams s := by
  obtain ⟨h1, h2, h3, -⟩ := h.params
  rw [envParams, h1, h2, h3, envParams]

/-- The table is latched again as it was, when the first `n` output words do not lie over it (46_sequencer.md R251). -/
theorem latchTable_of_sameBlockInputs (h : SameBlockInputs .seq n s t)
    (hapart : s.argAddr 14 + 32 ≤ s.argAddr 8 ∨ s.argAddr 8 + 4 * n ≤ s.argAddr 14) : latchTable t = latchTable s := by
  have hbase : t.argAddr 14 = s.argAddr 14 := congrArg BitVec.toNat (h.args 14 (by decide) (by decide))
  have h8 : portOf s (unitOperands .seq) 8 = s.argAddr 8 := portOf_operand (by decide)
  have h9 : portOf s (unitOperands .seq) 9 = 0 := portOf_not_operand (by decide)
  have hword (j : Fin 8) : t.readWord (s.argAddr 14 + 4 * j.val) = s.readWord (s.argAddr 14 + 4 * j.val) := by
    refine Memory.read32_congr fun a hlow hhigh => h.bytes a (fun _ => ?out8) fun hpresent => absurd h9 hpresent
    rw [h8]
    omega
  simp only [latchTable, hbase, hword]

end BlockInit

/-! ### The constants of PROCESS.CLK do not depend on the draws (45_clock.md R231) -/

/-- The same value, or a NaN both times. -/
def SameUpToNaN (x y : F32) : Prop := x = y ∨ isNaN x = true ∧ isNaN y = true

section SameUpToNaN

variable {a a' b b' : F32}

theorem sameUpToNaN_nan32 (d d' : Nat) : SameUpToNaN (nan32 d) (nan32 d') := .inr ⟨isNaN_nan32 d, isNaN_nan32 d'⟩

theorem sameUpToNaN_mul32 (d d' : Nat) (a b : F32) : SameUpToNaN (mul32 d a b) (mul32 d' a b) := by
  simp only [mul32]
  split_ifs <;> simp [SameUpToNaN]

theorem sameUpToNaN_div32 (d d' : Nat) (a b : F32) : SameUpToNaN (div32 d a b) (div32 d' a b) := by
  simp only [div32]
  split_ifs <;> simp [SameUpToNaN]

theorem SameUpToNaN.div32 (ha : SameUpToNaN a a') (hb : SameUpToNaN b b') (d d' : Nat) :
    SameUpToNaN (div32 d a b) (div32 d' a' b') := by
  obtain rfl | ⟨hn, hn'⟩ := ha
  · obtain rfl | ⟨hn, hn'⟩ := hb
    · exact sameUpToNaN_div32 d d' a b
    · rw [div32_nan d (.inr hn), div32_nan d' (.inr hn')]
      exact sameUpToNaN_nan32 d d'
  · rw [div32_nan d (.inl hn), div32_nan d' (.inl hn')]
    exact sameUpToNaN_nan32 d d'

theorem SameUpToNaN.truncSatU32_eq (h : SameUpToNaN a b) : truncSatU32 a = truncSatU32 b := by
  obtain rfl | ⟨hn, hn'⟩ := h
  · rfl
  · rw [truncSatU32_of_nan_or_lt (.inl hn), truncSatU32_of_nan_or_lt (.inl hn')]

theorem SameUpToNaN.gt32_eq (h : SameUpToNaN a b) (x : F32) : gt32 x a = gt32 x b := by
  obtain rfl | ⟨hn, hn'⟩ := h
  · rfl
  · rw [gt32, gt32, lt32_nan_left hn, lt32_nan_left hn']

end SameUpToNaN

/-- The constants of two commands with the same parameters give one Step_CLK, though a NaN among them may be another. -/
theorem clkStep_clkConsts (d d' : Nat) (sampleRate bpm : F32) :
    clkStep (clkConsts d sampleRate bpm) = clkStep (clkConsts d' sampleRate bpm) := by
  have hbeats := sameUpToNaN_div32 d d' bpm sixtyF
  have hsamples := SameUpToNaN.div32 (a := sampleRate) (.inl rfl) hbeats (d + 1) (d' + 1)
  have hperiod : (clkConsts d sampleRate bpm).period = (clkConsts d' sampleRate bpm).period :=
    (hsamples.div32 (b := fourF) (.inl rfl) (d + 2) (d' + 2)).truncSatU32_eq
  have hpulse := sameUpToNaN_mul32 (d + 3) (d' + 3) centiF sampleRate
  have hgate : clkGate (clkConsts d sampleRate bpm).pulse = clkGate (clkConsts d' sampleRate bpm).pulse :=
    funext fun r => by rw [clkGate, clkGate, clkConsts, clkConsts, hpulse.gt32_eq]
  funext _ r _ _
  simp only [clkStep, hperiod, hgate]

end Sys2Proof.Machine

namespace Sys2Proof.Proofs

/-- Settles O34: the parts of a block are runs of its samples one after the other, and the parameters are the same for
both commands. -/
theorem blockBoundariesAreInvisible : Obligations.BlockBoundariesAreInvisible := by
  intro s u k n m hu hmem halloc hn hm hlen hgood
  obtain rfl | rfl | rfl := hu
  · exact splitsInvisibly_of_step (u := .osc) oscArray_lawful oscArray_overwrites oscArray_apart
      (stepOf := fun t => oscStep (oscParams t)) (fun _ => rfl)
      (fun _ h => congrArg oscStep (oscParams_of_sameBlockInputs h)) ⟨hn, hm, hlen, hgood, hmem⟩ halloc
  · exact splitsInvisibly_of_step (u := .lfo) lfoArray_lawful lfoArray_overwrites lfoArray_apart
      (stepOf := fun t => lfoStep (lfoParams t)) (fun _ => rfl)
      (fun _ h => congrArg lfoStep (lfoParams_of_sameBlockInputs h)) ⟨hn, hm, hlen, hgood, hmem⟩ halloc
  · exact splitsInvisibly_of_step (u := .env) envArray_lawful envArray_overwrites envArray_apart
      (stepOf := fun t => envStep (envParams t)) (fun _ => rfl)
      (fun _ h => congrArg envStep (envParams_of_sameBlockInputs h)) ⟨hn, hm, hlen, hgood, hmem⟩ halloc

/-- Settles O35: the second command computes its constants with other draws, which no sample can tell. -/
theorem clkBlockBoundariesAreInvisible : Obligations.ClkBlockBoundariesAreInvisible := by
  intro s k n m hmem halloc hn hm hlen hgood
  refine splitsInvisibly_of_step (u := .clk) clkArray_lawful clkArray_overwrites clkArray_apart
    (stepOf := fun t => clkStep (clkConsts t.draws (t.argF 1) (t.argF 2))) (fun _ => rfl) (fun t h => ?step)
    ⟨hn, hm, hlen, hgood, hmem⟩ halloc
  obtain ⟨hrate, hbpm, -⟩ := h.params
  rw [hrate, hbpm]
  exact clkStep_clkConsts _ _ _ _

/-- Settles O36: the second command latches the table the first has left alone. -/
theorem seqBlockBoundariesAreInvisible : Obligations.SeqBlockBoundariesAreInvisible := by
  intro s k n m hmem halloc hn hm hlen hgood hapart
  exact splitsInvisibly_of_step (u := .seq) seqArray_lawful seqArray_overwrites seqArray_apart
    (stepOf := fun t => seqStep (latchTable t)) (fun _ => rfl)
    (fun _ h => congrArg seqStep (latchTable_of_sameBlockInputs h hapart)) ⟨hn, hm, hlen, hgood, hmem⟩ halloc

end Sys2Proof.Proofs

end
